-- ==== Sys2Proof/Word.lean ====
section
/-! DEFINITION. The word and the byte of the engine, and the two packing orders (00_scope.md R6 to R8; 20_memory.md R54). -/

namespace Sys2Proof

/-- A 32-bit pattern without signedness (R6). -/
abbrev Word := BitVec 32

/-- An unsigned integer of 8 bits (R8). -/
abbrev Byte := BitVec 8

/-- The two conventions by which message bytes sit in words: MD5's (R55) and SHA-1's (R56). -/
inductive ByteOrder where
  | le
  | be
deriving DecidableEq, Repr

end Sys2Proof
end

