-- ==== Sys2Proof/Config.lean ====
section
/-! DEFINITION. The implementation parameters of 00_scope.md R5 and the free values: what the spec leaves open and the machine
goes on with. An opaque constant has no body, so no proof can rest on what it is. -/

namespace Sys2Proof

/-- The platform's placement of the register page and of the four buffer windows (R5, R52, R63). -/
structure BusMap where
  base : Nat
  moff : Nat
  koff : Nat
  woff : Nat
  ooff : Nat
deriving DecidableEq, Repr

/-- The parameters of one engine (R5). A capacity of `none` is unbounded. `bus` is `none` where the platform's placement is not
given: the host then names elements by space and index only, which R52 says a model may do (log entry 9). -/
structure Config where
  charw : Nat
  mcap : Option Nat
  kcap : Option Nat
  wcap : Option Nat
  ocap : Option Nat
  bus : Option BusMap
deriving DecidableEq, Repr

/-- CHARW at the spec's default, every capacity unbounded, no bus map (R5; DESIGN CHOICE, log entry 9). -/
def Config.standard : Config :=
  { charw := 16, mcap := none, kcap := none, wcap := none, ocap := none, bus := none }

/-- FREE VALUE. The word a register holds after the `draw`-th draw, one `lane` per register: an internal register between commands
(10_state.md R24 to R28: unspecified; log entry 5), and every register in a fault state (60_exceptions.md R202; log entry 12). -/
opaque Config.freeWord (draw lane : Nat) : Word

/-- FREE VALUE. BLK after the `draw`-th command (R28; log entry 5). -/
opaque Config.freeNat (draw : Nat) : Nat

/-- FREE VALUE. What OLEN holds after a rendering of `n` bytes when `n` does not fit 32 bits: the spec states no result
(20_memory.md R51 gives OLEN 32 bits; log entry 6). -/
opaque Config.overlongCount (n : Nat) : Word

/-- FREE VALUE. What a `.text`, `.chars` or `.words` line of `n` elements writes to register `reg` of the page when `n` does not fit
32 bits: the spec states no result (30_encoding.md R77; log entry 20). -/
opaque Config.overlongList (reg n : Nat) : Word

end Sys2Proof
end

