-- ==== Sys2Proof/Syntax.lean ====
section
/-! DEFINITION. The commands of opcode_table.json, the composite entry points of 30_encoding.md R78, and what a host can do to
the engine (20_memory.md R50 to R52, R58; 70_reset_and_hazards.md R220). -/

namespace Sys2Proof

/-- The engine's twelve commands, one per row of the opcode table. None has an operand field (R71, R73). -/
inductive Instr where
  | add32
  | rol32
  | packle
  | packbe
  | unpackle
  | unpackbe
  | hexle
  | hexbe
  | b64be
  | md5core
  | sha1core
  | hmacsha1
deriving DecidableEq, Repr

/-- The five address spaces (R50). -/
inductive Space where
  | reg
  | m
  | k
  | wb
  | o
deriving DecidableEq, Repr

/-- The nine registers of space REG (R51). -/
inductive RegName where
  | cmd
  | x
  | y
  | r
  | mlen
  | klen
  | wlen
  | bitlen
  | olen
deriving DecidableEq, Repr

/-- One thing that reaches the engine from outside, taken one at a time in order (R60). `read` and `write` are R52's two
primitives; `busRead` and `busWrite` are the same at a bus address and with a width in bytes, which may be one R58 forbids;
`reset` is the reset input (R220). -/
inductive HostEvent where
  | read (space : Space) (index : Nat)
  | write (space : Space) (index : Nat) (value : Word)
  | busRead (addr nbytes : Nat)
  | busWrite (addr nbytes : Nat) (value : Word)
  | reset
deriving DecidableEq, Repr

/-- The pseudo-commands (R78, R185). -/
inductive EntryPoint where
  | md5Hex
  | md5Raw
  | sha1Hex
  | sha1B64
  | sha1Raw
  | hmacHex
  | hmacB64
  | hmacRaw
deriving DecidableEq, Repr

/-- The two text buffers a `.text` or `.chars` directive can load (R77). -/
inductive TextBuffer where
  | m
  | k
deriving DecidableEq, Repr

/-- One line of a program (R76 to R78), as abstract syntax. `chars` is `.text` and `.chars`, its characters as their values. -/
inductive AsmLine where
  | command (i : Instr)
  | pseudo (e : EntryPoint)
  | chars (b : TextBuffer) (cs : List Word)
  | words (ws : List Word)
  | set (name : RegName) (v : Word)
  | expect
deriving DecidableEq, Repr

/-- The table's name of a command. -/
def Instr.mnemonic : Instr → String
  | .add32 => "ADD32"
  | .rol32 => "ROL32"
  | .packle => "PACKLE"
  | .packbe => "PACKBE"
  | .unpackle => "UNPACKLE"
  | .unpackbe => "UNPACKBE"
  | .hexle => "HEXLE"
  | .hexbe => "HEXBE"
  | .b64be => "B64BE"
  | .md5core => "MD5CORE"
  | .sha1core => "SHA1CORE"
  | .hmacsha1 => "HMACSHA1"

/-- The pseudo-command's name (R78). -/
def EntryPoint.mnemonic : EntryPoint → String
  | .md5Hex => "MD5.HEX"
  | .md5Raw => "MD5.RAW"
  | .sha1Hex => "SHA1.HEX"
  | .sha1B64 => "SHA1.B64"
  | .sha1Raw => "SHA1.RAW"
  | .hmacHex => "HMAC.HEX"
  | .hmacB64 => "HMAC.B64"
  | .hmacRaw => "HMAC.RAW"

end Sys2Proof
end

