-- ==== Sys2Proof/WellFormed.lean ====
section
/-! DEFINITION. What the spec requires of a command word (30_encoding.md R71, R74) and of the implementation parameters
(00_scope.md R5). -/

namespace Sys2Proof

/-- The legal values of the OP field (R72), in the table's order. -/
def legalOpcodes : List Byte :=
  [0x01, 0x02, 0x10, 0x11, 0x12, 0x13, 0x14, 0x15, 0x17, 0x20, 0x21, 0x31]

/-- R71: bits 31..8 are zero. -/
def zeroFieldOk (c : Word) : Bool := c.extractLsb' 8 24 == 0#24

/-- R72, R74: bits 7..0 are a listed opcode. -/
def opcodeOk (c : Word) : Bool := legalOpcodes.contains (c.setWidth 8)

/-- A command word that is not reserved (R74). -/
def commandWordOk (c : Word) : Bool := zeroFieldOk c && opcodeOk c

/-- An instruction as syntax has no field that could be ill formed: format C has no operand (R71). -/
def Instr.wf (_ : Instr) : Bool := true

/-- `CHARW >= 8` (R5). -/
def charwOk (cfg : Config) : Bool := decide (8 ≤ cfg.charw)

/-- A bounded WCAP is a multiple of 16 between 16 and 2^27 (R5). -/
def wcapOk (cfg : Config) : Bool :=
  match cfg.wcap with
  | none => true
  | some c => decide (16 ≤ c) && decide (c ≤ 2 ^ 27) && decide (c % 16 = 0)

/-- The parameter values R5 allows. -/
def Config.wf (cfg : Config) : Bool := charwOk cfg && wcapOk cfg

end Sys2Proof
end

