-- ==== Sys2Proof/Decode.lean ====
section
/-! DEFINITION. Command decoding and encoding (30_encoding.md R70 to R75, opcode_table.json). -/

namespace Sys2Proof

/-- One row of the opcode map: the word `c` selects the row when `c &&& mask = pattern` (R72). -/
structure OpRow where
  mask : Word
  pattern : Word
  instr : Instr
deriving DecidableEq, Repr

/-- The opcode map (R72). The mask is all ones: format C has no variable field. -/
def opRows : List OpRow :=
  [ { mask := 0xFFFFFFFF, pattern := 0x00000001, instr := .add32 },
    { mask := 0xFFFFFFFF, pattern := 0x00000002, instr := .rol32 },
    { mask := 0xFFFFFFFF, pattern := 0x00000010, instr := .packle },
    { mask := 0xFFFFFFFF, pattern := 0x00000011, instr := .packbe },
    { mask := 0xFFFFFFFF, pattern := 0x00000012, instr := .unpackle },
    { mask := 0xFFFFFFFF, pattern := 0x00000013, instr := .unpackbe },
    { mask := 0xFFFFFFFF, pattern := 0x00000014, instr := .hexle },
    { mask := 0xFFFFFFFF, pattern := 0x00000015, instr := .hexbe },
    { mask := 0xFFFFFFFF, pattern := 0x00000017, instr := .b64be },
    { mask := 0xFFFFFFFF, pattern := 0x00000020, instr := .md5core },
    { mask := 0xFFFFFFFF, pattern := 0x00000021, instr := .sha1core },
    { mask := 0xFFFFFFFF, pattern := 0x00000031, instr := .hmacsha1 } ]

/-- Why a word is reserved (R74): its ZERO field is not 0, or its OP value is not listed. -/
inductive Reserved where
  | zeroField
  | opcode (op : Byte)
deriving DecidableEq, Repr

/-- What a command word decodes to. -/
inductive Decoded where
  | command (i : Instr)
  | reserved (why : Reserved)
deriving DecidableEq, Repr

/-- The row a word selects. -/
def matchesRow (c : Word) (row : OpRow) : Bool := (c &&& row.mask) == row.pattern

/-- Decoding a command word (R72, R74). -/
def decode (c : Word) : Decoded :=
  match opRows.find? (matchesRow c) with
  | some row => .command row.instr
  | none => if zeroFieldOk c then .reserved (.opcode (c.setWidth 8)) else .reserved .zeroField

/-- The OP field of a command (R72). -/
def opcode : Instr → Byte
  | .add32 => 0x01
  | .rol32 => 0x02
  | .packle => 0x10
  | .packbe => 0x11
  | .unpackle => 0x12
  | .unpackbe => 0x13
  | .hexle => 0x14
  | .hexbe => 0x15
  | .b64be => 0x17
  | .md5core => 0x20
  | .sha1core => 0x21
  | .hmacsha1 => 0x31

/-- The command word of a command: OP in bits 7..0, zeros above (R71). -/
def encode (i : Instr) : Word := (opcode i).setWidth 32

/-- The group of a command, OP bits 7..4 (R72). -/
def opGroup (i : Instr) : Nat := ((opcode i).extractLsb' 4 4).toNat

/-- The byte-order convention of a command of groups 1 to 3, OP bit 0; group 0 has none (R72). -/
def opOrder (i : Instr) : Option ByteOrder :=
  if opGroup i = 0 then none else some (if (opcode i).getLsbD 0 then .be else .le)

/-- The low `nbits` bits of `w` as one command word. Every row of the table has 32. -/
def tableWord (nbits w : Nat) : Word := BitVec.ofNat 32 (w % 2 ^ nbits)

/-- The command the decoder reads from a table word. -/
def decodeTableWord (nbits w : Nat) : Option Instr :=
  match decode (tableWord nbits w) with
  | .command i => some i
  | .reserved _ => none

end Sys2Proof
end

