-- ==== Sys2Proof/Machine/State.lean ====
section
/-! DEFINITION. The engine's state (10_state.md R20 and R33), the reasons a step can stop (60_exceptions.md R202), and reset. -/

namespace Sys2Proof.Machine

/-- The phases of the sequencer (10_state.md R28). -/
inductive Phase where
  | idle
  | init
  | pad
  | compress
  | extract
deriving DecidableEq, Repr

/-- Five 32-bit registers: A B C D E (R24) or AA BB CC DD EE (R25). -/
structure Regs where
  a : Word
  b : Word
  c : Word
  d : Word
  e : Word
deriving DecidableEq, Repr

/-- The internal state no host access reaches (R24 to R28), but for PHASE. `digest` is A..E, `latch` AA..EE, `w` the message
schedule W[0..79], `blk` BLK and `step` STEP. -/
structure Internals where
  digest : Regs
  latch : Regs
  w : Vector Word 80
  bkey : Vector Word 16
  ipad : Vector Word 16
  opad : Vector Word 16
  inner : Vector Word 5
  blk : Nat
  step : BitVec 7
deriving DecidableEq, Repr

/-- A buffer: the elements that hold a value (R31), by rising index. An index not listed holds no value. -/
abbrev Buffer (α : Type) := List (Nat × α)

/-- The reasons of R202, a closed list. Each is raised where a requires clause of the spec is false, and each is SAFE: the
hardware's behaviour is undefined there, and a fault claims nothing. -/
inductive Fault where
  /-- Raised by a write to CMD of a reserved word (R74). Safe: nothing is claimed. -/
  | illegalCommand
  /-- Raised by ROL32 when Y > 31 (R103). Safe: nothing is claimed. -/
  | badRotateCount
  /-- Raised by MD5CORE and SHA1CORE on a word array and bit length that do not fit (R133). Safe: nothing is claimed. -/
  | inconsistentLength
  /-- Raised by every command but ADD32 and ROL32 when a length or a result does not fit (R203). Safe: nothing is claimed. -/
  | capacity
  /-- Raised by every command but ADD32 and ROL32 when an element of an input buffer below its length holds no value (R31). The
  registers always hold one (log entry 3). Safe: nothing is claimed. -/
  | readUnwritten
  /-- Raised by a host access that breaks R53 or R58. Safe: nothing is claimed. -/
  | hostAccess
deriving DecidableEq, Repr

/-- What the model has no meaning for. -/
inductive Refusal where
  /-- Raised by an arm of exec whose command has no meaning yet. Safe: nothing is claimed. -/
  | notModelled (mnemonic : String)
  /-- Raised by a bus access outside the engine's windows, or when no bus map is given: what stands there is the platform's
  (20_memory.md R63). Safe: nothing is claimed. -/
  | platformAddress
deriving DecidableEq, Repr

/-- The machine's state: the table of R20, the parameters of 00_scope.md R5 (`cfg`), the reason of the fault state the machine is
in (`fault`, 60_exceptions.md R202; `none` while it is in none), and the model's own `wbCmd` (a command has written WB since reset,
20_memory.md R53 (c), log entry 14), `pending` (what the host will do, log entry 1), `reads` (what its reads returned, oldest first,
log entry 2) and `fresh` (draws of free values, log entry 5). -/
structure State where
  cfg : Config
  cmd : Option Word
  x : Word
  y : Word
  r : Word
  mlen : Word
  klen : Word
  wlen : Word
  bitlen : Word
  olen : Word
  m : Buffer Word
  k : Buffer Word
  wb : Buffer Word
  o : List Host.Cell
  phase : Phase
  int : Internals
  fault : Option Fault
  wbCmd : Bool
  pending : List HostEvent
  reads : List Word
  fresh : Nat
deriving DecidableEq, Repr

/-- Five zero registers. -/
def Regs.zero : Regs := { a := 0, b := 0, c := 0, d := 0, e := 0 }

/-- The internal registers at reset: unspecified (R33); zero is a DESIGN CHOICE (log entry 4). -/
def Internals.zero : Internals :=
  { digest := Regs.zero, latch := Regs.zero, w := Vector.replicate 80 0, bkey := Vector.replicate 16 0,
    ipad := Vector.replicate 16 0, opad := Vector.replicate 16 0, inner := Vector.replicate 5 0, blk := 0, step := 0 }

/-- The state after reset (R33, 70_reset_and_hazards.md R220). That X, Y and R hold a value there, and that it is 0, is a DESIGN
CHOICE (log entry 3). -/
def State.reset : State :=
  { cfg := Config.standard, cmd := none, x := 0, y := 0, r := 0,
    mlen := 0, klen := 0, wlen := 0, bitlen := 0, olen := 0, m := [], k := [], wb := [], o := [],
    phase := .idle, int := Internals.zero, fault := none, wbCmd := false, pending := [], reads := [], fresh := 0 }

end Sys2Proof.Machine
end

