-- ==== Sys2Proof/Machine/Ops.lean ====
section
/-! DEFINITION. The named operations on buffers, registers and the whole state. The engine has no exception to take and none to
return from (60_exceptions.md R200, R206): where a requires clause is false the machine enters a fault state (`enterFault`, R202),
and the one way on is `applyReset`. -/

namespace Sys2Proof.Machine

/-- `n` is within a capacity; `none` is unbounded (00_scope.md R5). -/
def capFits (n : Nat) (cap : Option Nat) : Bool :=
  match cap with
  | none => true
  | some c => decide (n ≤ c)

/-- `i` is an index of a buffer of that capacity (20_memory.md R50, R63). -/
def indexFits (i : Nat) (cap : Option Nat) : Bool :=
  match cap with
  | none => true
  | some c => decide (i < c)

/-- The element at an index, `none` where it holds no value (10_state.md R31). -/
def bufGet {α : Type} : Buffer α → Nat → Option α
  | [], _ => none
  | (j, v) :: rest, i => if i = j then some v else bufGet rest i

/-- Store one element, keeping the indices rising (20_memory.md R52, R59). -/
def bufSet {α : Type} : Buffer α → Nat → α → Buffer α
  | [], i, v => [(i, v)]
  | (j, w) :: rest, i, v =>
    if i < j then (i, v) :: (j, w) :: rest
    else if i = j then (i, v) :: rest
    else (j, w) :: bufSet rest i v

/-- The elements of a list at the indices `start`, `start + 1`, and on. -/
def bufFrom {α : Type} : Nat → List α → Buffer α
  | _, [] => []
  | start, v :: vs => (start, v) :: bufFrom (start + 1) vs

/-- The buffer of the list's elements from index 0 on, with no other element holding a value. A core or HMAC command leaves WB so:
its elements above the digest become unspecified (30_encoding.md R73) and so hold no value (10_state.md R31). -/
def bufOfList {α : Type} (vs : List α) : Buffer α := bufFrom 0 vs

/-- A buffer after a command wrote the list to it from index 0 (00_scope.md R11). Elements at and above the written length are not in
the command's writes column and stay as they were (30_encoding.md R73; log entry 7). -/
def bufOver {α : Type} (vs : List α) (b : Buffer α) : Buffer α :=
  bufOfList vs ++ b.filter (fun e => decide (vs.length ≤ e.1))

/-- The `n` elements from index `start` on, `none` if one of them holds no value (R31). -/
def readFrom {α : Type} (b : Buffer α) : Nat → Nat → Option (List α)
  | _, 0 => some []
  | start, n + 1 =>
    match bufGet b start with
    | none => none
    | some v =>
      match readFrom b (start + 1) n with
      | none => none
      | some vs => some (v :: vs)

/-- The value a `n`-element text or array denotes: elements 0 to n - 1 (00_scope.md R11). -/
def readAll {α : Type} (b : Buffer α) (n : Nat) : Option (List α) := readFrom b 0 n

/-- A buffer whose indices strictly rise: the one canonical form. -/
abbrev bufWf {α : Type} (b : Buffer α) : Prop := b.Pairwise (fun p q => p.1 < q.1)

/-- The four buffers are in canonical form. -/
abbrev Memory.wf (s : State) : Prop := bufWf s.m ∧ bufWf s.k ∧ bufWf s.wb ∧ bufWf (α := Byte) s.o

/-- The bits of a bus value a text element keeps: the low CHARW (20_memory.md R52; log entry 13). -/
def truncChar (cfg : Config) (v : Word) : Word := BitVec.ofNat 32 (v.toNat % 2 ^ cfg.charw)

/-- OLEN for `n` bytes; open where `n` does not fit the register (log entry 6). -/
def countReg (n : Nat) : Word := if n < 2 ^ 32 then BitVec.ofNat 32 n else Config.overlongCount n

/-- Five free words. -/
def freeRegs (draw lane : Nat) : Regs :=
  { a := Config.freeWord draw lane, b := Config.freeWord draw (lane + 1), c := Config.freeWord draw (lane + 2),
    d := Config.freeWord draw (lane + 3), e := Config.freeWord draw (lane + 4) }

/-- What the internal registers hold between commands: free values, one lane each (10_state.md R24 to R28; log entry 5). -/
def leftover (draw : Nat) : Internals :=
  { digest := freeRegs draw 0, latch := freeRegs draw 5,
    w := Vector.ofFn (fun j => Config.freeWord draw (10 + j.val)),
    bkey := Vector.ofFn (fun j => Config.freeWord draw (90 + j.val)),
    ipad := Vector.ofFn (fun j => Config.freeWord draw (106 + j.val)),
    opad := Vector.ofFn (fun j => Config.freeWord draw (122 + j.val)),
    inner := Vector.ofFn (fun j => Config.freeWord draw (138 + j.val)),
    blk := Config.freeNat draw, step := (Config.freeWord draw 143).setWidth 7 }

/-- The end of every command: CMD keeps nothing (30_encoding.md R70), the sequencer is idle (10_state.md R28), and the internal
registers are unspecified (30_encoding.md R73). -/
def finish (s : State) : State :=
  { s with cmd := none, phase := .idle, int := leftover s.fresh, fresh := s.fresh + 1 }

/-- `R <- v` (10_state.md R22). -/
def putResult (v : Word) (s : State) : State := { s with r := v }

/-- The words of a packed text: `WB[0 .. |ws|-1] <- ws; WLEN <- |ws|; BITLEN <- bits`, the rest of WB as it was (00_scope.md R11,
10_state.md R23, 30_encoding.md R73). -/
def putPacked (ws : List Word) (bits : Nat) (s : State) : State :=
  { s with wb := bufOver ws s.wb, wlen := BitVec.ofNat 32 ws.length, bitlen := BitVec.ofNat 32 bits, wbCmd := true }

/-- The words of a digest: `WB <- ws; WLEN <- |ws|; BITLEN <- bits`, the rest of WB unspecified (00_scope.md R11, 10_state.md R23,
30_encoding.md R73). -/
def putDigest (ws : List Word) (bits : Nat) (s : State) : State :=
  { s with wb := bufOfList ws, wlen := BitVec.ofNat 32 ws.length, bitlen := BitVec.ofNat 32 bits, wbCmd := true }

/-- `O[0 .. |t|-1] <- t; OLEN <- |t|`, the rest of O as it was (00_scope.md R11, 30_encoding.md R73). -/
def putText (t : List Byte) (s : State) : State := { s with o := bufOver t s.o, olen := countReg t.length }

/-- The command register holds the word while its command runs (10_state.md R20). -/
def takeCommand (c : Word) (s : State) : State := { s with cmd := some c }

/-- Entering a fault state (60_exceptions.md R202): the reason is recorded and nothing is claimed of the rest, so every register is
a free value and no buffer element holds a value (log entry 12). -/
def enterFault (why : Fault) (s : State) : State :=
  { s with
    fault := some why, x := Config.freeWord s.fresh 144, y := Config.freeWord s.fresh 145,
    r := Config.freeWord s.fresh 146, mlen := Config.freeWord s.fresh 147, klen := Config.freeWord s.fresh 148,
    wlen := Config.freeWord s.fresh 149, bitlen := Config.freeWord s.fresh 150, olen := Config.freeWord s.fresh 151,
    m := [], k := [], wb := [], o := [], wbCmd := false, int := leftover s.fresh, fresh := s.fresh + 1 }

/-- A reset applied to a running engine or to one in a fault state: the state of R33, no fault, with the parameters and the host's
side kept, and the internal registers unspecified (70_reset_and_hazards.md R220; log entry 12). -/
def applyReset (s : State) : State :=
  { State.reset with
    cfg := s.cfg, pending := s.pending, reads := s.reads, int := leftover s.fresh, fresh := s.fresh + 1 }

end Sys2Proof.Machine
end

