-- ==== Sys2Proof/Machine/Bus.lean ====
section
/-! DEFINITION. The host's element accesses but for the command write (20_memory.md R50 to R53, R58, R59), and the bus addresses of
the elements (R51, R52, R63). -/

namespace Sys2Proof.Machine

/-- The register page (R51). -/
def regOfIndex : Nat → Option RegName
  | 0 => some .cmd
  | 1 => some .x
  | 2 => some .y
  | 3 => some .r
  | 4 => some .mlen
  | 5 => some .klen
  | 6 => some .wlen
  | 7 => some .bitlen
  | 8 => some .olen
  | _ => none

/-- A register's index in space REG (R51). -/
def regIndex : RegName → Nat
  | .cmd => 0
  | .x => 1
  | .y => 2
  | .r => 3
  | .mlen => 4
  | .klen => 5
  | .wlen => 6
  | .bitlen => 7
  | .olen => 8

/-- What a host read of a register returns: CMD is write only (R51). -/
def readReg (s : State) : RegName → Option Word
  | .cmd => none
  | .x => some s.x
  | .y => some s.y
  | .r => some s.r
  | .mlen => some s.mlen
  | .klen => some s.klen
  | .wlen => some s.wlen
  | .bitlen => some s.bitlen
  | .olen => some s.olen

/-- A host write to a register other than CMD; R and OLEN are read only (R51). -/
def writeReg (v : Word) (s : State) : RegName → Option State
  | .cmd => none
  | .x => some { s with x := v }
  | .y => some { s with y := v }
  | .r => none
  | .mlen => some { s with mlen := v }
  | .klen => some { s with klen := v }
  | .wlen => some { s with wlen := v }
  | .bitlen => some { s with bitlen := v }
  | .olen => none

/-- R53 (c) lets the host read WB[i]: after a command that wrote WB, only below WLEN (log entry 14). -/
def wbReadable (s : State) (index : Nat) : Bool := !s.wbCmd || decide (index < s.wlen.toNat)

/-- `MemRead(space, index)` (R52): the element, zero-extended to 32 bits; `none` where R53 forbids the read. -/
def readElem (s : State) (space : Space) (index : Nat) : Option Word :=
  match space with
  | .reg =>
    match regOfIndex index with
    | some name => readReg s name
    | none => none
  | .m => if indexFits index s.cfg.mcap then bufGet s.m index else none
  | .k => if indexFits index s.cfg.kcap then bufGet s.k index else none
  | .wb => if indexFits index s.cfg.wcap && wbReadable s index then bufGet s.wb index else none
  | .o =>
    if indexFits index s.cfg.ocap && decide (index < s.olen.toNat) then
      (bufGet (α := Byte) s.o index).map (fun b => b.setWidth 32)
    else none

/-- `MemWrite(space, index, v)` (R52) to anything but CMD; `none` where R53 forbids the write. -/
def writeElem (space : Space) (index : Nat) (v : Word) (s : State) : Option State :=
  match space with
  | .reg =>
    match regOfIndex index with
    | some name => writeReg v s name
    | none => none
  | .m => if indexFits index s.cfg.mcap then some { s with m := bufSet s.m index (truncChar s.cfg v) } else none
  | .k => if indexFits index s.cfg.kcap then some { s with k := bufSet s.k index (truncChar s.cfg v) } else none
  | .wb => if indexFits index s.cfg.wcap then some { s with wb := bufSet s.wb index v } else none
  | .o => none

/-- A host read: the value goes to the host, nothing else changes (R59). -/
def hostRead (space : Space) (index : Nat) (s : State) : Host.Outcome State Fault Refusal :=
  match readElem s space index with
  | some v => .next { s with reads := s.reads ++ [v] }
  | none => .fault .hostAccess

/-- One of the engine's windows on the bus: the space it shows, its first byte address, and the first above it (`none` if the
buffer is unbounded). -/
structure Window where
  space : Space
  lo : Nat
  hi : Option Nat
deriving DecidableEq, Repr

/-- The window of a buffer: a stride of 4 bytes for every element (R52, R63). -/
def bufWindow (space : Space) (lo : Nat) (cap : Option Nat) : Window :=
  { space := space, lo := lo, hi := cap.map (fun c => lo + 4 * c) }

/-- The register page and the four buffer windows (R51, R52). -/
def windows (cfg : Config) (b : BusMap) : List Window :=
  [ { space := .reg, lo := b.base, hi := some (b.base + 36) },
    bufWindow .m (b.base + b.moff) cfg.mcap, bufWindow .k (b.base + b.koff) cfg.kcap,
    bufWindow .wb (b.base + b.woff) cfg.wcap, bufWindow .o (b.base + b.ooff) cfg.ocap ]

/-- An access of `nbytes` bytes at `addr` meets the window. -/
def touches (addr nbytes : Nat) (w : Window) : Bool :=
  decide (w.lo < addr + nbytes)
    && (match w.hi with
        | none => true
        | some hi => decide (addr < hi))

/-- What a bus access reaches: one element; the engine's window in a way R58 forbids; or nothing of the engine (R63). -/
inductive BusTarget where
  | element (space : Space) (index : Nat)
  | malformed
  | foreign
deriving DecidableEq, Repr

/-- The element at a bus address (R51, R52). Only an aligned access of 4 bytes reaches one (R58); an access that two windows
claim is against R50 (log entry 11). DESIGN CHOICE (log entry 21): R58 does not say what "aligned" is measured from, and R63 leaves
BASE and the offsets to the platform; here an access is aligned when its distance from the window's first byte is a multiple of 4,
and neither BASE nor an offset need be one. -/
def busTarget (cfg : Config) (addr nbytes : Nat) : BusTarget :=
  match cfg.bus with
  | none => .foreign
  | some b =>
    match (windows cfg b).filter (touches addr nbytes) with
    | [] => .foreign
    | [w] =>
      if nbytes = 4 ∧ w.lo ≤ addr ∧ (addr - w.lo) % 4 = 0 then .element w.space ((addr - w.lo) / 4) else .malformed
    | _ => .malformed

/-- The bus address of an element (R51, R52). -/
def busAddress (b : BusMap) (space : Space) (index : Nat) : Nat :=
  match space with
  | .reg => b.base + 4 * index
  | .m => b.base + b.moff + 4 * index
  | .k => b.base + b.koff + 4 * index
  | .wb => b.base + b.woff + 4 * index
  | .o => b.base + b.ooff + 4 * index

end Sys2Proof.Machine
end

