-- ==== Sys2Proof/Machine/Flags.lean ====
section
/-! DEFINITION. The engine has no flags, condition codes or predicates (10_state.md R29), so this file holds no flag rule. It holds
the one place a carry occurs, the split form of the addition (40_word_utilities.md R100), whose carry out of bit 31 nothing keeps. -/

namespace Sys2Proof.Machine

/-- `add32(x, y) = (x + y) mod 2^32` (R100). -/
def add32 (x y : Word) : Word := x + y

/-- The sum of the low halves, 17 bits (R100). -/
def lsw (x y : Word) : BitVec 17 := (x.extractLsb' 0 16).setWidth 17 + (y.extractLsb' 0 16).setWidth 17

/-- The sum of the high halves and the carry of the low ones, 17 bits (R100). Its bit 16 is the carry out, which is dropped. -/
def msw (x y : Word) : BitVec 17 :=
  (x.extractLsb' 16 16).setWidth 17 + (y.extractLsb' 16 16).setWidth 17 + ((lsw x y).extractLsb' 16 1).setWidth 17

/-- The split form of the addition (R100). -/
def add32Split (x y : Word) : Word :=
  (((msw x y).extractLsb' 0 16).setWidth 32 <<< 16) ||| ((lsw x y).extractLsb' 0 16).setWidth 32

end Sys2Proof.Machine
end

