-- ==== Sys2Proof/Machine/Operands.lean ====
section
/-! DEFINITION. Every command's operands are implicit (30_encoding.md R73): the scalars X and Y, the texts M and K, the word array
WB. This file holds the rotation and the relation between message bytes and words in the two packing orders (20_memory.md R54 to
R57; 40_word_utilities.md R102, R104 to R108). -/

namespace Sys2Proof.Machine

/-- `rol32(v, n)` for 0 <= n <= 31 (R102). Above 31 the spec defines nothing and no command gets here (R103; log entry 18). -/
def rol32 (v : Word) (n : Nat) : Word := if n = 0 then v else (v <<< n) ||| (v >>> (32 - n))

/-- The byte a character contributes: its low 8 bits (00_scope.md R8, 40_word_utilities.md R106). -/
def charByte (c : Word) : Byte := c.setWidth 8

/-- The shift of the byte at position `k` of a message within its word (R55: `8*(k mod 4)`; R56: `24 - 8*(k mod 4)`). -/
def laneShift (ord : ByteOrder) (k : Nat) : Nat :=
  match ord with
  | .le => 8 * (k % 4)
  | .be => 24 - 8 * (k % 4)

/-- A byte put in the lane of message position `k`. -/
def placeByte (ord : ByteOrder) (k : Nat) (b : Byte) : Word := b.setWidth 32 <<< laneShift ord k

/-- The byte of a word at message position `k` (R57). -/
def byteAt (ord : ByteOrder) (w : Word) (k : Nat) : Byte := (w >>> laneShift ord k).setWidth 8

/-- Number of words `n` characters pack to: ceil(n / 4) (R104). -/
def wordsFor (n : Nat) : Nat := (n + 3) / 4

/-- A text packed to words, four characters a word, the unused lanes of the last word zero (R104, R105). -/
def pack (ord : ByteOrder) : List Word → List Word
  | [] => []
  | [c0] => [placeByte ord 0 (charByte c0)]
  | [c0, c1] => [placeByte ord 0 (charByte c0) ||| placeByte ord 1 (charByte c1)]
  | [c0, c1, c2] =>
    [placeByte ord 0 (charByte c0) ||| placeByte ord 1 (charByte c1) ||| placeByte ord 2 (charByte c2)]
  | c0 :: c1 :: c2 :: c3 :: rest =>
    (placeByte ord 0 (charByte c0) ||| placeByte ord 1 (charByte c1) ||| placeByte ord 2 (charByte c2)
      ||| placeByte ord 3 (charByte c3)) :: pack ord rest

/-- The four bytes of a word in message order. -/
def wordBytes (ord : ByteOrder) (w : Word) : List Byte :=
  [byteAt ord w 0, byteAt ord w 1, byteAt ord w 2, byteAt ord w 3]

/-- The byte stream of a word array, four bytes for every word (R57, R107, R108). -/
def unpack (ord : ByteOrder) (ws : List Word) : List Byte := ws.flatMap (wordBytes ord)

/-- The message text M, `none` if an element in use holds no value. -/
def textM (s : State) : Option (List Word) := readAll s.m s.mlen.toNat

/-- The key text K, `none` if an element in use holds no value. -/
def textK (s : State) : Option (List Word) := readAll s.k s.klen.toNat

/-- The word array WB, `none` if an element in use holds no value. -/
def wordArray (s : State) : Option (List Word) := readAll s.wb s.wlen.toNat

end Sys2Proof.Machine
end

