-- ==== Sys2Proof/Machine/Convert.lean ====
section
/-! DEFINITION. PACKLE, PACKBE, UNPACKLE, UNPACKBE (40_word_utilities.md R104 to R108), and the shape shared by the commands that
render WB to O. -/

namespace Sys2Proof.Machine

/-- The lengths a pack command accepts (R104). -/
def packFits (s : State) : Bool :=
  capFits s.mlen.toNat s.cfg.mcap && capFits (wordsFor s.mlen.toNat) s.cfg.wcap
    && decide (8 * s.mlen.toNat < 2 ^ 32)

/-- `WB[0 .. ceil(MLEN/4)-1] <- pack(M); WLEN <- ceil(MLEN/4); BITLEN <- 8*MLEN` (R104, R105). -/
def packCommand (ord : ByteOrder) (s : State) : Host.Outcome State Fault Refusal :=
  if packFits s then
    match textM s with
    | some t => .next (finish (putPacked (pack ord t) (8 * s.mlen.toNat) s))
    | none => .fault .readUnwritten
  else .fault .capacity

/-- PACKLE (R104). -/
def execPackle (s : State) : Host.Outcome State Fault Refusal := packCommand .le s

/-- PACKBE (R105). -/
def execPackbe (s : State) : Host.Outcome State Fault Refusal := packCommand .be s

/-- `O <- f(WB); OLEN <- |O|`, for a rendering of `size n` bytes from `n` words (R107, R110, R113). -/
def renderCommand (f : List Word → List Byte) (size : Nat → Nat) (s : State) : Host.Outcome State Fault Refusal :=
  if capFits s.wlen.toNat s.cfg.wcap && capFits (size s.wlen.toNat) s.cfg.ocap then
    match wordArray s with
    | some x => .next (finish (putText (f x) s))
    | none => .fault .readUnwritten
  else .fault .capacity

/-- The bytes an unpack command emits (R107). -/
def unpackSize (n : Nat) : Nat := 4 * n

/-- UNPACKLE (R107). -/
def execUnpackle (s : State) : Host.Outcome State Fault Refusal := renderCommand (unpack .le) unpackSize s

/-- UNPACKBE (R108). -/
def execUnpackbe (s : State) : Host.Outcome State Fault Refusal := renderCommand (unpack .be) unpackSize s

end Sys2Proof.Machine
end

