-- ==== Sys2Proof/Machine/Hash.lean ====
section
/-! DEFINITION. What the two hash cores share: consistency, padding, blocks, and the shape of a core command (41_md5.md R130, R133,
R134, R140; 42_sha1.md R150, R153, R160). -/

namespace Sys2Proof.Machine

/-- ceil(len / 32): the words a message of `len` bits needs (R133). -/
def wordsForBits (len : Nat) : Nat := (len + 31) / 32

/-- The last word has a bit set outside the message (R133 (c)). -/
def strayBits (ord : ByteOrder) (len : Nat) (last : Word) : Bool :=
  if len % 32 = 0 then false
  else
    match ord with
    | .le => !(last >>> (len % 32) == 0)
    | .be => !(last <<< (len % 32) == 0)

/-- `consistentLE` and `consistentBE` (R133). -/
def consistent (ord : ByteOrder) (x : List Word) (len : Nat) : Bool :=
  decide (len % 8 = 0) && decide (x.length = wordsForBits len) && !strayBits ord len (x.getLastD 0)

/-- The words of the padded stream (R134, R153). -/
def padLength (len : Nat) : Nat := (((len + 64) >>> 9) <<< 4) + 16

/-- The blocks of the padded stream (R130, R150). -/
def blockCount (len : Nat) : Nat := ((len + 64) >>> 9) + 1

/-- The shift of the marker byte 0x80 within its word (R134, R153). -/
def markerShift (ord : ByteOrder) (len : Nat) : Nat :=
  match ord with
  | .le => len % 32
  | .be => 24 - len % 32

/-- The length word's place, counted back from the end of the stream: L - 2 for MD5 (R134), L - 1 for SHA-1 (R153). -/
def lengthFromEnd (ord : ByteOrder) : Nat :=
  match ord with
  | .le => 2
  | .be => 1

/-- Pad (R134, R153). -/
def padStream (ord : ByteOrder) (x : List Word) (len : Nat) : List Word :=
  ((x ++ List.replicate (padLength len - x.length) 0).modify (len >>> 5)
      (fun w => w ||| ((0x80 : Word) <<< markerShift ord len))).set
    (padLength len - lengthFromEnd ord) (BitVec.ofNat 32 len)

/-- The 16 words of block `blk` (R137, R155). -/
def blockOf (p : List Word) (blk : Nat) : List Word := (p.drop (16 * blk)).take 16

/-- (WB, WLEN, BITLEN) is not consistent (R133): the bit length is no multiple of 8, the word count is not the one it needs, or
the last word, where it holds a value, has stray bits. -/
def lengthsInconsistent (ord : ByteOrder) (s : State) : Bool :=
  !(decide (s.bitlen.toNat % 8 = 0)) || !(decide (s.wlen.toNat = wordsForBits s.bitlen.toNat))
    || (match bufGet s.wb (s.wlen.toNat - 1) with
        | some last => strayBits ord s.bitlen.toNat last
        | none => false)

/-- A core command: `WB <- core(WB, BITLEN)`, the lengths set to the digest's (R140, R160). -/
def coreCommand (ord : ByteOrder) (core : List Word → Nat → List Word) (bits : Nat) (s : State) :
    Host.Outcome State Fault Refusal :=
  if lengthsInconsistent ord s then .fault .inconsistentLength
  else if capFits s.wlen.toNat s.cfg.wcap && capFits (padLength s.bitlen.toNat) s.cfg.wcap then
    match wordArray s with
    | some x => .next (finish (putDigest (core x s.bitlen.toNat) bits s))
    | none => .fault .readUnwritten
  else .fault .capacity

end Sys2Proof.Machine
end

