-- ==== Sys2Proof/Machine/Sha1.lean ====
section
/-! DEFINITION. The SHA-1 engine (42_sha1.md). -/

namespace Sys2Proof.Machine

/-- Init (R151). -/
def sha1Init : Regs :=
  { a := 0x67452301, b := 0xEFCDAB89, c := 0x98BADCFE, d := 0x10325476, e := 0xC3D2E1F0 }

/-- The next schedule word, from the words so far, newest first: `rol32(W[j-3] ^ W[j-8] ^ W[j-14] ^ W[j-16], 1)` (R155). -/
def sha1Next (acc : List Word) : Word :=
  rol32 (acc.getD 2 0 ^^^ acc.getD 7 0 ^^^ acc.getD 13 0 ^^^ acc.getD 15 0) 1

/-- `n` more schedule words, newest first (R155). -/
def sha1Extend : Nat → List Word → List Word
  | 0, acc => acc
  | n + 1, acc => sha1Extend n (sha1Next acc :: acc)

/-- The message schedule W[0..79] of a block's 16 words (R155). -/
def sha1Schedule (blk : List Word) : List Word := (sha1Extend 64 blk.reverse).reverse

/-- The round function of step `j` (R156). -/
def sha1Func (j : Nat) (b c d : Word) : Word :=
  if j ≤ 19 then (b &&& c) ||| (~~~b &&& d)
  else if j ≤ 39 then b ^^^ c ^^^ d
  else if j ≤ 59 then (b &&& c) ||| (b &&& d) ||| (c &&& d)
  else b ^^^ c ^^^ d

/-- The round constant of step `j` (R156). -/
def sha1Const (j : Nat) : Word :=
  if j ≤ 19 then 0x5A827999
  else if j ≤ 39 then 0x6ED9EBA1
  else if j ≤ 59 then 0x8F1BBCDC
  else 0xCA62C1D6

/-- One step with schedule word `wj` (R157). -/
def sha1Step (wj : Word) (r : Regs) (j : Nat) : Regs :=
  { a := add32 (add32 (rol32 r.a 5) (sha1Func j r.b r.c r.d)) (add32 (add32 r.e wj) (sha1Const j))
    b := r.a
    c := rol32 r.b 30
    d := r.c
    e := r.d }

/-- The feed-forward (R158). -/
def sha1Feed (start r : Regs) : Regs :=
  { a := add32 r.a start.a, b := add32 r.b start.b, c := add32 r.c start.c, d := add32 r.d start.d,
    e := add32 r.e start.e }

/-- Steps 0 to 79 on a schedule (R158). -/
def sha1Steps (w : List Word) (r : Regs) : Regs :=
  (List.range 80).foldl (fun r j => sha1Step (w.getD j 0) r j) r

/-- One block (R158). -/
def sha1Block (blk : List Word) (r : Regs) : Regs := sha1Feed r (sha1Steps (sha1Schedule blk) r)

/-- The registers after blocks 0 to n - 1 of a padded stream (R158). -/
def sha1Blocks (p : List Word) (n : Nat) (r : Regs) : Regs :=
  (List.range n).foldl (fun r blk => sha1Block (blockOf p blk) r) r

/-- Extract (R159). -/
def sha1Extract (r : Regs) : List Word := [r.a, r.b, r.c, r.d, r.e]

/-- `sha1_core(x, len)` (R160). -/
def sha1Core (x : List Word) (len : Nat) : List Word :=
  sha1Extract (sha1Blocks (padStream .be x len) (blockCount len) sha1Init)

/-- SHA1CORE (R160). -/
def execSha1core (s : State) : Host.Outcome State Fault Refusal := coreCommand .be sha1Core 160 s

end Sys2Proof.Machine
end

