-- ==== Sys2Proof/Machine/Hmac.lean ====
section
/-! DEFINITION. The HMAC-SHA1 controller (43_hmac_sha1.md). -/

namespace Sys2Proof.Machine

/-- The key words before zero padding: the packed key, or its digest when it packs to more than 16 words (R171). -/
def hmacKeyWords (key : List Word) : List Word :=
  if 16 < (pack .be key).length then sha1Core (pack .be key) (8 * key.length) else pack .be key

/-- BKEY: the key words, zero-padded to 16 (R171). -/
def hmacKey (key : List Word) : List Word :=
  hmacKeyWords key ++ List.replicate (16 - (hmacKeyWords key).length) 0

/-- A pad array: every key word XORed with a repeated constant (R172). -/
def hmacPad (mask : Word) (key : List Word) : List Word := (hmacKey key).map (fun w => w ^^^ mask)

/-- IPAD (R172). -/
def hmacIpad (key : List Word) : List Word := hmacPad 0x36363636 key

/-- OPAD (R172). -/
def hmacOpad (key : List Word) : List Word := hmacPad 0x5C5C5C5C key

/-- INNER (R173). -/
def hmacInner (key data : List Word) : List Word :=
  sha1Core (hmacIpad key ++ pack .be data) (512 + 8 * data.length)

/-- `hmac_sha1(key, data)` (R174). -/
def hmacSha1 (key data : List Word) : List Word := sha1Core (hmacOpad key ++ hmacInner key data) 672

/-- The key's share of the requirements: its length, and the room and bit length of a long key's own hash (R176, R177). -/
def hmacKeyFits (s : State) : Bool :=
  capFits s.klen.toNat s.cfg.kcap
    && (decide (s.klen.toNat ≤ 64)
        || (decide (8 * s.klen.toNat < 2 ^ 32) && capFits (padLength (8 * s.klen.toNat)) s.cfg.wcap))

/-- The data's share of the requirements (R176, R177). -/
def hmacDataFits (s : State) : Bool :=
  capFits s.mlen.toNat s.cfg.mcap && decide (512 + 8 * s.mlen.toNat < 2 ^ 32)
    && capFits (padLength (512 + 8 * s.mlen.toNat)) s.cfg.wcap

/-- HMACSHA1 (R177). -/
def execHmacsha1 (s : State) : Host.Outcome State Fault Refusal :=
  if hmacKeyFits s && hmacDataFits s then
    match textK s, textM s with
    | some key, some data => .next (finish (putDigest (hmacSha1 key data) 160 s))
    | _, _ => .fault .readUnwritten
  else .fault .capacity

end Sys2Proof.Machine
end

