-- ==== Sys2Proof/Machine/Md5.lean ====
section
/-! DEFINITION. The MD5 engine (41_md5.md). -/

namespace Sys2Proof.Machine

/-- The four nonlinear functions, by round (R136). -/
inductive Md5Fn where
  | f
  | g
  | h
  | i
deriving DecidableEq, Repr

/-- One row of the step table: the function, the message word k(t), the rotation S[t], the constant T[t] (R132). -/
structure Md5Row where
  fn : Md5Fn
  k : Nat
  rot : Nat
  t : Word
deriving DecidableEq, Repr

/-- Steps 0 to 15 (R132). -/
def md5Round1 : List Md5Row :=
  [ { fn := .f, k := 0, rot := 7, t := 0xD76AA478 },
    { fn := .f, k := 1, rot := 12, t := 0xE8C7B756 },
    { fn := .f, k := 2, rot := 17, t := 0x242070DB },
    { fn := .f, k := 3, rot := 22, t := 0xC1BDCEEE },
    { fn := .f, k := 4, rot := 7, t := 0xF57C0FAF },
    { fn := .f, k := 5, rot := 12, t := 0x4787C62A },
    { fn := .f, k := 6, rot := 17, t := 0xA8304613 },
    { fn := .f, k := 7, rot := 22, t := 0xFD469501 },
    { fn := .f, k := 8, rot := 7, t := 0x698098D8 },
    { fn := .f, k := 9, rot := 12, t := 0x8B44F7AF },
    { fn := .f, k := 10, rot := 17, t := 0xFFFF5BB1 },
    { fn := .f, k := 11, rot := 22, t := 0x895CD7BE },
    { fn := .f, k := 12, rot := 7, t := 0x6B901122 },
    { fn := .f, k := 13, rot := 12, t := 0xFD987193 },
    { fn := .f, k := 14, rot := 17, t := 0xA679438E },
    { fn := .f, k := 15, rot := 22, t := 0x49B40821 } ]

/-- Steps 16 to 31 (R132). -/
def md5Round2 : List Md5Row :=
  [ { fn := .g, k := 1, rot := 5, t := 0xF61E2562 },
    { fn := .g, k := 6, rot := 9, t := 0xC040B340 },
    { fn := .g, k := 11, rot := 14, t := 0x265E5A51 },
    { fn := .g, k := 0, rot := 20, t := 0xE9B6C7AA },
    { fn := .g, k := 5, rot := 5, t := 0xD62F105D },
    { fn := .g, k := 10, rot := 9, t := 0x02441453 },
    { fn := .g, k := 15, rot := 14, t := 0xD8A1E681 },
    { fn := .g, k := 4, rot := 20, t := 0xE7D3FBC8 },
    { fn := .g, k := 9, rot := 5, t := 0x21E1CDE6 },
    { fn := .g, k := 14, rot := 9, t := 0xC33707D6 },
    { fn := .g, k := 3, rot := 14, t := 0xF4D50D87 },
    { fn := .g, k := 8, rot := 20, t := 0x455A14ED },
    { fn := .g, k := 13, rot := 5, t := 0xA9E3E905 },
    { fn := .g, k := 2, rot := 9, t := 0xFCEFA3F8 },
    { fn := .g, k := 7, rot := 14, t := 0x676F02D9 },
    { fn := .g, k := 12, rot := 20, t := 0x8D2A4C8A } ]

/-- Steps 32 to 47 (R132). -/
def md5Round3 : List Md5Row :=
  [ { fn := .h, k := 5, rot := 4, t := 0xFFFA3942 },
    { fn := .h, k := 8, rot := 11, t := 0x8771F681 },
    { fn := .h, k := 11, rot := 16, t := 0x6D9D6122 },
    { fn := .h, k := 14, rot := 23, t := 0xFDE5380C },
    { fn := .h, k := 1, rot := 4, t := 0xA4BEEA44 },
    { fn := .h, k := 4, rot := 11, t := 0x4BDECFA9 },
    { fn := .h, k := 7, rot := 16, t := 0xF6BB4B60 },
    { fn := .h, k := 10, rot := 23, t := 0xBEBFBC70 },
    { fn := .h, k := 13, rot := 4, t := 0x289B7EC6 },
    { fn := .h, k := 0, rot := 11, t := 0xEAA127FA },
    { fn := .h, k := 3, rot := 16, t := 0xD4EF3085 },
    { fn := .h, k := 6, rot := 23, t := 0x04881D05 },
    { fn := .h, k := 9, rot := 4, t := 0xD9D4D039 },
    { fn := .h, k := 12, rot := 11, t := 0xE6DB99E5 },
    { fn := .h, k := 15, rot := 16, t := 0x1FA27CF8 },
    { fn := .h, k := 2, rot := 23, t := 0xC4AC5665 } ]

/-- Steps 48 to 63 (R132). -/
def md5Round4 : List Md5Row :=
  [ { fn := .i, k := 0, rot := 6, t := 0xF4292244 },
    { fn := .i, k := 7, rot := 10, t := 0x432AFF97 },
    { fn := .i, k := 14, rot := 15, t := 0xAB9423A7 },
    { fn := .i, k := 5, rot := 21, t := 0xFC93A039 },
    { fn := .i, k := 12, rot := 6, t := 0x655B59C3 },
    { fn := .i, k := 3, rot := 10, t := 0x8F0CCC92 },
    { fn := .i, k := 10, rot := 15, t := 0xFFEFF47D },
    { fn := .i, k := 1, rot := 21, t := 0x85845DD1 },
    { fn := .i, k := 8, rot := 6, t := 0x6FA87E4F },
    { fn := .i, k := 15, rot := 10, t := 0xFE2CE6E0 },
    { fn := .i, k := 6, rot := 15, t := 0xA3014314 },
    { fn := .i, k := 13, rot := 21, t := 0x4E0811A1 },
    { fn := .i, k := 4, rot := 6, t := 0xF7537E82 },
    { fn := .i, k := 11, rot := 10, t := 0xBD3AF235 },
    { fn := .i, k := 2, rot := 15, t := 0x2AD7D2BB },
    { fn := .i, k := 9, rot := 21, t := 0xEB86D391 } ]

/-- The 64 steps in order (R132). -/
def md5Table : List Md5Row := md5Round1 ++ md5Round2 ++ md5Round3 ++ md5Round4

/-- F, G, H, I (R136). -/
def md5Func (fn : Md5Fn) (b c d : Word) : Word :=
  match fn with
  | .f => (b &&& c) ||| (~~~b &&& d)
  | .g => (b &&& d) ||| (c &&& ~~~d)
  | .h => b ^^^ c ^^^ d
  | .i => c ^^^ (b ||| ~~~d)

/-- Init (R131). E is not MD5's (10_state.md R24). -/
def md5Init (r : Regs) : Regs :=
  { r with a := 0x67452301, b := 0xEFCDAB89, c := 0x98BADCFE, d := 0x10325476 }

/-- One step on the block's words (R137). -/
def md5Step (blk : List Word) (r : Regs) (row : Md5Row) : Regs :=
  { r with
    a := r.d
    b := add32 (rol32 (add32 (add32 r.a (md5Func row.fn r.b r.c r.d)) (add32 (blk.getD row.k 0) row.t)) row.rot) r.b
    c := r.b
    d := r.c }

/-- The feed-forward: the block-start values added to the registers (R138). -/
def md5Feed (start r : Regs) : Regs :=
  { r with a := add32 r.a start.a, b := add32 r.b start.b, c := add32 r.c start.c, d := add32 r.d start.d }

/-- One block (R138). -/
def md5Block (blk : List Word) (r : Regs) : Regs := md5Feed r (md5Table.foldl (md5Step blk) r)

/-- The registers after blocks 0 to n - 1 of a padded stream (R138). -/
def md5Blocks (p : List Word) (n : Nat) (r : Regs) : Regs :=
  (List.range n).foldl (fun r blk => md5Block (blockOf p blk) r) r

/-- Extract (R139). -/
def md5Extract (r : Regs) : List Word := [r.a, r.b, r.c, r.d]

/-- `md5_core(x, len)` (R140). -/
def md5Core (x : List Word) (len : Nat) : List Word :=
  md5Extract (md5Blocks (padStream .le x len) (blockCount len) (md5Init Regs.zero))

/-- MD5CORE (R140). -/
def execMd5core (s : State) : Host.Outcome State Fault Refusal := coreCommand .le md5Core 128 s

end Sys2Proof.Machine
end

