-- ==== Sys2Proof/Machine/Render.lean ====
section
/-! DEFINITION. HEXLE, HEXBE, B64BE (40_word_utilities.md R110 to R114). -/

namespace Sys2Proof.Machine

/-- HEXDIGIT (R112), for a value below 16. -/
def hexDigit (v : Byte) : Byte := if v.toNat ≤ 9 then 0x30 + v else 0x61 + (v - 10)

/-- The two digits of a byte, high nibble first (R110, 90_conflicts.md C2). -/
def hexByte (b : Byte) : List Byte := [hexDigit (b >>> 4), hexDigit (b &&& 0xF)]

/-- hexLE and hexBE (R110, R111). -/
def hex (ord : ByteOrder) (ws : List Word) : List Byte := (unpack ord ws).flatMap hexByte

/-- B64CHAR (R114). -/
def b64Char (v : BitVec 6) : Byte :=
  if v.toNat ≤ 25 then 0x41 + v.setWidth 8
  else if v.toNat ≤ 51 then 0x61 + (v.setWidth 8 - 26)
  else if v.toNat ≤ 61 then 0x30 + (v.setWidth 8 - 52)
  else if v.toNat = 62 then 0x2B
  else 0x2F

/-- The character `=` (R113). -/
def padChar : Byte := 0x3D

/-- The 24 bits of a group (R113). -/
def b64Bits (b0 b1 b2 : Byte) : BitVec 24 :=
  (b0.setWidth 24 <<< 16) ||| (b1.setWidth 24 <<< 8) ||| b2.setWidth 24

/-- Base64 of a byte stream: four symbols for each group of three bytes, a short last group zero-padded and `=`-terminated
(R113). -/
def b64 : List Byte → List Byte
  | [] => []
  | [b0] =>
    [b64Char ((b64Bits b0 0 0).extractLsb' 18 6), b64Char ((b64Bits b0 0 0).extractLsb' 12 6), padChar, padChar]
  | [b0, b1] =>
    [b64Char ((b64Bits b0 b1 0).extractLsb' 18 6), b64Char ((b64Bits b0 b1 0).extractLsb' 12 6),
      b64Char ((b64Bits b0 b1 0).extractLsb' 6 6), padChar]
  | b0 :: b1 :: b2 :: rest =>
    b64Char ((b64Bits b0 b1 b2).extractLsb' 18 6) :: b64Char ((b64Bits b0 b1 b2).extractLsb' 12 6)
      :: b64Char ((b64Bits b0 b1 b2).extractLsb' 6 6) :: b64Char ((b64Bits b0 b1 b2).extractLsb' 0 6) :: b64 rest

/-- b64BE (R113): over the big-endian byte stream. -/
def b64be (ws : List Word) : List Byte := b64 (unpack .be ws)

/-- The bytes a hex command emits (R110). -/
def hexSize (n : Nat) : Nat := 8 * n

/-- The bytes B64BE emits: 4*ceil(4n/3) (R113). -/
def b64Size (n : Nat) : Nat := 4 * ((4 * n + 2) / 3)

/-- HEXLE (R110). -/
def execHexle (s : State) : Host.Outcome State Fault Refusal := renderCommand (hex .le) hexSize s

/-- HEXBE (R111). -/
def execHexbe (s : State) : Host.Outcome State Fault Refusal := renderCommand (hex .be) hexSize s

/-- B64BE (R113). -/
def execB64be (s : State) : Host.Outcome State Fault Refusal := renderCommand b64be b64Size s

end Sys2Proof.Machine
end

