-- ==== Sys2Proof/Machine/Scalar.lean ====
section
/-! DEFINITION. ADD32 and ROL32 (40_word_utilities.md R101, R103). -/

namespace Sys2Proof.Machine

/-- `R <- f(X, Y)`, which requires that X and Y hold values: they always do (log entry 3). -/
def scalarCommand (f : Word → Word → Word) (s : State) : Host.Outcome State Fault Refusal :=
  .next (finish (putResult (f s.x s.y) s))

/-- ADD32 (R101). -/
def execAdd32 (s : State) : Host.Outcome State Fault Refusal := scalarCommand add32 s

/-- The count in Y is one ROL32 does not accept (R103). -/
def rotateCountBad (s : State) : Bool := decide (31 < s.y.toNat)

/-- ROL32 (R103). -/
def execRol32 (s : State) : Host.Outcome State Fault Refusal :=
  if rotateCountBad s then .fault .badRotateCount else scalarCommand (fun x y => rol32 x y.toNat) s

end Sys2Proof.Machine
end

