-- ==== Sys2Proof/Machine/Dispatch.lean ====
section
/-! DEFINITION. The meaning of each command (30_encoding.md R72), one arm per constructor. -/

namespace Sys2Proof.Machine

def exec (i : Instr) (s : State) : Host.Outcome State Fault Refusal :=
  match i with
  | .add32 => Sys2Proof.Machine.execAdd32 s
  | .rol32 => Sys2Proof.Machine.execRol32 s
  | .packle => Sys2Proof.Machine.execPackle s
  | .packbe => Sys2Proof.Machine.execPackbe s
  | .unpackle => Sys2Proof.Machine.execUnpackle s
  | .unpackbe => Sys2Proof.Machine.execUnpackbe s
  | .hexle => Sys2Proof.Machine.execHexle s
  | .hexbe => Sys2Proof.Machine.execHexbe s
  | .b64be => Sys2Proof.Machine.execB64be s
  | .md5core => Sys2Proof.Machine.execMd5core s
  | .sha1core => Sys2Proof.Machine.execSha1core s
  | .hmacsha1 => Sys2Proof.Machine.execHmacsha1 s

end Sys2Proof.Machine
end

