-- ==== Sys2Proof/Machine/HostPort.lean ====
section
/-! DEFINITION. What one event from outside does (20_memory.md R52, R60; 30_encoding.md R70, R74; 70_reset_and_hazards.md R220), and
the fault state (60_exceptions.md R202, R206). -/

namespace Sys2Proof.Machine

/-- A write to CMD: the word is decoded and its command runs to completion; a reserved word is a fault (R70, R74). -/
def issue (c : Word) (s : State) : Host.Outcome State Fault Refusal :=
  match decode c with
  | .command i => exec i (takeCommand c s)
  | .reserved _ => .fault .illegalCommand

/-- A host write: to CMD a command, elsewhere a store and nothing more (R52, R59). -/
def hostWrite (space : Space) (index : Nat) (v : Word) (s : State) : Host.Outcome State Fault Refusal :=
  if space = .reg ∧ index = 0 then issue v s
  else
    match writeElem space index v s with
    | some t => .next t
    | none => .fault .hostAccess

/-- One event. -/
def serve (e : HostEvent) (s : State) : Host.Outcome State Fault Refusal :=
  match e with
  | .read space index => hostRead space index s
  | .write space index v => hostWrite space index v s
  | .busRead addr nbytes =>
    match busTarget s.cfg addr nbytes with
    | .element space index => hostRead space index s
    | .malformed => .fault .hostAccess
    | .foreign => .refused .platformAddress
  | .busWrite addr nbytes v =>
    match busTarget s.cfg addr nbytes with
    | .element space index => hostWrite space index v s
    | .malformed => .fault .hostAccess
    | .foreign => .refused .platformAddress
  | .reset => .next (applyReset s)

/-- The state with the first pending event taken. -/
def dropEvent (rest : List HostEvent) (s : State) : State := { s with pending := rest }

/-- An event whose requires clause is false takes the machine from `s` to a fault state (60_exceptions.md R202). -/
def settle (s : State) : Host.Outcome State Fault Refusal → Host.Outcome State Fault Refusal
  | .next t => .next t
  | .fault why => .next (enterFault why s)
  | .refused why => .refused why

/-- The host's next event, in no fault state; with none the engine stays as it is (60_exceptions.md R209). -/
def serveRunning (s : State) : Host.Outcome State Fault Refusal :=
  match s.pending with
  | [] => .next s
  | e :: rest => settle (dropEvent rest s) (serve e (dropEvent rest s))

/-- The host's next event, in a fault state: reset clears it (70_reset_and_hazards.md R220) and nothing else does; an access changes
nothing and returns nothing; a fault state is never a final state of a run (60_exceptions.md R202, R206; log entry 12). -/
def serveFaulted (why : Fault) (s : State) : Host.Outcome State Fault Refusal :=
  match s.pending with
  | [] => .fault why
  | .reset :: rest => .next (applyReset (dropEvent rest s))
  | _ :: rest => .next (dropEvent rest s)

/-- The host's next event. -/
def serveNext (s : State) : Host.Outcome State Fault Refusal :=
  match s.fault with
  | none => serveRunning s
  | some why => serveFaulted why s

/-- The state in which the host's next event is the write of `c` to CMD, and the engine serves it: it is in no fault state. -/
def pushCommand (c : Word) (s : State) : State := { s with pending := .write .reg 0 c :: s.pending, fault := none }

end Sys2Proof.Machine
end

