-- ==== Sys2Proof/Machine/EntryPoints.lean ====
section
/-! DEFINITION. The composite entry points (44_entry_points.md, 30_encoding.md R78) and the assembler lines (R76, R77). -/

namespace Sys2Proof.Machine

/-- The commands an entry point stands for (R78). -/
def expand : EntryPoint → List Instr
  | .md5Hex => [.packle, .md5core, .hexle]
  | .md5Raw => [.packle, .md5core, .unpackle]
  | .sha1Hex => [.packbe, .sha1core, .hexbe]
  | .sha1B64 => [.packbe, .sha1core, .b64be]
  | .sha1Raw => [.packbe, .sha1core, .unpackbe]
  | .hmacHex => [.hmacsha1, .hexbe]
  | .hmacB64 => [.hmacsha1, .b64be]
  | .hmacRaw => [.hmacsha1, .unpackbe]

/-- Commands one after the other, up to the first that does not end in a next state. -/
def execAll : List Instr → State → Host.Outcome State Fault Refusal
  | [], s => .next s
  | i :: is, s =>
    match exec i s with
    | .next t => execAll is t
    | .fault r => .fault r
    | .refused r => .refused r

/-- An entry point's meaning: exactly its expansion's (R78). -/
def runEntry (e : EntryPoint) (s : State) : Host.Outcome State Fault Refusal := execAll (expand e) s

/-- The CMD write of a command (R76). -/
def commandWrite (i : Instr) : HostEvent := .write .reg 0 (encode i)

/-- Element writes at the indices `start`, `start + 1`, and on. -/
def elementWrites (space : Space) : Nat → List Word → List HostEvent
  | _, [] => []
  | start, v :: vs => .write space start v :: elementWrites space (start + 1) vs

/-- A write to a register of the page. -/
def registerWrite (name : RegName) (v : Word) : HostEvent := .write .reg (regIndex name) v

/-- The value a list of `n` elements gives its length register: `n`; open where `n` does not fit the register (log entry 20). -/
def listCount (name : RegName) (n : Nat) : Word :=
  if n < 2 ^ 32 then BitVec.ofNat 32 n else Config.overlongList (regIndex name) n

/-- The host accesses a line stands for (R76 to R78): `.chars` writes the characters and then the length, `.words` the words and
WLEN, `.expect` nothing. -/
def assembleLine : AsmLine → List HostEvent
  | .command i => [commandWrite i]
  | .pseudo e => (expand e).map commandWrite
  | .chars .m cs => elementWrites .m 0 cs ++ [registerWrite .mlen (listCount .mlen cs.length)]
  | .chars .k cs => elementWrites .k 0 cs ++ [registerWrite .klen (listCount .klen cs.length)]
  | .words ws => elementWrites .wb 0 ws ++ [registerWrite .wlen (listCount .wlen ws.length)]
  | .set name v => [registerWrite name v]
  | .expect => []

/-- A program's accesses, top to bottom (R76). -/
def assemble (lines : List AsmLine) : List HostEvent := lines.flatMap assembleLine

/-- A program given to the host to run. -/
def loadProgram (lines : List AsmLine) (s : State) : State := { s with pending := s.pending ++ assemble lines }

end Sys2Proof.Machine
end

