-- ==== Sys2Proof/Machine/Sequencer.lean ====
section
/-! DEFINITION. The sequencer of 10_state.md R28, tick by tick, on the internal registers and the padded stream in WB: INIT, PAD,
COMPRESS with BLK and STEP, EXTRACT, IDLE (41_md5.md R130; 42_sha1.md R150), and on top of it the HMAC controller with its key and pad arrays (43_hmac_sha1.md
R176). A command is one atomic transition and its meaning
does not use this file (R28 lets a model run it as one function application); that the two agree is a statement for the provers. -/

namespace Sys2Proof.Machine

/-- The two units the sequencer drives. -/
inductive HashUnit where
  | md5
  | sha1
deriving DecidableEq, Repr

/-- The sequencer's state: PHASE, the internal registers, and the words of WB in use. -/
structure Seq where
  phase : Phase
  int : Internals
  wb : List Word
deriving DecidableEq, Repr

/-- The byte order of a unit's words (20_memory.md R54). -/
def unitOrder : HashUnit → ByteOrder
  | .md5 => .le
  | .sha1 => .be

/-- The steps of a block: 64 or 80 (R28). -/
def unitSteps : HashUnit → Nat
  | .md5 => 64
  | .sha1 => 80

/-- Init (41_md5.md R131, 42_sha1.md R151). -/
def unitInit (u : HashUnit) (r : Regs) : Regs :=
  match u with
  | .md5 => md5Init r
  | .sha1 => sha1Init

/-- The block-start latches: MD5 uses AA..DD (10_state.md R24, R25). -/
def unitLatch (u : HashUnit) (digest latch : Regs) : Regs :=
  match u with
  | .md5 => { latch with a := digest.a, b := digest.b, c := digest.c, d := digest.d }
  | .sha1 => digest

/-- The schedule memory at the start of a block: SHA-1 fills it, MD5 has none (10_state.md R26). -/
def unitSchedule (u : HashUnit) (blk : List Word) (w : Vector Word 80) : Vector Word 80 :=
  match u with
  | .md5 => w
  | .sha1 => Vector.ofFn (fun j => (sha1Schedule blk).getD j.val 0)

/-- A row that no step below 64 meets. -/
def md5NoRow : Md5Row := { fn := .f, k := 0, rot := 0, t := 0 }

/-- One step (41_md5.md R137, 42_sha1.md R157). -/
def unitStep (u : HashUnit) (blk : List Word) (w : Vector Word 80) (j : Nat) (r : Regs) : Regs :=
  match u with
  | .md5 => md5Step blk r (md5Table.getD j md5NoRow)
  | .sha1 => sha1Step (w.toList.getD j 0) r j

/-- The feed-forward (41_md5.md R138, 42_sha1.md R158). -/
def unitFeed (u : HashUnit) (start r : Regs) : Regs :=
  match u with
  | .md5 => md5Feed start r
  | .sha1 => sha1Feed start r

/-- The digest words (41_md5.md R139, 42_sha1.md R159). -/
def unitExtract (u : HashUnit) (r : Regs) : List Word :=
  match u with
  | .md5 => md5Extract r
  | .sha1 => sha1Extract r

/-- What a unit computes as one function. -/
def unitCore (u : HashUnit) (x : List Word) (len : Nat) : List Word :=
  match u with
  | .md5 => md5Core x len
  | .sha1 => sha1Core x len

/-- At step 0 of a block the latches and the schedule are written. -/
def seqOpenBlock (u : HashUnit) (blk : List Word) (i : Internals) : Internals :=
  if i.step = 0 then
    { i with latch := unitLatch u i.digest i.latch, w := unitSchedule u blk i.w }
  else i

/-- After a step: the next step, or after the last one the feed-forward and the next block (R28). -/
def seqCloseStep (u : HashUnit) (i : Internals) (r : Regs) : Internals :=
  if i.step.toNat + 1 = unitSteps u then
    { i with digest := unitFeed u i.latch r, blk := i.blk + 1, step := 0 }
  else { i with digest := r, step := i.step + 1 }

/-- One step of COMPRESS on block BLK of the stream. -/
def seqCompress (u : HashUnit) (blk : List Word) (i : Internals) : Internals :=
  seqCloseStep u (seqOpenBlock u blk i)
    (unitStep u blk (seqOpenBlock u blk i).w i.step.toNat (seqOpenBlock u blk i).digest)

/-- One tick of the sequencer on a message of `len` bits (R28). -/
def seqTick (u : HashUnit) (len : Nat) (q : Seq) : Seq :=
  match q.phase with
  | .idle => q
  | .init => { q with phase := .pad, int := { q.int with digest := unitInit u q.int.digest } }
  | .pad =>
    { phase := .compress, wb := padStream (unitOrder u) q.wb len, int := { q.int with blk := 0, step := 0 } }
  | .compress =>
    { q with
      phase := if (seqCompress u (blockOf q.wb q.int.blk) q.int).blk = blockCount len then .extract else .compress
      int := seqCompress u (blockOf q.wb q.int.blk) q.int }
  | .extract => { q with phase := .idle, wb := unitExtract u q.int.digest }

/-- `n` ticks. -/
def seqRun (u : HashUnit) (len : Nat) : Nat → Seq → Seq
  | 0, q => q
  | n + 1, q => seqRun u len n (seqTick u len q)

/-- The start of a core command on the word array `x`, with whatever an earlier command left in the internal registers. -/
def seqStart (int : Internals) (x : List Word) : Seq := { phase := .init, int := int, wb := x }

/-- The ticks of a message of `len` bits: INIT, PAD, every step of every block, EXTRACT. -/
def seqTicks (u : HashUnit) (len : Nat) : Nat := 2 + unitSteps u * blockCount len + 1

/-- A whole core command on the sequencer, from any leftover internal state. -/
def seqWhole (u : HashUnit) (int : Internals) (x : List Word) (len : Nat) : Seq :=
  seqRun u len (seqTicks u len) (seqStart int x)

/-- Key normalisation: the packed key in WB, hashed there when it has more than 16 words, then copied to BKEY with zeros above it
(43_hmac_sha1.md R171). -/
def ctlKeyWords (key : List Word) (int : Internals) : Seq :=
  if 16 < (pack .be key).length then seqWhole .sha1 int (pack .be key) (8 * key.length)
  else { phase := .idle, int := int, wb := pack .be key }

/-- BKEY takes the key words (R171). -/
def ctlLoadKey (q : Seq) : Internals := { q.int with bkey := Vector.ofFn (fun i => q.wb.getD i.val 0) }

/-- IPAD and OPAD from BKEY (R172). -/
def ctlLoadPads (i : Internals) : Internals :=
  { i with ipad := i.bkey.map (fun w => w ^^^ 0x36363636), opad := i.bkey.map (fun w => w ^^^ 0x5C5C5C5C) }

/-- INNER takes the inner digest (R173). -/
def ctlLoadInner (q : Seq) : Internals := { q.int with inner := Vector.ofFn (fun i => q.wb.getD i.val 0) }

/-- The inner hash, run in WB (R173, R176). -/
def ctlInner (data : List Word) (i : Internals) : Internals :=
  ctlLoadInner (seqWhole .sha1 i (i.ipad.toList ++ pack .be data) (512 + 8 * data.length))

/-- The outer hash, run in WB (R174, R176). -/
def ctlOuter (i : Internals) : Seq := seqWhole .sha1 i (i.opad.toList ++ i.inner.toList) 672

/-- The controller's phases in order (R170), from any leftover internal state. -/
def ctlRun (key data : List Word) (int : Internals) : Seq :=
  ctlOuter (ctlInner data (ctlLoadPads (ctlLoadKey (ctlKeyWords key int))))

end Sys2Proof.Machine
end

