-- ==== Sys2Proof/Safety.lean ====
section
/-! DEFINITION. What holds in every state between two steps, what a safe run is, and the words frames are written in. -/

namespace Sys2Proof.Machine

/-- Every element of a text buffer fits CHARW bits (00_scope.md R8, 20_memory.md R52). -/
def charsFit (cfg : Config) (b : Buffer Word) : Prop := ∀ e ∈ b, e.2.toNat < 2 ^ cfg.charw

/-- Every element that holds a value has an index the buffer has (20_memory.md R50, R63). -/
def indicesFit {α : Type} (cap : Option Nat) (b : Buffer α) : Prop := ∀ e ∈ b, indexFits e.1 cap = true

/-- The machine's invariant. -/
structure EngineInv (s : State) : Prop where
  /-- the parameters are ones R5 allows -/
  cfgOk : s.cfg.wf = true
  /-- the buffers are in canonical form -/
  memOk : Memory.wf s
  /-- the characters of M and K have CHARW bits -/
  charsM : charsFit s.cfg s.m
  charsK : charsFit s.cfg s.k
  /-- no element stands above a capacity -/
  roomM : indicesFit s.cfg.mcap s.m
  roomK : indicesFit s.cfg.kcap s.k
  roomWb : indicesFit s.cfg.wcap s.wb
  roomO : indicesFit (α := Byte) s.cfg.ocap s.o
  /-- but in a fault state, of which nothing is claimed (60_exceptions.md R202), every output byte in use holds a value -/
  outputHeld : s.fault = none → ∀ j, j < s.olen.toNat → (bufGet (α := Byte) s.o j).isSome = true
  /-- and no command is pending between steps (30_encoding.md R70) and the sequencer is idle (10_state.md R28) -/
  cmdNone : s.fault = none → s.cmd = none
  phaseIdle : s.fault = none → s.phase = .idle

/-- `n` steps from `s` meet no refusal and no fault state. -/
def SafeFor (n : Nat) (s : State) : Prop := ∀ k, k ≤ n → ∃ t, Sys2Proof.core.run k s = .next t ∧ t.fault = none

/-- The host's side, the parameters and the fault reason are as before. -/
def SameHost (s t : State) : Prop :=
  t.cfg = s.cfg ∧ t.pending = s.pending ∧ t.reads = s.reads ∧ t.fault = s.fault

/-- X and Y are as before. -/
def SameScalars (s t : State) : Prop := t.x = s.x ∧ t.y = s.y

/-- R is as before. -/
def SameResult (s t : State) : Prop := t.r = s.r

/-- M, K and their lengths are as before: every element, held or not. -/
def SameTexts (s t : State) : Prop := t.m = s.m ∧ t.k = s.k ∧ t.mlen = s.mlen ∧ t.klen = s.klen

/-- WB, WLEN and BITLEN are as before, and with them the mark that a command wrote WB. -/
def SameWords (s t : State) : Prop := t.wb = s.wb ∧ t.wlen = s.wlen ∧ t.bitlen = s.bitlen ∧ t.wbCmd = s.wbCmd

/-- O and OLEN are as before. -/
def SameOutput (s t : State) : Prop := t.o = s.o ∧ t.olen = s.olen

/-- The engine rests: no command pending (30_encoding.md R70), PHASE is IDLE (10_state.md R28). -/
def AtRest (t : State) : Prop := t.cmd = none ∧ t.phase = .idle

/-- A length is within a capacity, which may be unbounded (00_scope.md R5). -/
def WithinCap (n : Nat) (cap : Option Nat) : Prop := ∀ c, cap = some c → n ≤ c

/-- The first `n` elements of a buffer hold values (10_state.md R31). -/
def HeldUpTo {α : Type} (b : Buffer α) (n : Nat) : Prop := ∀ k, k < n → (bufGet b k).isSome = true

/-- No element at or above `n` holds a value (10_state.md R31). -/
def NoneFrom {α : Type} (b : Buffer α) (n : Nat) : Prop := ∀ k, n ≤ k → bufGet b k = none

/-- Every element at or above `n` is as before (30_encoding.md R73). -/
def SameFrom {α : Type} (b c : Buffer α) (n : Nat) : Prop := ∀ k, n ≤ k → bufGet c k = bufGet b k

/-- The first `n` elements are the same. -/
def SameBelow {α : Type} (b c : Buffer α) (n : Nat) : Prop := ∀ k, k < n → bufGet c k = bufGet b k

/-- The requires clause of each command, as its rule gives it: R101, R103, R104, R105, R107, R108, R110, R111, R113, R140, R160,
R177. That X and Y hold values is no condition here: they always do (log entry 3). -/
def Requires (i : Instr) (s : State) : Prop :=
  match i with
  | .add32 => True
  | .rol32 => s.y.toNat ≤ 31
  | .packle | .packbe =>
    WithinCap s.mlen.toNat s.cfg.mcap ∧ HeldUpTo s.m s.mlen.toNat ∧ WithinCap ((s.mlen.toNat + 3) / 4) s.cfg.wcap
      ∧ 8 * s.mlen.toNat < 2 ^ 32
  | .unpackle | .unpackbe =>
    WithinCap s.wlen.toNat s.cfg.wcap ∧ HeldUpTo s.wb s.wlen.toNat ∧ WithinCap (4 * s.wlen.toNat) s.cfg.ocap
  | .hexle | .hexbe =>
    WithinCap s.wlen.toNat s.cfg.wcap ∧ HeldUpTo s.wb s.wlen.toNat ∧ WithinCap (8 * s.wlen.toNat) s.cfg.ocap
  | .b64be =>
    WithinCap s.wlen.toNat s.cfg.wcap ∧ HeldUpTo s.wb s.wlen.toNat
      ∧ WithinCap (4 * ((4 * s.wlen.toNat + 2) / 3)) s.cfg.ocap
  | .md5core =>
    (∃ x, wordArray s = some x ∧ consistent .le x s.bitlen.toNat = true)
      ∧ WithinCap ((((s.bitlen.toNat + 64) >>> 9) <<< 4) + 16) s.cfg.wcap
  | .sha1core =>
    (∃ x, wordArray s = some x ∧ consistent .be x s.bitlen.toNat = true)
      ∧ WithinCap ((((s.bitlen.toNat + 64) >>> 9) <<< 4) + 16) s.cfg.wcap
  | .hmacsha1 =>
    HeldUpTo s.k s.klen.toNat ∧ HeldUpTo s.m s.mlen.toNat ∧ WithinCap s.klen.toNat s.cfg.kcap
      ∧ WithinCap s.mlen.toNat s.cfg.mcap ∧ 512 + 8 * s.mlen.toNat < 2 ^ 32
      ∧ (64 < s.klen.toNat →
          8 * s.klen.toNat < 2 ^ 32
            ∧ WithinCap ((((8 * s.klen.toNat + 64) >>> 9) <<< 4) + 16) s.cfg.wcap)
      ∧ WithinCap ((((512 + 8 * s.mlen.toNat + 64) >>> 9) <<< 4) + 16) s.cfg.wcap

/-- The inputs of a command hold values: the reads column of 30_encoding.md R73. The registers always do (log entry 3). -/
def InputsHeld (i : Instr) (s : State) : Prop :=
  match i with
  | .add32 | .rol32 => True
  | .packle | .packbe => HeldUpTo s.m s.mlen.toNat
  | .unpackle | .unpackbe | .hexle | .hexbe | .b64be | .md5core | .sha1core => HeldUpTo s.wb s.wlen.toNat
  | .hmacsha1 => HeldUpTo s.k s.klen.toNat ∧ HeldUpTo s.m s.mlen.toNat

/-- Two states agree on what a command reads (30_encoding.md R73), and on the parameters. -/
def AgreeOnReads (i : Instr) (s t : State) : Prop :=
  t.cfg = s.cfg ∧
  match i with
  | .add32 | .rol32 => t.x = s.x ∧ t.y = s.y
  | .packle | .packbe => t.mlen = s.mlen ∧ SameBelow s.m t.m s.mlen.toNat
  | .unpackle | .unpackbe | .hexle | .hexbe | .b64be => t.wlen = s.wlen ∧ SameBelow s.wb t.wb s.wlen.toNat
  | .md5core | .sha1core => t.wlen = s.wlen ∧ t.bitlen = s.bitlen ∧ SameBelow s.wb t.wb s.wlen.toNat
  | .hmacsha1 =>
    t.klen = s.klen ∧ t.mlen = s.mlen ∧ SameBelow s.k t.k s.klen.toNat ∧ SameBelow s.m t.m s.mlen.toNat

/-- How many elements of its output buffer a command writes, in the state it starts from (the writes column of 30_encoding.md R73). -/
def writtenCount (i : Instr) (s : State) : Nat :=
  match i with
  | .add32 | .rol32 => 0
  | .packle | .packbe => (s.mlen.toNat + 3) / 4
  | .unpackle | .unpackbe => 4 * s.wlen.toNat
  | .hexle | .hexbe => 8 * s.wlen.toNat
  | .b64be => 4 * ((4 * s.wlen.toNat + 2) / 3)
  | .md5core => 4
  | .sha1core | .hmacsha1 => 5

/-- Two states `t` and `v`, left by a command that wrote `n` elements, agree on what it wrote (30_encoding.md R73). A core or HMAC
command decides all of WB: the elements above the digest hold no value. -/
def AgreeOnWrites (i : Instr) (n : Nat) (t v : State) : Prop :=
  match i with
  | .add32 | .rol32 => v.r = t.r
  | .packle | .packbe => SameBelow t.wb v.wb n ∧ v.wlen = t.wlen ∧ v.bitlen = t.bitlen
  | .md5core | .sha1core | .hmacsha1 => SameWords t v
  | .unpackle | .unpackbe | .hexle | .hexbe | .b64be => SameBelow (α := Byte) t.o v.o n ∧ v.olen = t.olen

end Sys2Proof.Machine
end

