-- ==== Sys2Proof/Certificates/Slice0/Obligations.lean ====
section
/-! DEFINITION. The statements for the provers. Each docstring names the rules of spec/ it formalises. -/

open Sys2Proof Sys2Proof.Machine

namespace Sys2Proof.Claims

/-- The pack command of a byte order. -/
def packInstr : ByteOrder → Instr
  | .le => .packle
  | .be => .packbe

/-- The unpack command of a byte order. -/
def unpackInstr : ByteOrder → Instr
  | .le => .unpackle
  | .be => .unpackbe

/-- The hex command of a byte order. -/
def hexInstr : ByteOrder → Instr
  | .le => .hexle
  | .be => .hexbe

/-- The core command of a byte order. -/
def coreInstr : ByteOrder → Instr
  | .le => .md5core
  | .be => .sha1core

/-- Byte `j` of the byte stream of a word array, as a number (20_memory.md R57). -/
def streamByte (ord : ByteOrder) (x : List Word) (j : Nat) : Nat :=
  match ord with
  | .le => (x.getD (j / 4) 0).toNat / 2 ^ (8 * (j % 4)) % 256
  | .be => (x.getD (j / 4) 0).toNat / 2 ^ (24 - 8 * (j % 4)) % 256

/-- The character codes of 0123456789abcdef (40_word_utilities.md R112). -/
def hexCodes : List Nat :=
  [0x30, 0x31, 0x32, 0x33, 0x34, 0x35, 0x36, 0x37, 0x38, 0x39, 0x61, 0x62, 0x63, 0x64, 0x65, 0x66]

/-- The code of symbol `v` of A-Z, a-z, 0-9, +, / (40_word_utilities.md R114). -/
def b64Code (v : Nat) : Nat :=
  if v < 26 then 0x41 + v
  else if v < 52 then 0x61 + (v - 26)
  else if v < 62 then 0x30 + (v - 52)
  else if v = 62 then 0x2B
  else 0x2F

/-- Symbol `p` (0 to 3) of a group whose bytes, zero where there is none, are b0 b1 b2, `m` of them real (R113). -/
def groupSymbol (b0 b1 b2 m p : Nat) : Nat :=
  if m < p then 0x3D else b64Code ((b0 * 65536 + b1 * 256 + b2) / 2 ^ (18 - 6 * p) % 64)

/-- The element holding a written value after a host write: the low bits the space keeps (20_memory.md R52). -/
def keptValue (cfg : Config) (space : Space) (v : Word) : Nat :=
  match space with
  | .m | .k => v.toNat % 2 ^ cfg.charw
  | _ => v.toNat

/-- The element exists (20_memory.md R50, R51). -/
def ElementExists (cfg : Config) (space : Space) (index : Nat) : Prop :=
  match space with
  | .reg => index ≤ 8
  | .m => indexFits index cfg.mcap = true
  | .k => indexFits index cfg.kcap = true
  | .wb => indexFits index cfg.wcap = true
  | .o => indexFits index cfg.ocap = true

/-- The host may write the element, and the write is no command issue: M, K, WB and the registers X, Y, MLEN, KLEN, WLEN,
BITLEN (20_memory.md R50, R51). -/
def Writable (space : Space) (index : Nat) : Prop :=
  match space with
  | .reg => index ∈ [1, 2, 4, 5, 6, 7]
  | .m | .k | .wb => True
  | .o => False

/-- The element holds a value the host may read (10_state.md R31, 20_memory.md R53); an element of WB after a command that wrote WB
only below WLEN (R53 (c); log entry 14). -/
def ReadableValue (s : State) (space : Space) (index : Nat) : Prop :=
  match space with
  | .reg =>
    index ∈ [1, 2, 3, 4, 5, 6, 7, 8]
  | .m => (bufGet s.m index).isSome = true
  | .k => (bufGet s.k index).isSome = true
  | .wb => (bufGet s.wb index).isSome = true ∧ (s.wbCmd = true → index < s.wlen.toNat)
  | .o => index < s.olen.toNat ∧ (bufGet (α := Byte) s.o index).isSome = true

/-- The register at an index of space REG that has a value to read, by the table of the register page (20_memory.md R51). Index 0 is
CMD, which nothing reads. -/
def pageRegister (s : State) : Nat → Option Word
  | 1 => some s.x
  | 2 => some s.y
  | 3 => some s.r
  | 4 => some s.mlen
  | 5 => some s.klen
  | 6 => some s.wlen
  | 7 => some s.bitlen
  | 8 => some s.olen
  | _ => none

/-- The numbers of the registers, by the same table. -/
def pageNumbers : List (RegName × Nat) :=
  [(.cmd, 0), (.x, 1), (.y, 2), (.r, 3), (.mlen, 4), (.klen, 5), (.wlen, 6), (.bitlen, 7), (.olen, 8)]

/-- The accesses write the list's elements to the space from index 0 on, and then its length to register `n` of the page. -/
def WritesListThenLength (space : Space) (n : Nat) (vs : List Word) (es : List HostEvent) : Prop :=
  es.length = vs.length + 1
  ∧ (∀ k, k < vs.length → es[k]? = some (.write space k (vs.getD k 0)))
  ∧ (vs.length < 2 ^ 32 → es[vs.length]? = some (.write .reg n (BitVec.ofNat 32 vs.length)))

/-- WB holds the words of a digest of `bits` bits and nothing above them, WLEN is their number and BITLEN is `bits` (30_encoding.md R73;
what stands above is log entry 7). -/
def DigestLeft (ws : List Word) (bits : Nat) (t : State) : Prop :=
  32 * ws.length = bits ∧ readAll t.wb ws.length = some ws ∧ NoneFrom t.wb ws.length ∧ t.wlen.toNat = ws.length ∧ t.bitlen.toNat = bits

/-- O holds a text of `n` bytes, OLEN is `n`, and the elements of O above are as before (30_encoding.md R73 as log entry 7 reads it).
-/
def TextLeft (txt : List Byte) (n : Nat) (s t : State) : Prop :=
  txt.length = n ∧ readAll (α := Byte) t.o n = some txt ∧ t.olen.toNat = n ∧ SameFrom (α := Byte) s.o t.o n

/-- What no entry point changes: X, Y, R, the texts and their lengths, the parameters and the host's side; and the engine is at rest. -/
def EntryFrame (s t : State) : Prop :=
  SameScalars s t ∧ SameResult s t ∧ SameTexts s t ∧ SameHost s t ∧ AtRest t

/-- What an element holds, zero-extended, whether or not a host may read it now; `none` where it holds no value or does not exist. A
register is the one the table of R51 names. -/
def storedValue (s : State) (space : Space) (index : Nat) : Option Word :=
  match space with
  | .reg => pageRegister s index
  | .m => bufGet s.m index
  | .k => bufGet s.k index
  | .wb => bufGet s.wb index
  | .o => (bufGet (α := Byte) s.o index).map (fun b => b.setWidth 32)

/-- The state a step enters on a false requires clause: a fault state with that reason, the event taken, the parameters and what the
host has read kept (60_exceptions.md R202; log entry 12). -/
def EntersFault (s : State) (why : Fault) (rest : List HostEvent) : Prop :=
  ∃ t, step s = .next t ∧ t.fault = some why ∧ t.pending = rest ∧ t.cfg = s.cfg ∧ t.reads = s.reads

/-- The values of the table of 10_state.md R33 that the spec gives, and no buffer element holding a value. -/
def ResetTable (t : State) : Prop :=
  t.cmd = none ∧ t.phase = .idle ∧ t.mlen = 0 ∧ t.klen = 0 ∧ t.wlen = 0 ∧ t.bitlen = 0 ∧ t.olen = 0
  ∧ (∀ k, bufGet t.m k = none) ∧ (∀ k, bufGet t.k k = none) ∧ (∀ k, bufGet t.wb k = none)
  ∧ (∀ k, bufGet (α := Byte) t.o k = none)

/-- Two windows share no byte. -/
def ShareNoByte (w v : Window) : Prop :=
  (∃ hi, w.hi = some hi ∧ hi ≤ v.lo) ∨ (∃ hi, v.hi = some hi ∧ hi ≤ w.lo)

/-- A message word of a step, by the closed form (41_md5.md R132). -/
def md5Index (t : Nat) : Nat :=
  if t < 16 then t
  else if t < 32 then (5 * t + 1) % 16
  else if t < 48 then (3 * t + 5) % 16
  else 7 * t % 16

/-- A step's rotation, by the closed form (41_md5.md R132). -/
def md5Rotation (t : Nat) : Nat :=
  if t < 16 then [7, 12, 17, 22].getD (t % 4) 0
  else if t < 32 then [5, 9, 14, 20].getD (t % 4) 0
  else if t < 48 then [4, 11, 16, 23].getD (t % 4) 0
  else [6, 10, 15, 21].getD (t % 4) 0

/-- A step's function, by round (41_md5.md R136). -/
def md5StepFunc (t : Nat) (b c d : Word) : Word :=
  if t < 16 then (b &&& c) ||| (~~~b &&& d)
  else if t < 32 then (b &&& d) ||| (c &&& ~~~d)
  else if t < 48 then b ^^^ c ^^^ d
  else c ^^^ (b ||| ~~~d)

/-- T[0] to T[15] as the table prints them (41_md5.md R132). -/
def md5Constants1 : List Word :=
  [0xD76AA478, 0xE8C7B756, 0x242070DB, 0xC1BDCEEE,
   0xF57C0FAF, 0x4787C62A, 0xA8304613, 0xFD469501,
   0x698098D8, 0x8B44F7AF, 0xFFFF5BB1, 0x895CD7BE,
   0x6B901122, 0xFD987193, 0xA679438E, 0x49B40821]

/-- T[16] to T[31] as the table prints them (41_md5.md R132). -/
def md5Constants2 : List Word :=
  [0xF61E2562, 0xC040B340, 0x265E5A51, 0xE9B6C7AA,
   0xD62F105D, 0x02441453, 0xD8A1E681, 0xE7D3FBC8,
   0x21E1CDE6, 0xC33707D6, 0xF4D50D87, 0x455A14ED,
   0xA9E3E905, 0xFCEFA3F8, 0x676F02D9, 0x8D2A4C8A]

/-- T[32] to T[47] as the table prints them (41_md5.md R132). -/
def md5Constants3 : List Word :=
  [0xFFFA3942, 0x8771F681, 0x6D9D6122, 0xFDE5380C,
   0xA4BEEA44, 0x4BDECFA9, 0xF6BB4B60, 0xBEBFBC70,
   0x289B7EC6, 0xEAA127FA, 0xD4EF3085, 0x04881D05,
   0xD9D4D039, 0xE6DB99E5, 0x1FA27CF8, 0xC4AC5665]

/-- T[48] to T[63] as the table prints them (41_md5.md R132). -/
def md5Constants4 : List Word :=
  [0xF4292244, 0x432AFF97, 0xAB9423A7, 0xFC93A039,
   0x655B59C3, 0x8F0CCC92, 0xFFEFF47D, 0x85845DD1,
   0x6FA87E4F, 0xFE2CE6E0, 0xA3014314, 0x4E0811A1,
   0xF7537E82, 0xBD3AF235, 0x2AD7D2BB, 0xEB86D391]

/-- T[t], by the printed table (41_md5.md R132). -/
def md5Constant (t : Nat) : Word := (md5Constants1 ++ md5Constants2 ++ md5Constants3 ++ md5Constants4).getD t 0

/-- The classical form of a step: with the roles of step number `t`, the role-a register receives the new word and the other
three keep theirs (41_md5.md R137). -/
def classicalStep (blk : List Word) (t : Nat) (r : Regs) (row : Md5Row) : Regs :=
  let new := fun a b c d =>
    add32 (rol32 (add32 (add32 a (md5Func row.fn b c d)) (add32 (blk.getD row.k 0) row.t)) row.rot) b
  if t % 4 = 0 then { r with a := new r.a r.b r.c r.d }
  else if t % 4 = 1 then { r with d := new r.d r.a r.b r.c }
  else if t % 4 = 2 then { r with c := new r.c r.d r.a r.b }
  else { r with b := new r.b r.c r.d r.a }

/-- Classical steps in order, the first being step number `t`. -/
def classicalSteps (blk : List Word) : Nat → Regs → List Md5Row → Regs
  | _, r, [] => r
  | t, r, row :: rows => classicalSteps blk (t + 1) (classicalStep blk t r row) rows

/-- The capacities and 2^32 limits a command's requires clause names (60_exceptions.md R202, reason Capacity). -/
def LengthsFit (i : Instr) (s : State) : Prop :=
  match i with
  | .add32 | .rol32 => True
  | .packle | .packbe =>
    WithinCap s.mlen.toNat s.cfg.mcap ∧ WithinCap ((s.mlen.toNat + 3) / 4) s.cfg.wcap ∧ 8 * s.mlen.toNat < 2 ^ 32
  | .unpackle | .unpackbe => WithinCap s.wlen.toNat s.cfg.wcap ∧ WithinCap (4 * s.wlen.toNat) s.cfg.ocap
  | .hexle | .hexbe => WithinCap s.wlen.toNat s.cfg.wcap ∧ WithinCap (8 * s.wlen.toNat) s.cfg.ocap
  | .b64be => WithinCap s.wlen.toNat s.cfg.wcap ∧ WithinCap (4 * ((4 * s.wlen.toNat + 2) / 3)) s.cfg.ocap
  | .md5core | .sha1core =>
    WithinCap s.wlen.toNat s.cfg.wcap ∧ WithinCap ((((s.bitlen.toNat + 64) >>> 9) <<< 4) + 16) s.cfg.wcap
  | .hmacsha1 =>
    WithinCap s.klen.toNat s.cfg.kcap ∧ WithinCap s.mlen.toNat s.cfg.mcap ∧ 512 + 8 * s.mlen.toNat < 2 ^ 32
      ∧ WithinCap ((((512 + 8 * s.mlen.toNat + 64) >>> 9) <<< 4) + 16) s.cfg.wcap
      ∧ (64 < s.klen.toNat →
          8 * s.klen.toNat < 2 ^ 32 ∧ WithinCap ((((8 * s.klen.toNat + 64) >>> 9) <<< 4) + 16) s.cfg.wcap)

/-- SHA-1 of a byte string (43_hmac_sha1.md R178). -/
def sha1OfBytes (m : List Byte) : List Byte :=
  unpack .be (sha1Core (pack .be (m.map (fun b => b.setWidth 32))) (8 * m.length))

/-- The HMAC construction on byte strings (43_hmac_sha1.md R178). -/
def hmacOfBytes (key data : List Byte) : List Byte :=
  let k := if key.length ≤ 64 then key else sha1OfBytes key
  let k0 := k ++ List.replicate (64 - k.length) 0
  sha1OfBytes (k0.map (fun b => b ^^^ 0x5C) ++ sha1OfBytes (k0.map (fun b => b ^^^ 0x36) ++ data))

end Sys2Proof.Claims

open Sys2Proof.Claims

/-- R72: the opcode map, both ways, over every 32-bit word, with its groups and byte-order conventions. -/
def Obligations.DecodeIsExactlyTheOpcodeMap : Prop :=
  (∀ (c : Word) (i : Instr), decode c = .command i ↔ c = encode i)
  ∧ (∀ c : Word, (∃ i, decode c = .command i) ↔
      c.toNat ∈ [0x01, 0x02, 0x10, 0x11, 0x12, 0x13, 0x14, 0x15, 0x17, 0x20, 0x21, 0x31])
  ∧ ([Instr.add32, .rol32, .packle, .packbe, .unpackle, .unpackbe, .hexle, .hexbe, .b64be, .md5core, .sha1core,
        .hmacsha1].map (fun i => ((encode i).toNat, opGroup i, opOrder i))
      = [(0x01, 0, none), (0x02, 0, none), (0x10, 1, some .le), (0x11, 1, some .be), (0x12, 1, some .le),
          (0x13, 1, some .be), (0x14, 1, some .le), (0x15, 1, some .be), (0x17, 1, some .be), (0x20, 2, some .le),
          (0x21, 2, some .be), (0x31, 3, some .be)])

/-- R72: words written out from the map decode to their commands (a sanity statement). -/
def Obligations.SampleWordsDecode : Prop :=
  decode 0x00000001 = .command .add32 ∧ decode 0x00000013 = .command .unpackbe ∧ decode 0x00000017 = .command .b64be
  ∧ decode 0x00000021 = .command .sha1core ∧ decode 0x00000031 = .command .hmacsha1
  ∧ decode 0x00000016 = .reserved (.opcode 0x16) ∧ decode 0x00000120 = .reserved .zeroField

/-- R74: a word that is no command's is rejected by name, and writing it to CMD is the fault IllegalCommand, in every state.
-/
def Obligations.ReservedWordsAreIllegal : Prop :=
  ∀ c : Word, (∀ i, c ≠ encode i) →
    (c.toNat / 256 ≠ 0 → decode c = .reserved .zeroField)
    ∧ (c.toNat / 256 = 0 → decode c = .reserved (.opcode (c.setWidth 8)))
    ∧ (∀ s : State, hostWrite .reg 0 c s = .fault .illegalCommand)

/-- 30_encoding.md section 1 and 60_exceptions.md section 1: in no fault state, a step whose event is the write of a command's word
to CMD runs exactly that command, with the word in CMD and the event taken: the command's next state, after which CMD keeps nothing,
or a fault state with the command's reason. The same of `withFetchWord`, from any state. That the host's accesses wait in a queue is
the model's own (log entry 1), what a fault state keeps is log entry 12. -/
def Obligations.StepRunsTheCommandWritten : Prop :=
  (∀ (s : State) (c : Word) (i : Instr) (rest : List HostEvent),
    s.fault = none → s.pending = .write .reg 0 c :: rest → decode c = .command i →
      step s = settle (dropEvent rest s) (exec i (takeCommand c (dropEvent rest s)))
      ∧ (∀ t, exec i (takeCommand c (dropEvent rest s)) = .next t →
          step s = .next t ∧ t.cmd = none ∧ t.pending = rest ∧ t.fault = none)
      ∧ (∀ why, exec i (takeCommand c (dropEvent rest s)) = .fault why → EntersFault s why rest))
  ∧ (∀ (s : State) (w : Nat) (i : Instr), decodeTableWord 32 w = some i →
      step (s.withFetchWord 32 w) =
        settle { s with fault := none } (exec i (takeCommand (BitVec.ofNat 32 w) { s with fault := none })))

/-- 20_memory.md section 4 and 60_exceptions.md section 7: the host's events take effect one at a time, in order; a step takes
exactly the first one, and with none the engine stays as it is. An event whose requires clause is false takes the machine to a fault
state (60_exceptions.md section 1), in which too a step takes exactly one event: the fault state, what it keeps and what an event does
in it are log entry 12. The host's queue is the model's own (log entry 1). -/
def Obligations.EventsTakeEffectInOrder : Prop :=
  ∀ s : State, (s.fault = none → s.pending = [] → step s = .next s)
    ∧ (∀ e rest, s.fault = none → s.pending = e :: rest →
        step s = settle { s with pending := rest } (serve e { s with pending := rest }))
    ∧ (∀ e rest t, s.pending = e :: rest → step s = .next t → t.pending = rest ∧ t.cfg = s.cfg)

/-- 60_exceptions.md sections 1 and 4 and 70_reset_and_hazards.md section 1: an event whose requires clause is false takes the
machine to a fault state that records the reason; no access clears it or does anything else; a run that ends there has no next state;
reset clears it, and nothing but reset does. That a fault state is a state of the model, and what it keeps, is log entry 12. -/
def Obligations.FaultStateIsLeftOnlyByReset : Prop :=
  (∀ (s : State) (e : HostEvent) (rest : List HostEvent) (why : Fault), s.fault = none → s.pending = e :: rest →
    serve e { s with pending := rest } = .fault why → EntersFault s why rest)
  ∧ (∀ (s : State) (why : Fault), s.fault = some why →
      (s.pending = [] → step s = .fault why)
      ∧ (∀ e rest, s.pending = e :: rest → e ≠ .reset → step s = .next { s with pending := rest })
      ∧ (∀ rest, s.pending = .reset :: rest → ∃ t, step s = .next t ∧ t.fault = none ∧ ResetTable t ∧ t.pending = rest))
  ∧ (∀ s t : State, step s = .next t → s.fault ≠ none → t.fault = none → ∃ rest, s.pending = .reset :: rest)

/-- 40_word_utilities.md section 1: `add32` is the sum modulo 2^32, equals the split form (an equality the spec marks as
derived), and is commutative and associative. -/
def Obligations.AdditionWraps : Prop :=
  (∀ x y : Word, (add32 x y).toNat = (x.toNat + y.toNat) % 2 ^ 32)
  ∧ (∀ x y : Word,
      (lsw x y).toNat = x.toNat % 2 ^ 16 + y.toNat % 2 ^ 16
      ∧ (msw x y).toNat = x.toNat / 2 ^ 16 + y.toNat / 2 ^ 16 + (lsw x y).toNat / 2 ^ 16
      ∧ (add32Split x y).toNat = (msw x y).toNat % 2 ^ 16 * 2 ^ 16 + (lsw x y).toNat % 2 ^ 16
      ∧ add32 x y = add32Split x y)
  ∧ (∀ x y : Word, add32 x y = add32 y x)
  ∧ (∀ x y z : Word, add32 (add32 x y) z = add32 x (add32 y z))

/-- R101: ADD32, opcode 01, completes when X and Y hold values x and y, with R the sum, everything else as before, and the same R
when issued again. (In the model X and Y hold values in every state: log entry 3.) -/
def Obligations.Add32Result : Prop :=
  (encode .add32).toNat = 0x01 ∧
  ∀ (s : State) (x y : Word), s.x = x → s.y = y →
    ∃ t, exec .add32 s = .next t ∧ t.r.toNat = (x.toNat + y.toNat) % 2 ^ 32
      ∧ SameScalars s t ∧ SameTexts s t ∧ SameWords s t ∧ SameOutput s t ∧ SameHost s t ∧ AtRest t
      ∧ ∃ u, exec .add32 t = .next u ∧ u.r = t.r

/-- 40_word_utilities.md section 2: `rol32(v, n)` moves bit i to bit (i + n) mod 32, by the shift formula for 1 to 31 and as
the identity for 0 (which the spec marks as derived). -/
def Obligations.RotationMovesBits : Prop :=
  ∀ (v : Word) (n : Nat), n ≤ 31 →
    (∀ i, i < 32 → (rol32 v n).getLsbD ((i + n) % 32) = v.getLsbD i)
    ∧ (1 ≤ n → rol32 v n = (v <<< n) ||| (v >>> (32 - n)) ∧ rol32 (rol32 v n) (32 - n) = v)
    ∧ rol32 v 0 = v

/-- R103: ROL32, opcode 02, completes when X and Y hold values and Y is at most 31, with R the rotation and everything else as
before; with a count above 31 it is the fault BadRotateCount. (In the model X and Y hold values in every state: log entry 3.) -/
def Obligations.Rol32Result : Prop :=
  (encode .rol32).toNat = 0x02
  ∧ (∀ (s : State) (x y : Word), s.x = x → s.y = y → y.toNat ≤ 31 →
      ∃ t, exec .rol32 s = .next t ∧ t.r = rol32 x y.toNat
        ∧ SameScalars s t ∧ SameTexts s t ∧ SameWords s t ∧ SameOutput s t ∧ SameHost s t ∧ AtRest t)
  ∧ (∀ s : State, 31 < s.y.toNat → exec .rol32 s = .fault .badRotateCount)

/-- R104, R105: PACKLE, opcode 10, and PACKBE, opcode 11, complete on their requires clause; byte k of the text stands in its
lane, unused lanes are 0, WLEN and BITLEN are the text's, and the other registers and buffers are as before. Outside the clause each
is the fault Capacity or ReadUnwritten. (The elements of WB above: ElementsAboveTheLength.) -/
def Obligations.PackResult : Prop :=
  (encode .packle).toNat = 0x10 ∧ (encode .packbe).toNat = 0x11
  ∧ (∀ (ord : ByteOrder) (s : State), ¬ Requires (packInstr ord) s →
      exec (packInstr ord) s = .fault .capacity ∨ exec (packInstr ord) s = .fault .readUnwritten)
  ∧ ∀ (ord : ByteOrder) (s : State), Requires (packInstr ord) s →
    ∃ t text words, exec (packInstr ord) s = .next t ∧ textM s = some text ∧ text.length = s.mlen.toNat
      ∧ words.length = (s.mlen.toNat + 3) / 4 ∧ t.wlen.toNat = words.length ∧ t.bitlen.toNat = 8 * s.mlen.toNat
      ∧ readAll t.wb words.length = some words
      ∧ (∀ k, k < text.length → streamByte ord words k = (text.getD k 0).toNat % 256)
      ∧ (∀ k, text.length ≤ k → k < 4 * words.length → streamByte ord words k = 0)
      ∧ SameScalars s t ∧ SameResult s t ∧ SameTexts s t ∧ SameOutput s t ∧ SameHost s t ∧ AtRest t

/-- 30_encoding.md section 2, read as log entry 7 says (the model's reading: 10_state.md section 6 calls what a command leaves at or
above a length register unspecified, the writes column leaves it out): the pack commands leave every element of WB, and the
rendering commands every element of O, at or above what they write as it was; after a core or HMAC command no element of WB above
the digest holds a value. -/
def Obligations.ElementsAboveTheLength : Prop :=
  ∀ (i : Instr) (s t : State), exec i s = .next t →
    (i ∈ [Instr.packle, .packbe] → SameFrom s.wb t.wb (writtenCount i s))
    ∧ (i ∈ [Instr.unpackle, .unpackbe, .hexle, .hexbe, .b64be] → SameFrom (α := Byte) s.o t.o (writtenCount i s))
    ∧ (i ∈ [Instr.md5core, .sha1core, .hmacsha1] → NoneFrom t.wb (writtenCount i s))

/-- R106: a character contributes its low 8 bits and nothing else: texts that agree modulo 256 pack alike, and so have the
same digests; no character is an error. -/
def Obligations.PackTruncatesCharacters : Prop :=
  (∀ (ord : ByteOrder) (t : List Word), pack ord (t.map (fun c => c &&& 0xFF)) = pack ord t)
  ∧ ∀ (ord : ByteOrder) (t u : List Word), t.map (fun c => c.toNat % 256) = u.map (fun c => c.toNat % 256) →
    pack ord t = pack ord u ∧ md5Core (pack .le t) (8 * t.length) = md5Core (pack .le u) (8 * u.length)
      ∧ sha1Core (pack .be t) (8 * t.length) = sha1Core (pack .be u) (8 * u.length)
      ∧ ∀ v w : List Word, v.map (fun c => c.toNat % 256) = w.map (fun c => c.toNat % 256) →
          hmacSha1 t v = hmacSha1 u w

/-- 40_word_utilities.md section 4: UNPACKLE and UNPACKBE complete on their requires clause; O is the four bytes of every word
in order, OLEN their number (where it fits 32 bits: log entry 6), and everything else is as before, the elements of O above too
(30_encoding.md section 2 as log entry 7 reads it). -/
def Obligations.UnpackResult : Prop :=
  ∀ (ord : ByteOrder) (s : State), Requires (unpackInstr ord) s →
    ∃ t x out, exec (unpackInstr ord) s = .next t ∧ wordArray s = some x ∧ out.length = 4 * s.wlen.toNat
      ∧ readAll (α := Byte) t.o out.length = some out ∧ SameFrom (α := Byte) s.o t.o out.length
      ∧ (∀ j, j < out.length → (out.getD j 0).toNat = streamByte ord x j)
      ∧ (out.length < 2 ^ 32 → t.olen.toNat = out.length)
      ∧ SameScalars s t ∧ SameResult s t ∧ SameTexts s t ∧ SameWords s t ∧ SameHost s t ∧ AtRest t

/-- 40_word_utilities.md section 4 (the round trip there, an inference the spec marks as derived): unpacking a packed text
gives its low bytes and zero bytes up to whole words; packing an unpacked word array gives it back. -/
def Obligations.PackUnpackRoundTrip : Prop :=
  ∀ ord : ByteOrder,
    (∀ t : List Word, unpack ord (pack ord t) =
      t.map (fun c => c.setWidth 8) ++ List.replicate ((4 - t.length % 4) % 4) 0)
    ∧ (∀ x : List Word, pack ord ((unpack ord x).map (fun b => b.setWidth 32)) = x)

/-- 20_memory.md section 2 (an inference the spec marks as derived): the big-endian byte stream is the little-endian one with
each group of four bytes reversed. -/
def Obligations.BigEndianReversesGroups : Prop :=
  ∀ (x : List Word) (j : Nat), j < 4 * x.length →
    (unpack .be x)[4 * (j / 4) + (3 - j % 4)]? = (unpack .le x)[j]?

/-- 40_word_utilities.md section 5 (the character codes there are general knowledge the spec marks as its own): HEXLE and
HEXBE complete on their requires clause; for each byte of the stream in the command's order the digit of its high nibble and
then of its low one, lower case; OLEN their number (where it fits: log entry 6); all else as before, the elements of O above too
(30_encoding.md section 2 as log entry 7 reads it). -/
def Obligations.HexResult : Prop :=
  ∀ (ord : ByteOrder) (s : State), Requires (hexInstr ord) s →
    ∃ t x out, exec (hexInstr ord) s = .next t ∧ wordArray s = some x ∧ out.length = 8 * s.wlen.toNat
      ∧ readAll (α := Byte) t.o out.length = some out ∧ SameFrom (α := Byte) s.o t.o out.length
      ∧ (∀ j, j < 4 * s.wlen.toNat →
          (out.getD (2 * j) 0).toNat = hexCodes.getD (streamByte ord x j / 16) 0
          ∧ (out.getD (2 * j + 1) 0).toNat = hexCodes.getD (streamByte ord x j % 16) 0)
      ∧ (out.length < 2 ^ 32 → t.olen.toNat = out.length)
      ∧ SameScalars s t ∧ SameResult s t ∧ SameTexts s t ∧ SameWords s t ∧ SameHost s t ∧ AtRest t

/-- 91_not_in_source.md N9: the hex encoders lose nothing. -/
def Obligations.HexIsInjective : Prop :=
  ∀ (ord : ByteOrder) (x y : List Word), hex ord x = hex ord y → x = y

/-- 40_word_utilities.md section 6 (the character codes there are general knowledge the spec marks as its own): B64BE
completes on its requires clause; each group of three bytes of the big-endian stream gives four symbols, a short last group
zero-padded and `=`-terminated; OLEN their number (where it fits: log entry 6); all else as before, the elements of O above too
(30_encoding.md section 2 as log entry 7 reads it). -/
def Obligations.Base64Result : Prop :=
  ∀ s : State, Requires .b64be s →
    ∃ t x out, exec .b64be s = .next t ∧ wordArray s = some x
      ∧ out.length = 4 * ((4 * s.wlen.toNat + 2) / 3)
      ∧ readAll (α := Byte) t.o out.length = some out ∧ SameFrom (α := Byte) s.o t.o out.length
      ∧ (∀ g p, g < (4 * s.wlen.toNat + 2) / 3 → p < 4 →
          (out.getD (4 * g + p) 0).toNat =
            groupSymbol (streamByte .be x (3 * g)) (streamByte .be x (3 * g + 1)) (streamByte .be x (3 * g + 2))
              (min 3 (4 * s.wlen.toNat - 3 * g)) p)
      ∧ (out.length < 2 ^ 32 → t.olen.toNat = out.length)
      ∧ SameScalars s t ∧ SameResult s t ∧ SameTexts s t ∧ SameWords s t ∧ SameHost s t ∧ AtRest t

/-- 40_word_utilities.md section 6 (properties the spec marks as derived): a base64 text has a length that is a multiple of 4
and 0, 2 or 1 `=` characters as its byte length modulo 3 is 0, 1 or 2. -/
def Obligations.Base64Padding : Prop :=
  ∀ bytes : List Byte, (b64 bytes).length % 4 = 0
    ∧ (b64 bytes).count padChar = (if bytes.length % 3 = 0 then 0 else if bytes.length % 3 = 1 then 2 else 1)

/-- R133: what consistent means, in both orders; a core command on an inconsistent pair is the fault InconsistentLength. -/
def Obligations.ConsistencyOfLengths : Prop :=
  (∀ (ord : ByteOrder) (x : List Word) (len : Nat), consistent ord x len = true ↔
    len % 8 = 0 ∧ x.length = (len + 31) / 32
      ∧ (len % 32 ≠ 0 → ∀ b, b < 32 - len % 32 →
          (x.getLastD 0).getLsbD (match ord with
            | .le => len % 32 + b
            | .be => b) = false))
  ∧ (∀ (ord : ByteOrder) (s : State) (x : List Word), wordArray s = some x → consistent ord x s.bitlen.toNat = false →
      exec (coreInstr ord) s = .fault .inconsistentLength)

/-- 41_md5.md section 4 (inferences the spec marks as derived): every packed text is consistent with its bit length, the empty
array with 0, and in a padded stream the marker's word lies before the two last words. -/
def Obligations.PackedTextsAreConsistent : Prop :=
  (∀ (ord : ByteOrder) (t : List Word), consistent ord (pack ord t) (8 * t.length) = true)
  ∧ (∀ ord : ByteOrder, consistent ord [] 0 = true)
  ∧ (∀ len : Nat, len % 8 = 0 → len / 32 + 3 ≤ padLength len ∧ padLength len % 16 = 0)

/-- R134: MD5's padded stream, word by word, and that a stream longer than WCAP is the fault Capacity. -/
def Obligations.Md5PadLayout : Prop :=
  (∀ (s : State) (x : List Word), wordArray s = some x → consistent .le x s.bitlen.toNat = true →
    ¬ WithinCap ((((s.bitlen.toNat + 64) >>> 9) <<< 4) + 16) s.cfg.wcap → exec .md5core s = .fault .capacity)
  ∧ ∀ (x : List Word) (len : Nat), consistent .le x len = true →
    (padStream .le x len).length = (((len + 64) >>> 9) <<< 4) + 16
    ∧ (padStream .le x len).length % 16 = 0
    ∧ ∀ i, i < padLength len → (padStream .le x len).getD i 0 =
        if i = padLength len - 2 then BitVec.ofNat 32 len
        else if i = len / 32 then x.getD i 0 ||| ((0x80 : Word) <<< (len % 32))
        else x.getD i 0

/-- 42_sha1.md sections 3 and 6: SHA-1's padded stream, word by word, and that a stream longer than WCAP is the fault Capacity. That
the length word stands at offset 15 is the spec's own choice (90_conflicts.md C5). -/
def Obligations.Sha1PadLayout : Prop :=
  (∀ (s : State) (x : List Word), wordArray s = some x → consistent .be x s.bitlen.toNat = true →
    ¬ WithinCap ((((s.bitlen.toNat + 64) >>> 9) <<< 4) + 16) s.cfg.wcap → exec .sha1core s = .fault .capacity)
  ∧ ∀ (x : List Word) (len : Nat), consistent .be x len = true →
    (padStream .be x len).length = (((len + 64) >>> 9) <<< 4) + 16
    ∧ (padStream .be x len).length % 16 = 0
    ∧ ∀ i, i < padLength len → (padStream .be x len).getD i 0 =
        if i = padLength len - 1 then BitVec.ofNat 32 len
        else if i = len / 32 then x.getD i 0 ||| ((0x80 : Word) <<< (24 - len % 32))
        else x.getD i 0

/-- 41_md5.md sections 3 and 5: one MD5 block is 64 steps, each as the step rule writes it, with k(t) and S[t] by their closed
forms and T[t] by the 64 values the table prints, and then the feed-forward. The tables and the role rotation of the step are general
knowledge the spec marks as its own, not in its source (log entry 16). -/
def Obligations.Md5BlockFollowsTheRules : Prop :=
  ∀ (blk : List Word) (r : Regs), ∃ q : Nat → Regs, q 0 = r
    ∧ (∀ t, t < 64 →
        (q (t + 1)).a = (q t).d ∧ (q (t + 1)).c = (q t).b ∧ (q (t + 1)).d = (q t).c ∧ (q (t + 1)).e = (q t).e
        ∧ (q (t + 1)).b =
          rol32 ((q t).a + md5StepFunc t (q t).b (q t).c (q t).d + (blk.getD (md5Index t) 0 + md5Constant t))
            (md5Rotation t) + (q t).b)
    ∧ md5Block blk r =
        { a := (q 64).a + r.a, b := (q 64).b + r.b, c := (q 64).c + r.c, d := (q 64).d + r.d, e := r.e }

/-- 41_md5.md section 5 (the classical form there is general knowledge the spec marks as its own): over any whole number of
groups of four steps the spec's way of writing the step and the classical one leave the same registers. -/
def Obligations.Md5StepsMatchClassicalForm : Prop :=
  ∀ (blk : List Word) (r : Regs) (rows : List Md5Row), rows.length % 4 = 0 →
    rows.foldl (md5Step blk) r = classicalSteps blk 0 r rows

/-- 41_md5.md sections 2, 5 and 6 (the initial values are general knowledge the spec marks as its own): `md5_core` starts from
the four initial values, takes the 16-word blocks of the padded stream in increasing order, each from the registers the one
before left, and gives A, B, C, D. -/
def Obligations.Md5CoreTakesBlocksInOrder : Prop :=
  ∀ (x : List Word) (len : Nat), consistent .le x len = true →
    ∃ q : Nat → Regs,
      (q 0).a = 0x67452301 ∧ (q 0).b = 0xEFCDAB89 ∧ (q 0).c = 0x98BADCFE ∧ (q 0).d = 0x10325476
      ∧ (∀ b, b < ((len + 64) >>> 9) + 1 → ∃ blk : List Word,
          blk.length = 16 ∧ (∀ i, i < 16 → blk.getD i 0 = (padStream .le x len).getD (16 * b + i) 0)
          ∧ q (b + 1) = md5Block blk (q b))
      ∧ md5Core x len = [(q (((len + 64) >>> 9) + 1)).a, (q (((len + 64) >>> 9) + 1)).b,
          (q (((len + 64) >>> 9) + 1)).c, (q (((len + 64) >>> 9) + 1)).d]

/-- R140: MD5CORE, opcode 20, completes on its requires clause: WB holds the four digest words and nothing above, WLEN is 4,
BITLEN 128, and everything else is as before. Outside the clause it is the fault InconsistentLength, Capacity or
ReadUnwritten. -/
def Obligations.Md5CoreResult : Prop :=
  (encode .md5core).toNat = 0x20
  ∧ (∀ s : State, ¬ Requires .md5core s →
      exec .md5core s = .fault .inconsistentLength ∨ exec .md5core s = .fault .capacity
        ∨ exec .md5core s = .fault .readUnwritten)
  ∧ ∀ s : State, Requires .md5core s →
    ∃ t x, exec .md5core s = .next t ∧ wordArray s = some x
      ∧ readAll t.wb 4 = some (md5Core x s.bitlen.toNat) ∧ NoneFrom t.wb 4 ∧ t.wlen = 4 ∧ t.bitlen = 128
      ∧ SameScalars s t ∧ SameResult s t ∧ SameTexts s t ∧ SameOutput s t ∧ SameHost s t ∧ AtRest t

/-- R155: the message schedule. -/
def Obligations.Sha1ScheduleExpansion : Prop :=
  ∀ blk : List Word, blk.length = 16 →
    (sha1Schedule blk).length = 80
    ∧ (∀ j, j < 16 → (sha1Schedule blk).getD j 0 = blk.getD j 0)
    ∧ (∀ j, 16 ≤ j → j < 80 → (sha1Schedule blk).getD j 0 =
        rol32 ((sha1Schedule blk).getD (j - 3) 0 ^^^ (sha1Schedule blk).getD (j - 8) 0
          ^^^ (sha1Schedule blk).getD (j - 14) 0 ^^^ (sha1Schedule blk).getD (j - 16) 0) 1)

/-- R156, R157, R158: one SHA-1 block is 80 steps, each with the function and constant of its range, and then the
feed-forward. -/
def Obligations.Sha1BlockFollowsTheRules : Prop :=
  ∀ (blk : List Word) (r : Regs), ∃ q : Nat → Regs, q 0 = r
    ∧ (∀ j, j < 80 →
        (q (j + 1)).b = (q j).a ∧ (q (j + 1)).c = rol32 (q j).b 30 ∧ (q (j + 1)).d = (q j).c ∧ (q (j + 1)).e = (q j).d
        ∧ (q (j + 1)).a =
          rol32 (q j).a 5
            + (if j < 20 then ((q j).b &&& (q j).c) ||| (~~~(q j).b &&& (q j).d)
               else if 40 ≤ j ∧ j < 60 then
                 ((q j).b &&& (q j).c) ||| ((q j).b &&& (q j).d) ||| ((q j).c &&& (q j).d)
               else (q j).b ^^^ (q j).c ^^^ (q j).d)
            + ((q j).e + (sha1Schedule blk).getD j 0
               + (if j < 20 then 0x5A827999 else if j < 40 then 0x6ED9EBA1 else if j < 60 then 0x8F1BBCDC
                  else 0xCA62C1D6)))
    ∧ sha1Block blk r =
        { a := (q 80).a + r.a, b := (q 80).b + r.b, c := (q 80).c + r.c, d := (q 80).d + r.d, e := (q 80).e + r.e }

/-- 42_sha1.md sections 1, 2 and 5 (the initial values are general knowledge the spec marks as its own): `sha1_core` starts
from the five initial values, takes the 16-word blocks of the padded stream in increasing order, each from the registers the
one before left, and gives A, B, C, D, E. -/
def Obligations.Sha1CoreTakesBlocksInOrder : Prop :=
  ∀ (x : List Word) (len : Nat), consistent .be x len = true →
    ∃ q : Nat → Regs,
      q 0 = { a := 0x67452301, b := 0xEFCDAB89, c := 0x98BADCFE, d := 0x10325476, e := 0xC3D2E1F0 }
      ∧ (∀ b, b < ((len + 64) >>> 9) + 1 → ∃ blk : List Word,
          blk.length = 16 ∧ (∀ i, i < 16 → blk.getD i 0 = (padStream .be x len).getD (16 * b + i) 0)
          ∧ q (b + 1) = sha1Block blk (q b))
      ∧ sha1Core x len = [(q (((len + 64) >>> 9) + 1)).a, (q (((len + 64) >>> 9) + 1)).b,
          (q (((len + 64) >>> 9) + 1)).c, (q (((len + 64) >>> 9) + 1)).d, (q (((len + 64) >>> 9) + 1)).e]

/-- R160: SHA1CORE, opcode 21, completes on its requires clause: WB holds the five digest words and nothing above, WLEN is 5,
BITLEN 160, and everything else is as before. Outside the clause it is the fault InconsistentLength, Capacity or
ReadUnwritten. -/
def Obligations.Sha1CoreResult : Prop :=
  (encode .sha1core).toNat = 0x21
  ∧ (∀ s : State, ¬ Requires .sha1core s →
      exec .sha1core s = .fault .inconsistentLength ∨ exec .sha1core s = .fault .capacity
        ∨ exec .sha1core s = .fault .readUnwritten)
  ∧ ∀ s : State, Requires .sha1core s →
    ∃ t x, exec .sha1core s = .next t ∧ wordArray s = some x
      ∧ readAll t.wb 5 = some (sha1Core x s.bitlen.toNat) ∧ NoneFrom t.wb 5 ∧ t.wlen = 5 ∧ t.bitlen = 160
      ∧ SameScalars s t ∧ SameResult s t ∧ SameTexts s t ∧ SameOutput s t ∧ SameHost s t ∧ AtRest t

/-- 41_md5.md section 7 and 42_sha1.md section 6: a digest can be hashed again at once, by the same core command. -/
def Obligations.DigestCanBeHashedAgain : Prop :=
  ∀ s t : State,
    (exec .md5core s = .next t → ∃ x u, wordArray s = some x ∧ exec .md5core t = .next u
      ∧ readAll u.wb 4 = some (md5Core (md5Core x s.bitlen.toNat) 128))
    ∧ (exec .sha1core s = .next t → ∃ x u, wordArray s = some x ∧ exec .sha1core t = .next u
      ∧ readAll u.wb 5 = some (sha1Core (sha1Core x s.bitlen.toNat) 160))

/-- 43_hmac_sha1.md sections 2, 3 and 4 (the test on characters and the long key's bit length are inferences the spec marks as
derived): the phases of HMAC-SHA1, with the long-key test on the number of characters. -/
def Obligations.HmacFollowsTheRules : Prop :=
  ∀ key data : List Word, ∃ bkey : List Word,
    bkey.length = 16
    ∧ (key.length ≤ 64 → ∀ i, i < 16 → bkey.getD i 0 = (pack .be key).getD i 0)
    ∧ (64 < key.length → ∀ i, i < 16 → bkey.getD i 0 = (sha1Core (pack .be key) (8 * key.length)).getD i 0)
    ∧ (16 < (pack .be key).length ↔ 64 < key.length)
    ∧ (64 < key.length → consistent .be (pack .be key) (8 * key.length) = true)
    ∧ hmacSha1 key data =
        sha1Core (bkey.map (fun w => w ^^^ 0x5C5C5C5C)
            ++ sha1Core (bkey.map (fun w => w ^^^ 0x36363636) ++ pack .be data) (512 + 8 * data.length)) 672
    ∧ consistent .be (bkey.map (fun w => w ^^^ 0x36363636) ++ pack .be data) (512 + 8 * data.length) = true
    ∧ padLength 672 = 32

/-- R177: HMACSHA1, opcode 31, completes on its requires clause: WB holds the five result words and nothing above, WLEN is 5,
BITLEN 160, and everything else is as before. Outside the clause it is the fault Capacity or ReadUnwritten. -/
def Obligations.HmacResult : Prop :=
  (encode .hmacsha1).toNat = 0x31
  ∧ (∀ s : State, ¬ Requires .hmacsha1 s →
      exec .hmacsha1 s = .fault .capacity ∨ exec .hmacsha1 s = .fault .readUnwritten)
  ∧ ∀ s : State, Requires .hmacsha1 s →
    ∃ t key data, exec .hmacsha1 s = .next t ∧ textK s = some key ∧ textM s = some data
      ∧ readAll t.wb 5 = some (hmacSha1 key data) ∧ NoneFrom t.wb 5 ∧ t.wlen = 5 ∧ t.bitlen = 160
      ∧ SameScalars s t ∧ SameResult s t ∧ SameTexts s t ∧ SameOutput s t ∧ SameHost s t ∧ AtRest t

/-- 43_hmac_sha1.md section 5 (an inference the spec marks as derived): on characters below 256 the command computes the HMAC
construction on byte strings. -/
def Obligations.HmacIsTheByteConstruction : Prop :=
  ∀ key data : List Byte,
    unpack .be (hmacSha1 (key.map (fun b => b.setWidth 32)) (data.map (fun b => b.setWidth 32))) = hmacOfBytes key data

/-- 44_entry_points.md section 2 (rules the spec marks as derived) with 30_encoding.md section 2: MD5.HEX and MD5.RAW of a text;
the digest is left in WB with its lengths, no element of WB above it holds a value, the elements of O above the text are as before (both as log entry 7 reads the spec), and
everything else is unchanged. -/
def Obligations.Md5EntryPoints : Prop :=
  ∀ (s : State) (text : List Word), textM s = some text → Requires .packle s →
    WithinCap ((((8 * s.mlen.toNat + 64) >>> 9) <<< 4) + 16) s.cfg.wcap →
      (WithinCap 32 s.cfg.ocap → ∃ t, runEntry .md5Hex s = .next t
        ∧ TextLeft (hex .le (md5Core (pack .le text) (8 * s.mlen.toNat))) 32 s t
        ∧ DigestLeft (md5Core (pack .le text) (8 * s.mlen.toNat)) 128 t ∧ EntryFrame s t)
      ∧ (WithinCap 16 s.cfg.ocap → ∃ t, runEntry .md5Raw s = .next t
        ∧ TextLeft (unpack .le (md5Core (pack .le text) (8 * s.mlen.toNat))) 16 s t
        ∧ DigestLeft (md5Core (pack .le text) (8 * s.mlen.toNat)) 128 t ∧ EntryFrame s t)

/-- 44_entry_points.md section 3 (rules the spec marks as derived) with 30_encoding.md section 2: SHA1.HEX, SHA1.B64 and
SHA1.RAW of a text; the digest is left in WB with its lengths, no element of WB above it holds a value, the elements of O above the text are as before (both as log entry 7 reads the spec), and
everything else is unchanged. -/
def Obligations.Sha1EntryPoints : Prop :=
  ∀ (s : State) (text : List Word), textM s = some text → Requires .packbe s →
    WithinCap ((((8 * s.mlen.toNat + 64) >>> 9) <<< 4) + 16) s.cfg.wcap →
      (WithinCap 40 s.cfg.ocap → ∃ t, runEntry .sha1Hex s = .next t
        ∧ TextLeft (hex .be (sha1Core (pack .be text) (8 * s.mlen.toNat))) 40 s t
        ∧ DigestLeft (sha1Core (pack .be text) (8 * s.mlen.toNat)) 160 t ∧ EntryFrame s t)
      ∧ (WithinCap 28 s.cfg.ocap → ∃ t, runEntry .sha1B64 s = .next t
        ∧ TextLeft (b64be (sha1Core (pack .be text) (8 * s.mlen.toNat))) 28 s t
        ∧ bufGet (α := Byte) t.o 27 = some 0x3D
        ∧ DigestLeft (sha1Core (pack .be text) (8 * s.mlen.toNat)) 160 t ∧ EntryFrame s t)
      ∧ (WithinCap 20 s.cfg.ocap → ∃ t, runEntry .sha1Raw s = .next t
        ∧ TextLeft (unpack .be (sha1Core (pack .be text) (8 * s.mlen.toNat))) 20 s t
        ∧ DigestLeft (sha1Core (pack .be text) (8 * s.mlen.toNat)) 160 t ∧ EntryFrame s t)

/-- 44_entry_points.md section 4 (rules the spec marks as derived) with 30_encoding.md section 2: HMAC.HEX, HMAC.B64 and
HMAC.RAW of a key and data; the result is left in WB with its lengths, no element of WB above it holds a value, the elements of O above the text are as before (both as log entry 7 reads the spec), and
everything else is unchanged. -/
def Obligations.HmacEntryPoints : Prop :=
  ∀ (s : State) (key data : List Word), textK s = some key → textM s = some data → Requires .hmacsha1 s →
      (WithinCap 40 s.cfg.ocap → ∃ t, runEntry .hmacHex s = .next t
        ∧ TextLeft (hex .be (hmacSha1 key data)) 40 s t
        ∧ DigestLeft (hmacSha1 key data) 160 t ∧ EntryFrame s t)
      ∧ (WithinCap 28 s.cfg.ocap → ∃ t, runEntry .hmacB64 s = .next t
        ∧ TextLeft (b64be (hmacSha1 key data)) 28 s t
        ∧ DigestLeft (hmacSha1 key data) 160 t ∧ EntryFrame s t)
      ∧ (WithinCap 20 s.cfg.ocap → ∃ t, runEntry .hmacRaw s = .next t
        ∧ TextLeft (unpack .be (hmacSha1 key data)) 20 s t
        ∧ DigestLeft (hmacSha1 key data) 160 t ∧ EntryFrame s t)

/-- 30_encoding.md section 4: the host accesses a line stands for: a command its word to CMD, an entry point its commands' words, a
text or word list its elements from index 0 and then its length to the register that covers it, `.set` a write to the register the
table of 20_memory.md section 1 numbers so, `.expect` none. The lines are abstract syntax (log entry 17), among them a `.set` of a
register the host may not write, whose access is the fault HostAccess; the length of 2^32 elements or more is open (log entry 20). -/
def Obligations.LinesMakeTheirAccesses : Prop :=
  (∀ i : Instr, assembleLine (.command i) = [.write .reg 0 (encode i)])
  ∧ (∀ e : EntryPoint, assembleLine (.pseudo e) = (expand e).map (fun i => .write .reg 0 (encode i)))
  ∧ (∀ cs : List Word, WritesListThenLength .m 4 cs (assembleLine (.chars .m cs)))
  ∧ (∀ cs : List Word, WritesListThenLength .k 5 cs (assembleLine (.chars .k cs)))
  ∧ (∀ ws : List Word, WritesListThenLength .wb 6 ws (assembleLine (.words ws)))
  ∧ (∀ (name : RegName) (n : Nat) (v : Word), (name, n) ∈ pageNumbers → assembleLine (.set name v) = [.write .reg n v])
  ∧ assembleLine .expect = []

/-- 60_exceptions.md section 1: a command ends in a next state exactly when its requires clause holds, and otherwise in a
fault; it is never refused. Of the clauses of ADD32 and ROL32 the condition that X and Y hold values is left out, since in the model
they do in every state: that is the model's choice (log entry 3), where the spec has ADD32 right after reset a fault. -/
def Obligations.CommandsCompleteExactlyWhenRequired : Prop :=
  ∀ (i : Instr) (s : State),
    (Requires i s ↔ ∃ t, exec i s = .next t) ∧ (¬ Requires i s ↔ ∃ f, exec i s = .fault f)

/-- 60_exceptions.md section 1, the table of reasons: a fault of a command names a condition that holds. ReadUnwritten never names a
register, since in the model each holds a value in every state (log entry 3). -/
def Obligations.FaultReasonsAreTrue : Prop :=
  ∀ (i : Instr) (s : State) (f : Fault), exec i s = .fault f →
    (f = .badRotateCount ∧ i = .rol32 ∧ 31 < s.y.toNat)
    ∨ (f = .inconsistentLength ∧ ∃ ord, i = coreInstr ord ∧
        (s.bitlen.toNat % 8 ≠ 0 ∨ s.wlen.toNat ≠ (s.bitlen.toNat + 31) / 32
          ∨ ∃ last, bufGet s.wb (s.wlen.toNat - 1) = some last ∧ strayBits ord s.bitlen.toNat last = true))
    ∨ (f = .capacity ∧ ¬ LengthsFit i s)
    ∨ (f = .readUnwritten ∧ ¬ InputsHeld i s)

/-- R203: a command that completes has fitted every capacity; one that does not fit is a fault, Capacity unless its lengths
are inconsistent as well (R205: the first of the table); with every capacity unbounded the reason Capacity arises only from
the 2^32 limits of a bit length. -/
def Obligations.CapacityNeverTruncates : Prop :=
  (∀ (i : Instr) (s t : State), exec i s = .next t →
    (t.wb ≠ s.wb → WithinCap t.wlen.toNat s.cfg.wcap ∧ HeldUpTo t.wb t.wlen.toNat)
    ∧ (t.o ≠ s.o → WithinCap t.olen.toNat s.cfg.ocap ∧ HeldUpTo (α := Byte) t.o t.olen.toNat)
    ∧ (indicesFit s.cfg.wcap s.wb → indicesFit s.cfg.wcap t.wb)
    ∧ (indicesFit (α := Byte) s.cfg.ocap s.o → indicesFit (α := Byte) s.cfg.ocap t.o))
  ∧ (∀ (i : Instr) (s : State), ¬ LengthsFit i s →
      exec i s = .fault .capacity ∨ (exec i s = .fault .inconsistentLength ∧ (i = .md5core ∨ i = .sha1core)))
  ∧ (∀ (i : Instr) (s : State), s.cfg.mcap = none → s.cfg.kcap = none → s.cfg.wcap = none → s.cfg.ocap = none →
      exec i s = .fault .capacity →
        ((i = .packle ∨ i = .packbe) ∧ 2 ^ 32 ≤ 8 * s.mlen.toNat)
        ∨ (i = .hmacsha1 ∧ (2 ^ 32 ≤ 512 + 8 * s.mlen.toNat ∨ (64 < s.klen.toNat ∧ 2 ^ 32 ≤ 8 * s.klen.toNat))))

/-- 60_exceptions.md section 1: a command whose lengths fit and whose input buffer has an element below its length that holds no
value is the fault ReadUnwritten: the pack commands, the rendering commands, the core commands (where the pair of lengths is
consistent as far as it can be judged: log entry 10) and HMACSHA1. ADD32 and ROL32 read registers only, which always hold a value in
the model (log entry 3), so neither is ever this fault. -/
def Obligations.UnwrittenInputsFault : Prop :=
  (∀ (ord : ByteOrder) (s : State), (∃ k, k < s.mlen.toNat ∧ bufGet s.m k = none) →
      WithinCap s.mlen.toNat s.cfg.mcap → WithinCap ((s.mlen.toNat + 3) / 4) s.cfg.wcap → 8 * s.mlen.toNat < 2 ^ 32 →
        exec (packInstr ord) s = .fault .readUnwritten)
  ∧ (∀ s : State, (∃ k, k < s.wlen.toNat ∧ bufGet s.wb k = none) → WithinCap s.wlen.toNat s.cfg.wcap →
      (WithinCap (4 * s.wlen.toNat) s.cfg.ocap → ∀ ord, exec (unpackInstr ord) s = .fault .readUnwritten)
      ∧ (WithinCap (8 * s.wlen.toNat) s.cfg.ocap → ∀ ord, exec (hexInstr ord) s = .fault .readUnwritten)
      ∧ (WithinCap (4 * ((4 * s.wlen.toNat + 2) / 3)) s.cfg.ocap → exec .b64be s = .fault .readUnwritten))
  ∧ (∀ (ord : ByteOrder) (s : State), (∃ k, k < s.wlen.toNat ∧ bufGet s.wb k = none) →
      s.bitlen.toNat % 8 = 0 → s.wlen.toNat = (s.bitlen.toNat + 31) / 32 →
      (∀ last, bufGet s.wb (s.wlen.toNat - 1) = some last → strayBits ord s.bitlen.toNat last = false) →
      LengthsFit (coreInstr ord) s → exec (coreInstr ord) s = .fault .readUnwritten)
  ∧ (∀ s : State, ((∃ k, k < s.klen.toNat ∧ bufGet s.k k = none) ∨ ∃ k, k < s.mlen.toNat ∧ bufGet s.m k = none) →
      LengthsFit .hmacsha1 s → exec .hmacsha1 s = .fault .readUnwritten)
  ∧ (∀ s : State, exec .add32 s ≠ .fault .readUnwritten ∧ exec .rol32 s ≠ .fault .readUnwritten)

/-- 30_encoding.md section 2: what a command writes, and that it leaves everything else as it was: the scalars X and Y and the
texts always, R but for the scalar commands, WB with its lengths but for the pack, core and HMAC commands, O with OLEN but for
the renderers. Every command ends with CMD empty and the sequencer idle. -/
def Obligations.CommandsWriteOnlyWhatTheyName : Prop :=
  ∀ (i : Instr) (s t : State), exec i s = .next t →
    SameScalars s t ∧ SameTexts s t ∧ SameHost s t ∧ AtRest t
    ∧ (i ∉ [Instr.add32, .rol32] → SameResult s t)
    ∧ (i ∉ [Instr.packle, .packbe, .md5core, .sha1core, .hmacsha1] → SameWords s t)
    ∧ (i ∉ [Instr.unpackle, .unpackbe, .hexle, .hexbe, .b64be] → SameOutput s t)

/-- R13: a command is a function of its declared inputs: from two states that agree on what it reads it completes in both or
in neither, with the same written state, whatever an earlier command left elsewhere. -/
def Obligations.CommandsReadOnlyWhatTheyName : Prop :=
  ∀ (i : Instr) (s u t : State), AgreeOnReads i s u → exec i s = .next t →
    ∃ v, exec i u = .next v ∧ AgreeOnWrites i (writtenCount i s) t v

/-- 10_state.md section 8: reset, every field the spec gives a value, no fault, and no buffer element holding a value. That X, Y and
R hold the value 0 there, where the table says they hold none, is the model's choice (log entry 3). -/
def Obligations.ResetLeavesTheTable : Prop :=
  ResetTable State.reset ∧ State.reset.fault = none
  ∧ State.reset.x = 0 ∧ State.reset.y = 0 ∧ State.reset.r = 0

/-- 70_reset_and_hazards.md section 1: the reset input, at any time and in a fault state too, leaves the reset state and no fault,
with the parameters and the host's side kept (log entry 12); X, Y and R are 0 there by the model's choice (log entry 3). -/
def Obligations.ResetInputResets : Prop :=
  ∀ (s : State) (rest : List HostEvent), s.pending = .reset :: rest →
    ∃ t, step s = .next t ∧ ResetTable t ∧ t.fault = none ∧ t.x = 0 ∧ t.y = 0 ∧ t.r = 0
      ∧ t.cfg = s.cfg ∧ t.pending = rest ∧ t.reads = s.reads

/-- 10_state.md sections 4 and 6, 20_memory.md sections 1 and 5: every step keeps the invariant, in every state that has it, a fault
state too, of which the invariant says less (log entry 12). -/
def Obligations.EveryStepKeepsTheInvariant : Prop :=
  ∀ s t : State, EngineInv s → step s = .next t → EngineInv t

/-- The invariant holds at reset (10_state.md section 8; the parameters at reset are log entry 9). -/
def Obligations.ResetHasTheInvariant : Prop := EngineInv State.reset

/-- 20_memory.md section 3: in no fault state a host read of an element that exists and that the host may read returns it,
zero-extended, in space REG the register the table of section 1 names; it changes nothing else, and a second read returns the same.
Which held elements of WB the host may read is log entry
14, the list of what was read is the model's own (log entry 2), that the scalar registers always hold a value is log entry 3. -/
def Obligations.HostReadsHaveNoSideEffect : Prop :=
  ∀ (s : State) (space : Space) (index : Nat) (rest : List HostEvent),
    s.fault = none → s.pending = .read space index :: rest →
    ElementExists s.cfg space index → ReadableValue s space index →
      ∃ (t : State) (v : Word), step s = .next t ∧ t = { s with pending := rest, reads := s.reads ++ [v] }
        ∧ readElem s space index = some v ∧ readElem t space index = some v
        ∧ (space = .reg → pageRegister s index = some v)
        ∧ (space = .m → bufGet s.m index = some v) ∧ (space = .k → bufGet s.k index = some v)
        ∧ (space = .wb → bufGet s.wb index = some v)
        ∧ (space = .o → ∃ b : Byte, bufGet (α := Byte) s.o index = some b ∧ v.toNat = b.toNat)

/-- 20_memory.md sections 1 and 3: in no fault state a host write to a writable element completes, the element then holds the low
bits its space keeps (a CHARW above 32 keeps all 32: log entry 13), and every other element holds what it held; in space REG the
elements are the registers the table of section 1 names. The host can read
the element back at once, but for an element of WB at or above WLEN after a command that wrote WB (log entry 14), and every other
element reads, or cannot be read, as before, but that a write to WLEN moves the part of WB that can be read (log entry 14). -/
def Obligations.HostWritesStoreOneElement : Prop :=
  ∀ (s : State) (space : Space) (index : Nat) (v : Word) (rest : List HostEvent),
    s.fault = none → s.pending = .write space index v :: rest → ElementExists s.cfg space index → Writable space index →
      ∃ t w, step s = .next t ∧ storedValue t space index = some w ∧ w.toNat = keptValue s.cfg space v
        ∧ (∀ space' index', ¬ (space' = space ∧ index' = index) →
            storedValue t space' index' = storedValue s space' index')
        ∧ ((space = .wb → s.wbCmd = true → index < s.wlen.toNat) → readElem t space index = some w)
        ∧ (∀ space' index', ¬ (space' = space ∧ index' = index) → ¬ (space' = .wb ∧ space = .reg ∧ index = 6) →
            readElem t space' index' = readElem s space' index')
        ∧ t.cfg = s.cfg ∧ t.cmd = s.cmd ∧ t.phase = s.phase ∧ t.int = s.int ∧ t.fault = s.fault ∧ t.wbCmd = s.wbCmd
        ∧ t.pending = rest ∧ t.reads = s.reads

/-- 20_memory.md section 1 (what holds a value and what the host may read of it: log entries 3, 7, 8, 14): a host access outside its
space's index range, in a direction its element does not allow, or reading what the host may not read, is the fault HostAccess, and
the step enters that fault state (log entry 12). -/
def Obligations.ForbiddenHostAccessesFault : Prop :=
  ∀ (s : State) (space : Space) (index : Nat) (rest : List HostEvent), s.fault = none →
    (s.pending = .read space index :: rest → ¬ ElementExists s.cfg space index ∨ ¬ ReadableValue s space index →
      hostRead space index { s with pending := rest } = .fault .hostAccess ∧ EntersFault s .hostAccess rest)
    ∧ (∀ v, s.pending = .write space index v :: rest →
        ¬ ElementExists s.cfg space index ∨ (¬ Writable space index ∧ ¬ (space = .reg ∧ index = 0)) →
        hostWrite space index v { s with pending := rest } = .fault .hostAccess ∧ EntersFault s .hostAccess rest)

/-- 20_memory.md sections 1 and 3: on a platform whose windows share no byte, an aligned access of 4 bytes at an element's bus
address is that element's access, and any other access that starts inside an element of a window is the fault HostAccess.
What is aligned is measured from the window's first byte (log entry 21). -/
def Obligations.BusAccessesReachOneElement : Prop :=
  ∀ (s : State) (b : BusMap) (space : Space) (index : Nat), s.cfg.bus = some b →
    (windows s.cfg b).Pairwise ShareNoByte → ElementExists s.cfg space index →
      serve (.busRead (busAddress b space index) 4) s = serve (.read space index) s
      ∧ (∀ v, serve (.busWrite (busAddress b space index) 4 v) s = serve (.write space index v) s)
      ∧ (∀ off n, off < 4 → 0 < n → ¬ (off = 0 ∧ n = 4) →
          serve (.busRead (busAddress b space index + off) n) s = .fault .hostAccess
          ∧ ∀ v, serve (.busWrite (busAddress b space index + off) n v) s = .fault .hostAccess)

/-- 10_state.md section 4 and 41_md5.md section 1: the sequencer, ticked INIT, PAD, COMPRESS, EXTRACT from any leftover
internal state, ends idle after exactly its ticks with the digest words in WB, is idle at no earlier tick, and keeps STEP and
BLK in their ranges while it compresses. The ticks are the model's own: the spec gives no cycle count (70_reset_and_hazards.md
section 4), and one tick each for INIT, PAD and EXTRACT and one for each step is log entry 19. -/
def Obligations.SequencerComputesTheCores : Prop :=
  ∀ (u : HashUnit) (int : Internals) (x : List Word) (len : Nat),
    (seqWhole u int x len).phase = .idle ∧ (seqWhole u int x len).wb = unitCore u x len
    ∧ ∀ n, n < seqTicks u len →
        (seqRun u len n (seqStart int x)).phase ≠ .idle
        ∧ ((seqRun u len n (seqStart int x)).phase = .compress →
            (seqRun u len n (seqStart int x)).int.step.toNat < unitSteps u
            ∧ (seqRun u len n (seqStart int x)).int.blk < blockCount len)

/-- 43_hmac_sha1.md section 4: the controller, run over the sequencer with its key and pad arrays from any leftover internal
state, leaves the result words in WB. -/
def Obligations.ControllerComputesHmac : Prop :=
  ∀ (key data : List Word) (int : Internals),
    (ctlRun key data int).phase = .idle ∧ (ctlRun key data int).wb = hmacSha1 key data
    ∧ (ctlLoadKey (ctlKeyWords key int)).bkey.toList = hmacKey key
end

