-- ==== Sys2Proof/Laws/Buffers.lean ====
section
/-! SUPPORT. The laws of the buffers: read after write, what a command's write leaves, and that every operation keeps the canonical
form and the room of a buffer. -/

namespace Sys2Proof.Machine

variable {α : Type}

/-- An element just stored is the one read. -/
@[simp] theorem bufGet_bufSet_self (b : Buffer α) (i : Nat) (v : α) : bufGet (bufSet b i v) i = some v := by
  induction b with
  | nil => simp [bufSet, bufGet]
  | cons p rest ih =>
    obtain ⟨j, w⟩ := p
    simp only [bufSet]
    split
    · simp [bufGet]
    · split
      · simp [bufGet]
      · rename_i h; simp [bufGet, h, ih]

/-- A store leaves every other element alone. -/
theorem bufGet_bufSet_of_ne (b : Buffer α) {i j : Nat} (v : α) (h : j ≠ i) : bufGet (bufSet b i v) j = bufGet b j := by
  induction b with
  | nil => simp [bufSet, bufGet, h]
  | cons p rest ih =>
    obtain ⟨n, w⟩ := p
    simp only [bufSet]
    split
    · simp [bufGet, h]
    · split
      · rename_i h2; subst h2; simp [bufGet, h]
      · simp [bufGet, ih]

/-- The elements after a store are the stored one and old ones. -/
theorem mem_bufSet {b : Buffer α} {i : Nat} {v : α} {e : Nat × α} (h : e ∈ bufSet b i v) : e = (i, v) ∨ e ∈ b := by
  induction b with
  | nil => simpa [bufSet] using h
  | cons p rest ih =>
    obtain ⟨n, w⟩ := p
    simp only [bufSet] at h
    split at h
    · simpa using h
    · split at h
      · simp at h; aesop
      · simp at h; aesop

/-- A store keeps the canonical form. -/
theorem bufWf_bufSet {b : Buffer α} (hb : bufWf b) (i : Nat) (v : α) : bufWf (bufSet b i v) := by
  induction b with
  | nil => simp [bufSet, bufWf]
  | cons p rest ih =>
    obtain ⟨n, w⟩ := p
    have hr := List.pairwise_cons.1 hb
    simp only [bufSet]
    split
    · rename_i hlt
      refine List.pairwise_cons.2 ⟨fun q hq => ?_, hb⟩
      rcases List.mem_cons.1 hq with rfl | hq
      · exact hlt
      · exact lt_trans hlt (hr.1 q hq)
    · split
      · rename_i h; subst h; exact List.pairwise_cons.2 ⟨hr.1, hr.2⟩
      · refine List.pairwise_cons.2 ⟨fun q hq => ?_, ih hr.2⟩
        rcases mem_bufSet hq with rfl | hq
        · simp only; omega
        · exact hr.1 q hq

/-- Reading what a list write left. -/
theorem bufGet_bufFrom (vs : List α) (start i : Nat) :
    bufGet (bufFrom start vs) i = if i < start then none else vs[i - start]? := by
  induction vs generalizing start with
  | nil => simp [bufFrom, bufGet]
  | cons v vs ih =>
    simp only [bufFrom, bufGet, ih]
    by_cases h : i = start
    · subst h; simp
    · rw [if_neg h]
      by_cases h2 : i < start
      · simp [h2, Nat.lt_succ_of_lt h2]
      · rw [if_neg (by omega), if_neg h2, show i - start = (i - (start + 1)) + 1 by omega]; simp

/-- Reading a list as a buffer: its elements hold their values, every other holds none. -/
@[simp] theorem bufGet_bufOfList (vs : List α) (i : Nat) : bufGet (bufOfList vs) i = vs[i]? := by
  simp [bufOfList, bufGet_bufFrom]

theorem bufGet_append (b c : Buffer α) (i : Nat) : bufGet (b ++ c) i = (bufGet b i).or (bufGet c i) := by
  induction b with
  | nil => simp [bufGet]
  | cons p rest ih =>
    obtain ⟨j, w⟩ := p
    simp only [List.cons_append, bufGet, ih]
    split <;> simp

theorem bufGet_filter_ge (b : Buffer α) {n i : Nat} (h : n ≤ i) :
    bufGet (b.filter (fun e => decide (n ≤ e.1))) i = bufGet b i := by
  induction b with
  | nil => rfl
  | cons p rest ih =>
    obtain ⟨j, w⟩ := p
    by_cases hj : n ≤ j
    · simp [hj, bufGet, ih]
    · simp [hj, bufGet, ih, show ¬ i = j by omega]

theorem bufGet_filter_lt (b : Buffer α) {n i : Nat} (h : i < n) :
    bufGet (b.filter (fun e => decide (n ≤ e.1))) i = none := by
  induction b with
  | nil => rfl
  | cons p rest ih =>
    obtain ⟨j, w⟩ := p
    by_cases hj : n ≤ j
    · simp [hj, bufGet, ih, show ¬ i = j by omega]
    · simp [hj, ih]

/-- Reading what a command's write left: the written elements hold their values, every other is as it was. -/
@[simp] theorem bufGet_bufOver (vs : List α) (b : Buffer α) (i : Nat) :
    bufGet (bufOver vs b) i = if i < vs.length then vs[i]? else bufGet b i := by
  rw [bufOver, bufGet_append, bufGet_bufOfList]
  split
  · rename_i h; simp [bufGet_filter_lt b h, h]
  · rename_i h; simp [bufGet_filter_ge b (Nat.le_of_not_lt h), h]

theorem mem_bufFrom {vs : List α} {start : Nat} {e : Nat × α} (h : e ∈ bufFrom start vs) :
    start ≤ e.1 ∧ e.1 < start + vs.length := by
  induction vs generalizing start with
  | nil => simp [bufFrom] at h
  | cons v vs ih =>
    rcases List.mem_cons.1 h with rfl | h
    · simp
    · have := ih h; simp; omega

/-- The indices of a list as a buffer are below its length. -/
theorem mem_bufOfList {vs : List α} {e : Nat × α} (h : e ∈ bufOfList vs) : e.1 < vs.length := by
  simpa using (mem_bufFrom h).2

theorem bufWf_bufFrom (vs : List α) (start : Nat) : bufWf (bufFrom start vs) := by
  induction vs generalizing start with
  | nil => simp [bufFrom, bufWf]
  | cons v vs ih =>
    refine List.pairwise_cons.2 ⟨fun q hq => ?_, ih _⟩
    have := (mem_bufFrom hq).1
    simp only; omega

/-- A list as a buffer is in the canonical form. -/
@[simp] theorem bufWf_bufOfList (vs : List α) : bufWf (bufOfList vs) := bufWf_bufFrom vs 0

/-- The elements after a command's write are written ones and old ones above them. -/
theorem mem_bufOver {vs : List α} {b : Buffer α} {e : Nat × α} (h : e ∈ bufOver vs b) : e.1 < vs.length ∨ e ∈ b := by
  rcases List.mem_append.1 h with h | h
  · exact .inl (mem_bufOfList h)
  · exact .inr (List.mem_filter.1 h).1

/-- A command's write keeps the canonical form. -/
theorem bufWf_bufOver (vs : List α) {b : Buffer α} (h : bufWf b) : bufWf (bufOver vs b) := by
  refine List.pairwise_append.2 ⟨bufWf_bufOfList vs, h.filter _, fun p hp q hq => ?_⟩
  have h1 := mem_bufOfList hp
  have h2 : vs.length ≤ q.1 := by simpa using (List.mem_filter.1 hq).2
  exact lt_of_lt_of_le h1 h2

/-- Elements `start` to `start + n - 1` are read together exactly when each holds the value read. -/
theorem readFrom_eq_some {b : Buffer α} {start n : Nat} {vs : List α} :
    readFrom b start n = some vs ↔ vs.length = n ∧ ∀ k, k < n → bufGet b (start + k) = vs[k]? := by
  induction n generalizing start vs with
  | zero => cases vs <;> simp [readFrom]
  | succ n ih =>
    simp only [readFrom]
    constructor
    · intro h
      split at h
      · simp at h
      · split at h
        · simp at h
        · rename_i hv _ us hus
          obtain rfl : _ :: us = vs := by simpa using h
          obtain ⟨hl, hk⟩ := ih.1 hus
          refine ⟨by simp [hl], fun k hk' => ?_⟩
          cases k with
          | zero => simpa using hv
          | succ k => rw [show start + (k + 1) = start + 1 + k by omega]; simpa using hk k (by omega)
    · rintro ⟨hl, hk⟩
      cases vs with
      | nil => simp at hl
      | cons v us =>
        have h0 : bufGet b start = some v := by simpa using hk 0 (by omega)
        have h1 : readFrom b (start + 1) n = some us :=
          ih.2 ⟨by simpa using hl, fun k hk' => by
            rw [show start + 1 + k = start + (k + 1) by omega]; simpa using hk (k + 1) (by omega)⟩
        simp [h0, h1]

/-- A text or array is read exactly when every element in use holds a value. -/
theorem readAll_eq_some {b : Buffer α} {n : Nat} {vs : List α} :
    readAll b n = some vs ↔ vs.length = n ∧ ∀ k, k < n → bufGet b k = vs[k]? := by
  simp [readAll, readFrom_eq_some]

theorem readFrom_eq_none {b : Buffer α} {start n : Nat} :
    readFrom b start n = none ↔ ∃ k, k < n ∧ bufGet b (start + k) = none := by
  induction n generalizing start with
  | zero => simp [readFrom]
  | succ n ih =>
    simp only [readFrom]
    cases h0 : bufGet b start with
    | none => simpa using ⟨0, by omega, h0⟩
    | some v =>
      cases h1 : readFrom b (start + 1) n with
      | none =>
        obtain ⟨k, hk, hb⟩ := ih.1 h1
        simpa using ⟨k + 1, by omega, by rwa [show start + (k + 1) = start + 1 + k by omega]⟩
      | some us =>
        simp only [reduceCtorEq, false_iff, not_exists, not_and]
        intro k hk hb
        cases k with
        | zero => simp [h0] at hb
        | succ k =>
          have : readFrom b (start + 1) n = none :=
            ih.2 ⟨k, by omega, by rwa [show start + (k + 1) = start + 1 + k by omega] at hb⟩
          simp [h1] at this

/-- A text or array is not read exactly when an element in use holds no value. -/
theorem readAll_eq_none {b : Buffer α} {n : Nat} : readAll b n = none ↔ ∃ k, k < n ∧ bufGet b k = none := by
  simp [readAll, readFrom_eq_none]

/-- The value a buffer holds after a list write is the list. -/
@[simp] theorem readAll_bufOfList (vs : List α) : readAll (bufOfList vs) vs.length = some vs :=
  readAll_eq_some.2 ⟨rfl, fun k _ => by simp⟩

/-- The value a buffer holds after a command's write is the list. -/
@[simp] theorem readAll_bufOver (vs : List α) (b : Buffer α) : readAll (bufOver vs b) vs.length = some vs :=
  readAll_eq_some.2 ⟨rfl, fun k hk => by simp [hk]⟩

@[simp] theorem capFits_none (n : Nat) : capFits n none = true := rfl

@[simp] theorem capFits_some (n c : Nat) : capFits n (some c) = decide (n ≤ c) := rfl

@[simp] theorem indexFits_none (n : Nat) : indexFits n none = true := rfl

@[simp] theorem indexFits_some (n c : Nat) : indexFits n (some c) = decide (n < c) := rfl

/-- What is below a fitting length is an index of the buffer. -/
theorem indexFits_of_lt {i n : Nat} {cap : Option Nat} (h : capFits n cap = true) (hi : i < n) :
    indexFits i cap = true := by
  cases cap with
  | none => rfl
  | some c => simp at h ⊢; omega

/-- What is at most a fitting length fits. -/
theorem capFits_of_le {m n : Nat} {cap : Option Nat} (h : capFits n cap = true) (hm : m ≤ n) : capFits m cap = true := by
  cases cap with
  | none => rfl
  | some c => simp at h ⊢; omega

/-- A stored character has CHARW bits. -/
theorem truncChar_lt (cfg : Config) (v : Word) : (truncChar cfg v).toNat < 2 ^ cfg.charw := by
  have : v.toNat % 2 ^ cfg.charw < 2 ^ cfg.charw := Nat.mod_lt _ (by positivity)
  simp only [truncChar, BitVec.toNat_ofNat]
  exact lt_of_le_of_lt (Nat.mod_le _ _) this

/-- No bit below CHARW is lost. -/
theorem truncChar_toNat (cfg : Config) (v : Word) : (truncChar cfg v).toNat = v.toNat % 2 ^ cfg.charw := by
  simp only [truncChar, BitVec.toNat_ofNat]
  exact Nat.mod_eq_of_lt (lt_of_le_of_lt (Nat.mod_le _ _) v.isLt)

/-- OLEN counts the bytes where they fit the register. -/
theorem countReg_toNat {n : Nat} (h : n < 2 ^ 32) : (countReg n).toNat = n := by
  simp only [countReg, if_pos h, BitVec.toNat_ofNat]; exact Nat.mod_eq_of_lt h

/-- OLEN is never above the number of bytes written. -/
theorem countReg_le (n : Nat) : (countReg n).toNat ≤ n := by
  by_cases h : n < 2 ^ 32
  · exact (countReg_toNat h).le
  · exact le_trans (le_of_lt (countReg n).isLt) (by omega)

end Sys2Proof.Machine
end

