-- ==== Sys2Proof/Laws/Conversions.lean ====
section
/-! SUPPORT. The lengths of what the conversions, encoders and hash functions give. -/

namespace Sys2Proof.Machine

@[simp] theorem length_pack (ord : ByteOrder) (t : List Word) : (pack ord t).length = wordsFor t.length := by
  induction t using pack.induct with
  | case1 => simp [pack, wordsFor]
  | case2 => simp [pack, wordsFor]
  | case3 => simp [pack, wordsFor]
  | case4 => simp [pack, wordsFor]
  | case5 c0 c1 c2 c3 rest ih => simp [pack, ih, wordsFor]; omega

@[simp] theorem length_unpack (ord : ByteOrder) (x : List Word) : (unpack ord x).length = 4 * x.length := by
  induction x with
  | nil => simp [unpack]
  | cons w ws ih =>
    have : (unpack ord (w :: ws)).length = 4 + (unpack ord ws).length := by simp [unpack, wordBytes]; omega
    rw [this, ih]; simp; omega

theorem length_flatMap_hexByte (bs : List Byte) : (bs.flatMap hexByte).length = 2 * bs.length := by
  induction bs with
  | nil => simp
  | cons b bs ih => simp [hexByte, ih]; omega

@[simp] theorem length_hex (ord : ByteOrder) (x : List Word) : (hex ord x).length = 8 * x.length := by
  rw [hex, length_flatMap_hexByte, length_unpack]; omega

theorem length_b64 (bs : List Byte) : (b64 bs).length = 4 * ((bs.length + 2) / 3) := by
  induction bs using b64.induct with
  | case1 => simp [b64]
  | case2 => simp [b64]
  | case3 => simp [b64]
  | case4 b0 b1 b2 rest ih => simp [b64, ih]; omega

@[simp] theorem length_b64be (x : List Word) : (b64be x).length = b64Size x.length := by
  simp [b64be, length_b64, b64Size]

theorem padLength_eq (len : Nat) : padLength len = 16 * blockCount len := by
  simp [padLength, blockCount, Nat.shiftLeft_eq]; omega

theorem sixteen_le_padLength (len : Nat) : 16 ≤ padLength len := by simp [padLength]

/-- The message, the marker byte and the length word fit the padded stream. -/
theorem padLength_room (len : Nat) : len + 72 ≤ 32 * padLength len + 7 := by
  simp [padLength, Nat.shiftLeft_eq, Nat.shiftRight_eq_div_pow]; omega

theorem length_padStream {ord : ByteOrder} {x : List Word} {len : Nat} (h : x.length ≤ padLength len) :
    (padStream ord x len).length = padLength len := by
  simp [padStream]; omega

@[simp] theorem length_md5Core (x : List Word) (len : Nat) : (md5Core x len).length = 4 := rfl

@[simp] theorem length_sha1Core (x : List Word) (len : Nat) : (sha1Core x len).length = 5 := rfl

@[simp] theorem length_hmacSha1 (key data : List Word) : (hmacSha1 key data).length = 5 := rfl

theorem length_hmacKeyWords_le (key : List Word) : (hmacKeyWords key).length ≤ 16 := by
  unfold hmacKeyWords; split <;> simp_all

@[simp] theorem length_hmacKey (key : List Word) : (hmacKey key).length = 16 := by
  have := length_hmacKeyWords_le key
  simp [hmacKey]; omega

@[simp] theorem length_hmacIpad (key : List Word) : (hmacIpad key).length = 16 := by simp [hmacIpad, hmacPad]

@[simp] theorem length_hmacOpad (key : List Word) : (hmacOpad key).length = 16 := by simp [hmacOpad, hmacPad]

@[simp] theorem length_hmacInner (key data : List Word) : (hmacInner key data).length = 5 := rfl

theorem length_sha1Extend (n : Nat) (acc : List Word) : (sha1Extend n acc).length = n + acc.length := by
  induction n generalizing acc with
  | zero => simp [sha1Extend]
  | succ n ih => simp [sha1Extend, ih]; omega

end Sys2Proof.Machine
end

