-- ==== Sys2Proof/Laws/State.lean ====
section
/-! SUPPORT. What each named update of the state leaves in each field. -/

namespace Sys2Proof.Machine

@[simp] theorem finish_cfg (s : State) : (finish s).cfg = s.cfg := rfl
@[simp] theorem finish_cmd (s : State) : (finish s).cmd = none := rfl
@[simp] theorem finish_x (s : State) : (finish s).x = s.x := rfl
@[simp] theorem finish_y (s : State) : (finish s).y = s.y := rfl
@[simp] theorem finish_r (s : State) : (finish s).r = s.r := rfl
@[simp] theorem finish_mlen (s : State) : (finish s).mlen = s.mlen := rfl
@[simp] theorem finish_klen (s : State) : (finish s).klen = s.klen := rfl
@[simp] theorem finish_wlen (s : State) : (finish s).wlen = s.wlen := rfl
@[simp] theorem finish_bitlen (s : State) : (finish s).bitlen = s.bitlen := rfl
@[simp] theorem finish_olen (s : State) : (finish s).olen = s.olen := rfl
@[simp] theorem finish_m (s : State) : (finish s).m = s.m := rfl
@[simp] theorem finish_k (s : State) : (finish s).k = s.k := rfl
@[simp] theorem finish_wb (s : State) : (finish s).wb = s.wb := rfl
@[simp] theorem finish_o (s : State) : (finish s).o = s.o := rfl
@[simp] theorem finish_phase (s : State) : (finish s).phase = .idle := rfl
@[simp] theorem finish_int (s : State) : (finish s).int = leftover s.fresh := rfl
@[simp] theorem finish_fault (s : State) : (finish s).fault = s.fault := rfl
@[simp] theorem finish_wbCmd (s : State) : (finish s).wbCmd = s.wbCmd := rfl
@[simp] theorem finish_pending (s : State) : (finish s).pending = s.pending := rfl
@[simp] theorem finish_reads (s : State) : (finish s).reads = s.reads := rfl
@[simp] theorem finish_fresh (s : State) : (finish s).fresh = s.fresh + 1 := rfl

@[simp] theorem putResult_cfg (v : Word) (s : State) : (putResult v s).cfg = s.cfg := rfl
@[simp] theorem putResult_cmd (v : Word) (s : State) : (putResult v s).cmd = s.cmd := rfl
@[simp] theorem putResult_x (v : Word) (s : State) : (putResult v s).x = s.x := rfl
@[simp] theorem putResult_y (v : Word) (s : State) : (putResult v s).y = s.y := rfl
@[simp] theorem putResult_r (v : Word) (s : State) : (putResult v s).r = v := rfl
@[simp] theorem putResult_mlen (v : Word) (s : State) : (putResult v s).mlen = s.mlen := rfl
@[simp] theorem putResult_klen (v : Word) (s : State) : (putResult v s).klen = s.klen := rfl
@[simp] theorem putResult_wlen (v : Word) (s : State) : (putResult v s).wlen = s.wlen := rfl
@[simp] theorem putResult_bitlen (v : Word) (s : State) : (putResult v s).bitlen = s.bitlen := rfl
@[simp] theorem putResult_olen (v : Word) (s : State) : (putResult v s).olen = s.olen := rfl
@[simp] theorem putResult_m (v : Word) (s : State) : (putResult v s).m = s.m := rfl
@[simp] theorem putResult_k (v : Word) (s : State) : (putResult v s).k = s.k := rfl
@[simp] theorem putResult_wb (v : Word) (s : State) : (putResult v s).wb = s.wb := rfl
@[simp] theorem putResult_o (v : Word) (s : State) : (putResult v s).o = s.o := rfl
@[simp] theorem putResult_phase (v : Word) (s : State) : (putResult v s).phase = s.phase := rfl
@[simp] theorem putResult_int (v : Word) (s : State) : (putResult v s).int = s.int := rfl
@[simp] theorem putResult_fault (v : Word) (s : State) : (putResult v s).fault = s.fault := rfl
@[simp] theorem putResult_wbCmd (v : Word) (s : State) : (putResult v s).wbCmd = s.wbCmd := rfl
@[simp] theorem putResult_pending (v : Word) (s : State) : (putResult v s).pending = s.pending := rfl
@[simp] theorem putResult_reads (v : Word) (s : State) : (putResult v s).reads = s.reads := rfl
@[simp] theorem putResult_fresh (v : Word) (s : State) : (putResult v s).fresh = s.fresh := rfl

@[simp] theorem putPacked_cfg (ws : List Word) (n : Nat) (s : State) : (putPacked ws n s).cfg = s.cfg := rfl
@[simp] theorem putPacked_cmd (ws : List Word) (n : Nat) (s : State) : (putPacked ws n s).cmd = s.cmd := rfl
@[simp] theorem putPacked_x (ws : List Word) (n : Nat) (s : State) : (putPacked ws n s).x = s.x := rfl
@[simp] theorem putPacked_y (ws : List Word) (n : Nat) (s : State) : (putPacked ws n s).y = s.y := rfl
@[simp] theorem putPacked_r (ws : List Word) (n : Nat) (s : State) : (putPacked ws n s).r = s.r := rfl
@[simp] theorem putPacked_mlen (ws : List Word) (n : Nat) (s : State) : (putPacked ws n s).mlen = s.mlen := rfl
@[simp] theorem putPacked_klen (ws : List Word) (n : Nat) (s : State) : (putPacked ws n s).klen = s.klen := rfl
@[simp] theorem putPacked_wlen (ws : List Word) (n : Nat) (s : State) : (putPacked ws n s).wlen = BitVec.ofNat 32 ws.length := rfl
@[simp] theorem putPacked_bitlen (ws : List Word) (n : Nat) (s : State) : (putPacked ws n s).bitlen = BitVec.ofNat 32 n := rfl
@[simp] theorem putPacked_olen (ws : List Word) (n : Nat) (s : State) : (putPacked ws n s).olen = s.olen := rfl
@[simp] theorem putPacked_m (ws : List Word) (n : Nat) (s : State) : (putPacked ws n s).m = s.m := rfl
@[simp] theorem putPacked_k (ws : List Word) (n : Nat) (s : State) : (putPacked ws n s).k = s.k := rfl
@[simp] theorem putPacked_wb (ws : List Word) (n : Nat) (s : State) : (putPacked ws n s).wb = bufOver ws s.wb := rfl
@[simp] theorem putPacked_o (ws : List Word) (n : Nat) (s : State) : (putPacked ws n s).o = s.o := rfl
@[simp] theorem putPacked_phase (ws : List Word) (n : Nat) (s : State) : (putPacked ws n s).phase = s.phase := rfl
@[simp] theorem putPacked_int (ws : List Word) (n : Nat) (s : State) : (putPacked ws n s).int = s.int := rfl
@[simp] theorem putPacked_fault (ws : List Word) (n : Nat) (s : State) : (putPacked ws n s).fault = s.fault := rfl
@[simp] theorem putPacked_wbCmd (ws : List Word) (n : Nat) (s : State) : (putPacked ws n s).wbCmd = true := rfl
@[simp] theorem putPacked_pending (ws : List Word) (n : Nat) (s : State) : (putPacked ws n s).pending = s.pending := rfl
@[simp] theorem putPacked_reads (ws : List Word) (n : Nat) (s : State) : (putPacked ws n s).reads = s.reads := rfl
@[simp] theorem putPacked_fresh (ws : List Word) (n : Nat) (s : State) : (putPacked ws n s).fresh = s.fresh := rfl

@[simp] theorem putDigest_cfg (ws : List Word) (n : Nat) (s : State) : (putDigest ws n s).cfg = s.cfg := rfl
@[simp] theorem putDigest_cmd (ws : List Word) (n : Nat) (s : State) : (putDigest ws n s).cmd = s.cmd := rfl
@[simp] theorem putDigest_x (ws : List Word) (n : Nat) (s : State) : (putDigest ws n s).x = s.x := rfl
@[simp] theorem putDigest_y (ws : List Word) (n : Nat) (s : State) : (putDigest ws n s).y = s.y := rfl
@[simp] theorem putDigest_r (ws : List Word) (n : Nat) (s : State) : (putDigest ws n s).r = s.r := rfl
@[simp] theorem putDigest_mlen (ws : List Word) (n : Nat) (s : State) : (putDigest ws n s).mlen = s.mlen := rfl
@[simp] theorem putDigest_klen (ws : List Word) (n : Nat) (s : State) : (putDigest ws n s).klen = s.klen := rfl
@[simp] theorem putDigest_wlen (ws : List Word) (n : Nat) (s : State) : (putDigest ws n s).wlen = BitVec.ofNat 32 ws.length := rfl
@[simp] theorem putDigest_bitlen (ws : List Word) (n : Nat) (s : State) : (putDigest ws n s).bitlen = BitVec.ofNat 32 n := rfl
@[simp] theorem putDigest_olen (ws : List Word) (n : Nat) (s : State) : (putDigest ws n s).olen = s.olen := rfl
@[simp] theorem putDigest_m (ws : List Word) (n : Nat) (s : State) : (putDigest ws n s).m = s.m := rfl
@[simp] theorem putDigest_k (ws : List Word) (n : Nat) (s : State) : (putDigest ws n s).k = s.k := rfl
@[simp] theorem putDigest_wb (ws : List Word) (n : Nat) (s : State) : (putDigest ws n s).wb = bufOfList ws := rfl
@[simp] theorem putDigest_o (ws : List Word) (n : Nat) (s : State) : (putDigest ws n s).o = s.o := rfl
@[simp] theorem putDigest_phase (ws : List Word) (n : Nat) (s : State) : (putDigest ws n s).phase = s.phase := rfl
@[simp] theorem putDigest_int (ws : List Word) (n : Nat) (s : State) : (putDigest ws n s).int = s.int := rfl
@[simp] theorem putDigest_fault (ws : List Word) (n : Nat) (s : State) : (putDigest ws n s).fault = s.fault := rfl
@[simp] theorem putDigest_wbCmd (ws : List Word) (n : Nat) (s : State) : (putDigest ws n s).wbCmd = true := rfl
@[simp] theorem putDigest_pending (ws : List Word) (n : Nat) (s : State) : (putDigest ws n s).pending = s.pending := rfl
@[simp] theorem putDigest_reads (ws : List Word) (n : Nat) (s : State) : (putDigest ws n s).reads = s.reads := rfl
@[simp] theorem putDigest_fresh (ws : List Word) (n : Nat) (s : State) : (putDigest ws n s).fresh = s.fresh := rfl

@[simp] theorem putText_cfg (t : List Byte) (s : State) : (putText t s).cfg = s.cfg := rfl
@[simp] theorem putText_cmd (t : List Byte) (s : State) : (putText t s).cmd = s.cmd := rfl
@[simp] theorem putText_x (t : List Byte) (s : State) : (putText t s).x = s.x := rfl
@[simp] theorem putText_y (t : List Byte) (s : State) : (putText t s).y = s.y := rfl
@[simp] theorem putText_r (t : List Byte) (s : State) : (putText t s).r = s.r := rfl
@[simp] theorem putText_mlen (t : List Byte) (s : State) : (putText t s).mlen = s.mlen := rfl
@[simp] theorem putText_klen (t : List Byte) (s : State) : (putText t s).klen = s.klen := rfl
@[simp] theorem putText_wlen (t : List Byte) (s : State) : (putText t s).wlen = s.wlen := rfl
@[simp] theorem putText_bitlen (t : List Byte) (s : State) : (putText t s).bitlen = s.bitlen := rfl
@[simp] theorem putText_olen (t : List Byte) (s : State) : (putText t s).olen = countReg t.length := rfl
@[simp] theorem putText_m (t : List Byte) (s : State) : (putText t s).m = s.m := rfl
@[simp] theorem putText_k (t : List Byte) (s : State) : (putText t s).k = s.k := rfl
@[simp] theorem putText_wb (t : List Byte) (s : State) : (putText t s).wb = s.wb := rfl
@[simp] theorem putText_o (t : List Byte) (s : State) : (putText t s).o = bufOver t s.o := rfl
@[simp] theorem putText_phase (t : List Byte) (s : State) : (putText t s).phase = s.phase := rfl
@[simp] theorem putText_int (t : List Byte) (s : State) : (putText t s).int = s.int := rfl
@[simp] theorem putText_fault (t : List Byte) (s : State) : (putText t s).fault = s.fault := rfl
@[simp] theorem putText_wbCmd (t : List Byte) (s : State) : (putText t s).wbCmd = s.wbCmd := rfl
@[simp] theorem putText_pending (t : List Byte) (s : State) : (putText t s).pending = s.pending := rfl
@[simp] theorem putText_reads (t : List Byte) (s : State) : (putText t s).reads = s.reads := rfl
@[simp] theorem putText_fresh (t : List Byte) (s : State) : (putText t s).fresh = s.fresh := rfl

@[simp] theorem takeCommand_cfg (c : Word) (s : State) : (takeCommand c s).cfg = s.cfg := rfl
@[simp] theorem takeCommand_cmd (c : Word) (s : State) : (takeCommand c s).cmd = some c := rfl
@[simp] theorem takeCommand_x (c : Word) (s : State) : (takeCommand c s).x = s.x := rfl
@[simp] theorem takeCommand_y (c : Word) (s : State) : (takeCommand c s).y = s.y := rfl
@[simp] theorem takeCommand_r (c : Word) (s : State) : (takeCommand c s).r = s.r := rfl
@[simp] theorem takeCommand_mlen (c : Word) (s : State) : (takeCommand c s).mlen = s.mlen := rfl
@[simp] theorem takeCommand_klen (c : Word) (s : State) : (takeCommand c s).klen = s.klen := rfl
@[simp] theorem takeCommand_wlen (c : Word) (s : State) : (takeCommand c s).wlen = s.wlen := rfl
@[simp] theorem takeCommand_bitlen (c : Word) (s : State) : (takeCommand c s).bitlen = s.bitlen := rfl
@[simp] theorem takeCommand_olen (c : Word) (s : State) : (takeCommand c s).olen = s.olen := rfl
@[simp] theorem takeCommand_m (c : Word) (s : State) : (takeCommand c s).m = s.m := rfl
@[simp] theorem takeCommand_k (c : Word) (s : State) : (takeCommand c s).k = s.k := rfl
@[simp] theorem takeCommand_wb (c : Word) (s : State) : (takeCommand c s).wb = s.wb := rfl
@[simp] theorem takeCommand_o (c : Word) (s : State) : (takeCommand c s).o = s.o := rfl
@[simp] theorem takeCommand_phase (c : Word) (s : State) : (takeCommand c s).phase = s.phase := rfl
@[simp] theorem takeCommand_int (c : Word) (s : State) : (takeCommand c s).int = s.int := rfl
@[simp] theorem takeCommand_fault (c : Word) (s : State) : (takeCommand c s).fault = s.fault := rfl
@[simp] theorem takeCommand_wbCmd (c : Word) (s : State) : (takeCommand c s).wbCmd = s.wbCmd := rfl
@[simp] theorem takeCommand_pending (c : Word) (s : State) : (takeCommand c s).pending = s.pending := rfl
@[simp] theorem takeCommand_reads (c : Word) (s : State) : (takeCommand c s).reads = s.reads := rfl
@[simp] theorem takeCommand_fresh (c : Word) (s : State) : (takeCommand c s).fresh = s.fresh := rfl

@[simp] theorem dropEvent_cfg (es : List HostEvent) (s : State) : (dropEvent es s).cfg = s.cfg := rfl
@[simp] theorem dropEvent_cmd (es : List HostEvent) (s : State) : (dropEvent es s).cmd = s.cmd := rfl
@[simp] theorem dropEvent_x (es : List HostEvent) (s : State) : (dropEvent es s).x = s.x := rfl
@[simp] theorem dropEvent_y (es : List HostEvent) (s : State) : (dropEvent es s).y = s.y := rfl
@[simp] theorem dropEvent_r (es : List HostEvent) (s : State) : (dropEvent es s).r = s.r := rfl
@[simp] theorem dropEvent_mlen (es : List HostEvent) (s : State) : (dropEvent es s).mlen = s.mlen := rfl
@[simp] theorem dropEvent_klen (es : List HostEvent) (s : State) : (dropEvent es s).klen = s.klen := rfl
@[simp] theorem dropEvent_wlen (es : List HostEvent) (s : State) : (dropEvent es s).wlen = s.wlen := rfl
@[simp] theorem dropEvent_bitlen (es : List HostEvent) (s : State) : (dropEvent es s).bitlen = s.bitlen := rfl
@[simp] theorem dropEvent_olen (es : List HostEvent) (s : State) : (dropEvent es s).olen = s.olen := rfl
@[simp] theorem dropEvent_m (es : List HostEvent) (s : State) : (dropEvent es s).m = s.m := rfl
@[simp] theorem dropEvent_k (es : List HostEvent) (s : State) : (dropEvent es s).k = s.k := rfl
@[simp] theorem dropEvent_wb (es : List HostEvent) (s : State) : (dropEvent es s).wb = s.wb := rfl
@[simp] theorem dropEvent_o (es : List HostEvent) (s : State) : (dropEvent es s).o = s.o := rfl
@[simp] theorem dropEvent_phase (es : List HostEvent) (s : State) : (dropEvent es s).phase = s.phase := rfl
@[simp] theorem dropEvent_int (es : List HostEvent) (s : State) : (dropEvent es s).int = s.int := rfl
@[simp] theorem dropEvent_fault (es : List HostEvent) (s : State) : (dropEvent es s).fault = s.fault := rfl
@[simp] theorem dropEvent_wbCmd (es : List HostEvent) (s : State) : (dropEvent es s).wbCmd = s.wbCmd := rfl
@[simp] theorem dropEvent_pending (es : List HostEvent) (s : State) : (dropEvent es s).pending = es := rfl
@[simp] theorem dropEvent_reads (es : List HostEvent) (s : State) : (dropEvent es s).reads = s.reads := rfl
@[simp] theorem dropEvent_fresh (es : List HostEvent) (s : State) : (dropEvent es s).fresh = s.fresh := rfl

@[simp] theorem pushCommand_cfg (c : Word) (s : State) : (pushCommand c s).cfg = s.cfg := rfl
@[simp] theorem pushCommand_cmd (c : Word) (s : State) : (pushCommand c s).cmd = s.cmd := rfl
@[simp] theorem pushCommand_x (c : Word) (s : State) : (pushCommand c s).x = s.x := rfl
@[simp] theorem pushCommand_y (c : Word) (s : State) : (pushCommand c s).y = s.y := rfl
@[simp] theorem pushCommand_r (c : Word) (s : State) : (pushCommand c s).r = s.r := rfl
@[simp] theorem pushCommand_mlen (c : Word) (s : State) : (pushCommand c s).mlen = s.mlen := rfl
@[simp] theorem pushCommand_klen (c : Word) (s : State) : (pushCommand c s).klen = s.klen := rfl
@[simp] theorem pushCommand_wlen (c : Word) (s : State) : (pushCommand c s).wlen = s.wlen := rfl
@[simp] theorem pushCommand_bitlen (c : Word) (s : State) : (pushCommand c s).bitlen = s.bitlen := rfl
@[simp] theorem pushCommand_olen (c : Word) (s : State) : (pushCommand c s).olen = s.olen := rfl
@[simp] theorem pushCommand_m (c : Word) (s : State) : (pushCommand c s).m = s.m := rfl
@[simp] theorem pushCommand_k (c : Word) (s : State) : (pushCommand c s).k = s.k := rfl
@[simp] theorem pushCommand_wb (c : Word) (s : State) : (pushCommand c s).wb = s.wb := rfl
@[simp] theorem pushCommand_o (c : Word) (s : State) : (pushCommand c s).o = s.o := rfl
@[simp] theorem pushCommand_phase (c : Word) (s : State) : (pushCommand c s).phase = s.phase := rfl
@[simp] theorem pushCommand_int (c : Word) (s : State) : (pushCommand c s).int = s.int := rfl
@[simp] theorem pushCommand_fault (c : Word) (s : State) : (pushCommand c s).fault = none := rfl
@[simp] theorem pushCommand_wbCmd (c : Word) (s : State) : (pushCommand c s).wbCmd = s.wbCmd := rfl
@[simp] theorem pushCommand_pending (c : Word) (s : State) : (pushCommand c s).pending = .write .reg 0 c :: s.pending := rfl
@[simp] theorem pushCommand_reads (c : Word) (s : State) : (pushCommand c s).reads = s.reads := rfl
@[simp] theorem pushCommand_fresh (c : Word) (s : State) : (pushCommand c s).fresh = s.fresh := rfl

@[simp] theorem applyReset_cfg (s : State) : (applyReset s).cfg = s.cfg := rfl
@[simp] theorem applyReset_cmd (s : State) : (applyReset s).cmd = State.reset.cmd := rfl
@[simp] theorem applyReset_x (s : State) : (applyReset s).x = State.reset.x := rfl
@[simp] theorem applyReset_y (s : State) : (applyReset s).y = State.reset.y := rfl
@[simp] theorem applyReset_r (s : State) : (applyReset s).r = State.reset.r := rfl
@[simp] theorem applyReset_mlen (s : State) : (applyReset s).mlen = State.reset.mlen := rfl
@[simp] theorem applyReset_klen (s : State) : (applyReset s).klen = State.reset.klen := rfl
@[simp] theorem applyReset_wlen (s : State) : (applyReset s).wlen = State.reset.wlen := rfl
@[simp] theorem applyReset_bitlen (s : State) : (applyReset s).bitlen = State.reset.bitlen := rfl
@[simp] theorem applyReset_olen (s : State) : (applyReset s).olen = State.reset.olen := rfl
@[simp] theorem applyReset_m (s : State) : (applyReset s).m = State.reset.m := rfl
@[simp] theorem applyReset_k (s : State) : (applyReset s).k = State.reset.k := rfl
@[simp] theorem applyReset_wb (s : State) : (applyReset s).wb = State.reset.wb := rfl
@[simp] theorem applyReset_o (s : State) : (applyReset s).o = State.reset.o := rfl
@[simp] theorem applyReset_phase (s : State) : (applyReset s).phase = State.reset.phase := rfl
@[simp] theorem applyReset_int (s : State) : (applyReset s).int = leftover s.fresh := rfl
@[simp] theorem applyReset_fault (s : State) : (applyReset s).fault = State.reset.fault := rfl
@[simp] theorem applyReset_wbCmd (s : State) : (applyReset s).wbCmd = State.reset.wbCmd := rfl
@[simp] theorem applyReset_pending (s : State) : (applyReset s).pending = s.pending := rfl
@[simp] theorem applyReset_reads (s : State) : (applyReset s).reads = s.reads := rfl
@[simp] theorem applyReset_fresh (s : State) : (applyReset s).fresh = s.fresh + 1 := rfl

@[simp] theorem enterFault_cfg (why : Fault) (s : State) : (enterFault why s).cfg = s.cfg := rfl
@[simp] theorem enterFault_cmd (why : Fault) (s : State) : (enterFault why s).cmd = s.cmd := rfl
@[simp] theorem enterFault_x (why : Fault) (s : State) : (enterFault why s).x = Config.freeWord s.fresh 144 := rfl
@[simp] theorem enterFault_y (why : Fault) (s : State) : (enterFault why s).y = Config.freeWord s.fresh 145 := rfl
@[simp] theorem enterFault_r (why : Fault) (s : State) : (enterFault why s).r = Config.freeWord s.fresh 146 := rfl
@[simp] theorem enterFault_mlen (why : Fault) (s : State) : (enterFault why s).mlen = Config.freeWord s.fresh 147 := rfl
@[simp] theorem enterFault_klen (why : Fault) (s : State) : (enterFault why s).klen = Config.freeWord s.fresh 148 := rfl
@[simp] theorem enterFault_wlen (why : Fault) (s : State) : (enterFault why s).wlen = Config.freeWord s.fresh 149 := rfl
@[simp] theorem enterFault_bitlen (why : Fault) (s : State) : (enterFault why s).bitlen = Config.freeWord s.fresh 150 := rfl
@[simp] theorem enterFault_olen (why : Fault) (s : State) : (enterFault why s).olen = Config.freeWord s.fresh 151 := rfl
@[simp] theorem enterFault_m (why : Fault) (s : State) : (enterFault why s).m = [] := rfl
@[simp] theorem enterFault_k (why : Fault) (s : State) : (enterFault why s).k = [] := rfl
@[simp] theorem enterFault_wb (why : Fault) (s : State) : (enterFault why s).wb = [] := rfl
@[simp] theorem enterFault_o (why : Fault) (s : State) : (enterFault why s).o = [] := rfl
@[simp] theorem enterFault_phase (why : Fault) (s : State) : (enterFault why s).phase = s.phase := rfl
@[simp] theorem enterFault_int (why : Fault) (s : State) : (enterFault why s).int = leftover s.fresh := rfl
@[simp] theorem enterFault_fault (why : Fault) (s : State) : (enterFault why s).fault = some why := rfl
@[simp] theorem enterFault_wbCmd (why : Fault) (s : State) : (enterFault why s).wbCmd = false := rfl
@[simp] theorem enterFault_pending (why : Fault) (s : State) : (enterFault why s).pending = s.pending := rfl
@[simp] theorem enterFault_reads (why : Fault) (s : State) : (enterFault why s).reads = s.reads := rfl
@[simp] theorem enterFault_fresh (why : Fault) (s : State) : (enterFault why s).fresh = s.fresh + 1 := rfl

@[simp] theorem settle_next (s t : State) : settle s (.next t) = .next t := rfl
@[simp] theorem settle_fault (s : State) (why : Fault) : settle s (.fault why) = .next (enterFault why s) := rfl
@[simp] theorem settle_refused (s : State) (why : Refusal) : settle s (.refused why) = .refused why := rfl

end Sys2Proof.Machine
end

