-- ==== Sys2Proof/Laws/Commands.lean ====
section
/-! SUPPORT. What each shared operation can do, said once: if it answers a next state, its precondition held and the next state is
this one. -/

namespace Sys2Proof.Machine

/-- The next state of a scalar command. -/
theorem scalarCommand_next {f : Word → Word → Word} {s t : State} (h : scalarCommand f s = .next t) :
    t = finish (putResult (f s.x s.y) s) := by
  cases h; rfl

/-- The next state of a pack command. -/
theorem packCommand_next {ord : ByteOrder} {s t : State} (h : packCommand ord s = .next t) :
    packFits s = true ∧ ∃ cs, textM s = some cs ∧ t = finish (putPacked (pack ord cs) (8 * s.mlen.toNat) s) := by
  unfold packCommand at h
  split at h
  · split at h
    · exact ⟨by assumption, _, by assumption, by cases h; rfl⟩
    · cases h
  · cases h

/-- The next state of a rendering command. -/
theorem renderCommand_next {f : List Word → List Byte} {size : Nat → Nat} {s t : State}
    (h : renderCommand f size s = .next t) :
    capFits s.wlen.toNat s.cfg.wcap = true ∧ capFits (size s.wlen.toNat) s.cfg.ocap = true
      ∧ ∃ x, wordArray s = some x ∧ t = finish (putText (f x) s) := by
  unfold renderCommand at h
  split at h
  · rename_i hc
    obtain ⟨h1, h2⟩ : _ ∧ _ := by simpa using hc
    split at h
    · exact ⟨h1, h2, _, by assumption, by cases h; rfl⟩
    · cases h
  · cases h

/-- The next state of a core command. -/
theorem coreCommand_next {ord : ByteOrder} {core : List Word → Nat → List Word} {bits : Nat} {s t : State}
    (h : coreCommand ord core bits s = .next t) :
    lengthsInconsistent ord s = false ∧ capFits s.wlen.toNat s.cfg.wcap = true
      ∧ capFits (padLength s.bitlen.toNat) s.cfg.wcap = true
      ∧ ∃ x, wordArray s = some x ∧ t = finish (putDigest (core x s.bitlen.toNat) bits s) := by
  unfold coreCommand at h
  split at h
  · cases h
  · rename_i hi
    split at h
    · rename_i hc
      obtain ⟨h1, h2⟩ : _ ∧ _ := by simpa using hc
      split at h
      · exact ⟨by simpa using hi, h1, h2, _, by assumption, by cases h; rfl⟩
      · cases h
    · cases h

/-- The next state of HMACSHA1. -/
theorem execHmacsha1_next {s t : State} (h : execHmacsha1 s = .next t) :
    hmacKeyFits s = true ∧ hmacDataFits s = true
      ∧ ∃ key data, textK s = some key ∧ textM s = some data ∧ t = finish (putDigest (hmacSha1 key data) 160 s) := by
  unfold execHmacsha1 at h
  split at h
  · rename_i hc
    obtain ⟨h1, h2⟩ : _ ∧ _ := by simpa using hc
    split at h
    · exact ⟨h1, h2, _, _, by assumption, by assumption, by cases h; rfl⟩
    · cases h
  · cases h

/-- The next state of ROL32. -/
theorem execRol32_next {s t : State} (h : execRol32 s = .next t) :
    rotateCountBad s = false ∧ t = finish (putResult (rol32 s.x s.y.toNat) s) := by
  unfold execRol32 at h
  split at h
  · cases h
  · exact ⟨by simp_all, scalarCommand_next h⟩

/-- Every next state of a command: the end of a command that wrote R, or a packed text or a digest with the lengths of WB, or O and
its length, and nothing else. -/
theorem exec_next {i : Instr} {s t : State} (h : exec i s = .next t) :
    (∃ v, t = finish (putResult v s)) ∨ (∃ ws n, t = finish (putPacked ws n s))
      ∨ (∃ ws n, t = finish (putDigest ws n s)) ∨ (∃ bs, t = finish (putText bs s)) := by
  cases i with
  | add32 => exact .inl ⟨_, scalarCommand_next h⟩
  | rol32 => exact .inl ⟨_, (execRol32_next h).2⟩
  | packle => obtain ⟨-, _, -, h⟩ := packCommand_next h; exact .inr (.inl ⟨_, _, h⟩)
  | packbe => obtain ⟨-, _, -, h⟩ := packCommand_next h; exact .inr (.inl ⟨_, _, h⟩)
  | unpackle => obtain ⟨-, -, _, -, h⟩ := renderCommand_next h; exact .inr (.inr (.inr ⟨_, h⟩))
  | unpackbe => obtain ⟨-, -, _, -, h⟩ := renderCommand_next h; exact .inr (.inr (.inr ⟨_, h⟩))
  | hexle => obtain ⟨-, -, _, -, h⟩ := renderCommand_next h; exact .inr (.inr (.inr ⟨_, h⟩))
  | hexbe => obtain ⟨-, -, _, -, h⟩ := renderCommand_next h; exact .inr (.inr (.inr ⟨_, h⟩))
  | b64be => obtain ⟨-, -, _, -, h⟩ := renderCommand_next h; exact .inr (.inr (.inr ⟨_, h⟩))
  | md5core => obtain ⟨-, -, -, _, -, h⟩ := coreCommand_next h; exact .inr (.inr (.inl ⟨_, _, h⟩))
  | sha1core => obtain ⟨-, -, -, _, -, h⟩ := coreCommand_next h; exact .inr (.inr (.inl ⟨_, _, h⟩))
  | hmacsha1 => obtain ⟨-, -, _, _, -, -, h⟩ := execHmacsha1_next h; exact .inr (.inr (.inl ⟨_, _, h⟩))

/-- What R53 (c) asks of a read of WB. -/
theorem wbReadable_iff {s : State} {index : Nat} :
    wbReadable s index = true ↔ (s.wbCmd = true → index < s.wlen.toNat) := by
  unfold wbReadable
  cases h : s.wbCmd <;> simp

/-- A host read returns a readable element and changes nothing else. -/
theorem hostRead_next {space : Space} {index : Nat} {s t : State} (h : hostRead space index s = .next t) :
    ∃ v, readElem s space index = some v ∧ t = { s with reads := s.reads ++ [v] } := by
  unfold hostRead at h
  split at h
  · exact ⟨_, by assumption, by cases h; rfl⟩
  · cases h

/-- A command issue runs a decoded command. -/
theorem issue_next {c : Word} {s t : State} (h : issue c s = .next t) :
    ∃ i, decode c = .command i ∧ exec i (takeCommand c s) = .next t := by
  unfold issue at h
  split at h
  · exact ⟨_, by assumption, h⟩
  · cases h

/-- A host write is a command issue or a store. -/
theorem hostWrite_next {space : Space} {index : Nat} {v : Word} {s t : State} (h : hostWrite space index v s = .next t) :
    (space = .reg ∧ index = 0 ∧ issue v s = .next t) ∨ writeElem space index v s = some t := by
  unfold hostWrite at h
  split at h
  · rename_i hc; exact .inl ⟨hc.1, hc.2, h⟩
  · split at h
    · refine .inr ?_; simp_all
    · cases h

/-- Every next state of an event: a host read, a store, a command, or a reset. -/
theorem serve_next {e : HostEvent} {s t : State} (h : serve e s = .next t) :
    (∃ space index, hostRead space index s = .next t) ∨ (∃ space index v, writeElem space index v s = some t)
      ∨ (∃ c i, decode c = .command i ∧ exec i (takeCommand c s) = .next t) ∨ (e = .reset ∧ t = applyReset s) := by
  have hw : ∀ {space index v}, hostWrite space index v s = .next t →
      (∃ space index, hostRead space index s = .next t) ∨ (∃ space index v, writeElem space index v s = some t)
      ∨ (∃ c i, decode c = .command i ∧ exec i (takeCommand c s) = .next t) ∨ (e = .reset ∧ t = applyReset s) := by
    intro space index v h
    rcases hostWrite_next h with ⟨-, -, h⟩ | h
    · obtain ⟨i, hd, he⟩ := issue_next h; exact .inr (.inr (.inl ⟨_, i, hd, he⟩))
    · exact .inr (.inl ⟨_, _, _, h⟩)
  unfold serve at h
  split at h
  · exact .inl ⟨_, _, h⟩
  · exact hw h
  · split at h
    · exact .inl ⟨_, _, h⟩
    · cases h
    · cases h
  · split at h
    · exact hw h
    · cases h
    · cases h
  · exact .inr (.inr (.inr ⟨rfl, by cases h; rfl⟩))

/-- Every next state that settling an event leaves: the event's own, or a fault state. -/
theorem settle_eq_next {s t : State} {o : Host.Outcome State Fault Refusal} (h : settle s o = .next t) :
    o = .next t ∨ ∃ why, o = .fault why ∧ t = enterFault why s := by
  cases o with
  | next u => exact .inl h
  | fault why => exact .inr ⟨why, rfl, by cases h; rfl⟩
  | refused why => cases h

/-- A step in no fault state serves the first event and settles its outcome. -/
theorem step_running {s : State} {e : HostEvent} {rest : List HostEvent} (hf : s.fault = none) (hp : s.pending = e :: rest) :
    step s = settle (dropEvent rest s) (serve e (dropEvent rest s)) := by
  simp [step, serveNext, hf, serveRunning, hp]

/-- Every next state of a step in no fault state: the same state when the host does nothing, else the next state of its first event,
or a fault state that event led to. -/
theorem step_next {s t : State} (hf : s.fault = none) (h : step s = .next t) :
    (s.pending = [] ∧ t = s) ∨ ∃ e rest, s.pending = e :: rest
      ∧ (serve e (dropEvent rest s) = .next t
        ∨ ∃ why, serve e (dropEvent rest s) = .fault why ∧ t = enterFault why (dropEvent rest s)) := by
  unfold step serveNext at h
  simp only [hf, serveRunning] at h
  split at h
  · exact .inl ⟨by assumption, by cases h; rfl⟩
  · exact .inr ⟨_, _, by assumption, settle_eq_next h⟩

/-- Every next state of a step in a fault state: a reset, or the same state with its first event gone. -/
theorem step_next_faulted {s t : State} {why : Fault} (hf : s.fault = some why) (h : step s = .next t) :
    ∃ e rest, s.pending = e :: rest
      ∧ ((e = .reset ∧ t = applyReset (dropEvent rest s)) ∨ (e ≠ .reset ∧ t = dropEvent rest s)) := by
  unfold step serveNext at h
  simp only [hf, serveFaulted] at h
  split at h
  · cases h
  · exact ⟨_, _, by assumption, .inl ⟨rfl, by cases h; rfl⟩⟩
  · rename_i hne hp
    exact ⟨_, _, hp, .inr ⟨hne, by cases h; rfl⟩⟩

end Sys2Proof.Machine
end

