-- ==== Sys2Proof/Laws/Memory.lean ====
section
/-! SUPPORT. Every memory operation keeps the canonical form of the four buffers, and reset has it. -/

namespace Sys2Proof.Machine

theorem memory_wf_reset : Memory.wf State.reset := by simp [Memory.wf, State.reset, bufWf]

theorem memory_wf_finish {s : State} (h : Memory.wf s) : Memory.wf (finish s) := h

theorem memory_wf_putResult {s : State} (h : Memory.wf s) (v : Word) : Memory.wf (putResult v s) := h

theorem memory_wf_putPacked {s : State} (h : Memory.wf s) (ws : List Word) (n : Nat) : Memory.wf (putPacked ws n s) :=
  ⟨h.1, h.2.1, bufWf_bufOver ws h.2.2.1, h.2.2.2⟩

theorem memory_wf_putDigest {s : State} (h : Memory.wf s) (ws : List Word) (n : Nat) : Memory.wf (putDigest ws n s) :=
  ⟨h.1, h.2.1, bufWf_bufOfList ws, h.2.2.2⟩

theorem memory_wf_putText {s : State} (h : Memory.wf s) (bs : List Byte) : Memory.wf (putText bs s) :=
  ⟨h.1, h.2.1, h.2.2.1, bufWf_bufOver bs h.2.2.2⟩

theorem memory_wf_enterFault (why : Fault) (s : State) : Memory.wf (enterFault why s) := by
  simp [Memory.wf, bufWf]

theorem memory_wf_applyReset (s : State) : Memory.wf (applyReset s) := by
  simp [Memory.wf, State.reset, bufWf]

theorem memory_wf_writeReg {s t : State} (h : Memory.wf s) {v : Word} {name : RegName} (hw : writeReg v s name = some t) :
    Memory.wf t := by
  cases name <;> simp [writeReg] at hw <;> subst hw <;> exact h

/-- A store keeps the canonical form. -/
theorem memory_wf_writeElem {s t : State} (h : Memory.wf s) {space : Space} {index : Nat} {v : Word}
    (hw : writeElem space index v s = some t) : Memory.wf t := by
  obtain ⟨hm, hk, hwb, ho⟩ := h
  cases space with
  | reg =>
    simp only [writeElem] at hw
    split at hw
    · exact memory_wf_writeReg ⟨hm, hk, hwb, ho⟩ hw
    · cases hw
  | m =>
    simp only [writeElem] at hw
    split at hw
    · cases hw; exact ⟨bufWf_bufSet hm _ _, hk, hwb, ho⟩
    · cases hw
  | k =>
    simp only [writeElem] at hw
    split at hw
    · cases hw; exact ⟨hm, bufWf_bufSet hk _ _, hwb, ho⟩
    · cases hw
  | wb =>
    simp only [writeElem] at hw
    split at hw
    · cases hw; exact ⟨hm, hk, bufWf_bufSet hwb _ _, ho⟩
    · cases hw
  | o => cases hw

end Sys2Proof.Machine
end

