-- ==== Sys2Proof/Laws/Outcomes.lean ====
section
/-! SUPPORT. Every outcome of each shared operation, said once, in the words of Safety.lean: the next state on its precondition, and
otherwise the fault with the condition that failed. -/

namespace Sys2Proof.Machine

theorem capFits_iff_withinCap {n : Nat} {cap : Option Nat} : capFits n cap = true ↔ WithinCap n cap := by
  cases cap <;> simp [WithinCap]

theorem heldUpTo_iff {α : Type} {b : Buffer α} {n : Nat} : HeldUpTo b n ↔ ∃ vs, readAll b n = some vs := by
  constructor
  · intro h
    cases hr : readAll b n with
    | some vs => exact ⟨vs, rfl⟩
    | none =>
      obtain ⟨k, hk, hb⟩ := readAll_eq_none.1 hr
      simpa [hb] using h k hk
  · rintro ⟨vs, hv⟩ k hk
    obtain ⟨hl, hg⟩ := readAll_eq_some.1 hv
    rw [hg k hk]
    simp
    omega

theorem readAll_none_iff {α : Type} {b : Buffer α} {n : Nat} : readAll b n = none ↔ ¬ HeldUpTo b n := by
  rw [heldUpTo_iff]
  cases readAll b n <;> simp

/-- ROL32: the rotation, or the fault for a count above 31. -/
theorem execRol32_cases (s : State) :
    (s.y.toNat ≤ 31 ∧ execRol32 s = .next (finish (putResult (rol32 s.x s.y.toNat) s)))
      ∨ (31 < s.y.toNat ∧ execRol32 s = .fault .badRotateCount) := by
  by_cases h : 31 < s.y.toNat
  · exact .inr ⟨h, by simp [execRol32, rotateCountBad, h]⟩
  · exact .inl ⟨by omega, by simp [execRol32, rotateCountBad, h, scalarCommand]⟩

/-- A rendering command. -/
theorem renderCommand_cases (f : List Word → List Byte) (size : Nat → Nat) (s : State) :
    ((WithinCap s.wlen.toNat s.cfg.wcap ∧ WithinCap (size s.wlen.toNat) s.cfg.ocap)
        ∧ ∃ x, wordArray s = some x ∧ renderCommand f size s = .next (finish (putText (f x) s)))
      ∨ (¬ (WithinCap s.wlen.toNat s.cfg.wcap ∧ WithinCap (size s.wlen.toNat) s.cfg.ocap)
          ∧ renderCommand f size s = .fault .capacity)
      ∨ ((WithinCap s.wlen.toNat s.cfg.wcap ∧ WithinCap (size s.wlen.toNat) s.cfg.ocap)
          ∧ ¬ HeldUpTo s.wb s.wlen.toNat ∧ renderCommand f size s = .fault .readUnwritten) := by
  rw [← capFits_iff_withinCap, ← capFits_iff_withinCap, ← Bool.and_eq_true]
  by_cases hc : (capFits s.wlen.toNat s.cfg.wcap && capFits (size s.wlen.toNat) s.cfg.ocap) = true
  · cases hx : wordArray s with
    | some x => exact .inl ⟨hc, x, rfl, by simp [renderCommand, hc, hx]⟩
    | none => exact .inr (.inr ⟨hc, readAll_none_iff.1 hx, by simp [renderCommand, hc, hx]⟩)
  · exact .inr (.inl ⟨hc, by simp [renderCommand, hc]⟩)

theorem packFits_iff {s : State} : packFits s = true ↔
    WithinCap s.mlen.toNat s.cfg.mcap ∧ WithinCap (wordsFor s.mlen.toNat) s.cfg.wcap ∧ 8 * s.mlen.toNat < 2 ^ 32 := by
  simp only [packFits, Bool.and_eq_true, capFits_iff_withinCap, decide_eq_true_eq, and_assoc]

/-- A pack command. -/
theorem packCommand_cases (ord : ByteOrder) (s : State) :
    (packFits s = true
        ∧ ∃ cs, textM s = some cs ∧ packCommand ord s = .next (finish (putPacked (pack ord cs) (8 * s.mlen.toNat) s)))
      ∨ (packFits s = false ∧ packCommand ord s = .fault .capacity)
      ∨ (packFits s = true ∧ ¬ HeldUpTo s.m s.mlen.toNat ∧ packCommand ord s = .fault .readUnwritten) := by
  by_cases hc : packFits s = true
  · cases hx : textM s with
    | some cs => exact .inl ⟨hc, cs, rfl, by simp [packCommand, hc, hx]⟩
    | none => exact .inr (.inr ⟨hc, readAll_none_iff.1 hx, by simp [packCommand, hc, hx]⟩)
  · exact .inr (.inl ⟨by simpa using hc, by simp [packCommand, hc]⟩)

/-- A core command, in the words of its own definition. -/
theorem coreCommand_cases (ord : ByteOrder) (core : List Word → Nat → List Word) (bits : Nat) (s : State) :
    (lengthsInconsistent ord s = true ∧ coreCommand ord core bits s = .fault .inconsistentLength)
      ∨ (lengthsInconsistent ord s = false
          ∧ ¬ (WithinCap s.wlen.toNat s.cfg.wcap ∧ WithinCap (padLength s.bitlen.toNat) s.cfg.wcap)
          ∧ coreCommand ord core bits s = .fault .capacity)
      ∨ (lengthsInconsistent ord s = false
          ∧ (WithinCap s.wlen.toNat s.cfg.wcap ∧ WithinCap (padLength s.bitlen.toNat) s.cfg.wcap)
          ∧ ((¬ HeldUpTo s.wb s.wlen.toNat ∧ coreCommand ord core bits s = .fault .readUnwritten)
            ∨ ∃ x, wordArray s = some x
                ∧ coreCommand ord core bits s = .next (finish (putDigest (core x s.bitlen.toNat) bits s)))) := by
  rw [← capFits_iff_withinCap, ← capFits_iff_withinCap, ← Bool.and_eq_true]
  by_cases hi : lengthsInconsistent ord s = true
  · exact .inl ⟨hi, by simp [coreCommand, hi]⟩
  · have hi' : lengthsInconsistent ord s = false := by simpa using hi
    by_cases hc : (capFits s.wlen.toNat s.cfg.wcap && capFits (padLength s.bitlen.toNat) s.cfg.wcap) = true
    · refine .inr (.inr ⟨hi', hc, ?_⟩)
      cases hx : wordArray s with
      | some x => exact .inr ⟨x, rfl, by simp only [coreCommand, hi', hc, hx]; rfl⟩
      | none => exact .inl ⟨readAll_none_iff.1 hx, by simp only [coreCommand, hi', hc, hx]; rfl⟩
    · exact .inr (.inl ⟨hi', hc, by simp only [coreCommand, hi', hc]; rfl⟩)

/-- HMACSHA1. -/
theorem execHmacsha1_cases (s : State) :
    ((hmacKeyFits s && hmacDataFits s) = true
        ∧ ∃ key data, textK s = some key ∧ textM s = some data
            ∧ execHmacsha1 s = .next (finish (putDigest (hmacSha1 key data) 160 s)))
      ∨ ((hmacKeyFits s && hmacDataFits s) = false ∧ execHmacsha1 s = .fault .capacity)
      ∨ ((hmacKeyFits s && hmacDataFits s) = true
          ∧ ¬ (HeldUpTo s.k s.klen.toNat ∧ HeldUpTo s.m s.mlen.toNat) ∧ execHmacsha1 s = .fault .readUnwritten) := by
  by_cases hc : (hmacKeyFits s && hmacDataFits s) = true
  · cases hk : textK s with
    | none => exact .inr (.inr ⟨hc, fun h => readAll_none_iff.1 hk h.1, by simp only [execHmacsha1, hc, hk]; rfl⟩)
    | some key =>
      cases hm : textM s with
      | none => exact .inr (.inr ⟨hc, fun h => readAll_none_iff.1 hm h.2, by simp only [execHmacsha1, hc, hk, hm]; rfl⟩)
      | some data => exact .inl ⟨hc, key, data, rfl, rfl, by simp only [execHmacsha1, hc, hk, hm]; rfl⟩
  · exact .inr (.inl ⟨by simpa using hc, by simp only [execHmacsha1, hc]; rfl⟩)

/-- The frame of a command that wrote R. -/
theorem finish_putResult_frame (s : State) (v : Word) :
    SameScalars s (finish (putResult v s)) ∧ SameTexts s (finish (putResult v s)) ∧ SameWords s (finish (putResult v s))
      ∧ SameOutput s (finish (putResult v s)) ∧ SameHost s (finish (putResult v s)) ∧ AtRest (finish (putResult v s)) := by
  simp [SameScalars, SameTexts, SameWords, SameOutput, SameHost, AtRest]

/-- The frame of a command that wrote a packed text to WB. -/
theorem finish_putPacked_frame (s : State) (ws : List Word) (n : Nat) :
    SameScalars s (finish (putPacked ws n s)) ∧ SameResult s (finish (putPacked ws n s))
      ∧ SameTexts s (finish (putPacked ws n s)) ∧ SameOutput s (finish (putPacked ws n s))
      ∧ SameHost s (finish (putPacked ws n s)) ∧ AtRest (finish (putPacked ws n s)) := by
  simp [SameScalars, SameTexts, SameResult, SameOutput, SameHost, AtRest]

/-- The frame of a command that wrote a digest to WB. -/
theorem finish_putDigest_frame (s : State) (ws : List Word) (n : Nat) :
    SameScalars s (finish (putDigest ws n s)) ∧ SameResult s (finish (putDigest ws n s))
      ∧ SameTexts s (finish (putDigest ws n s)) ∧ SameOutput s (finish (putDigest ws n s))
      ∧ SameHost s (finish (putDigest ws n s)) ∧ AtRest (finish (putDigest ws n s)) := by
  simp [SameScalars, SameTexts, SameResult, SameOutput, SameHost, AtRest]

/-- The frame of a command that wrote O and OLEN. -/
theorem finish_putText_frame (s : State) (bs : List Byte) :
    SameScalars s (finish (putText bs s)) ∧ SameResult s (finish (putText bs s)) ∧ SameTexts s (finish (putText bs s))
      ∧ SameWords s (finish (putText bs s)) ∧ SameHost s (finish (putText bs s)) ∧ AtRest (finish (putText bs s)) := by
  simp [SameScalars, SameTexts, SameResult, SameWords, SameHost, AtRest]

end Sys2Proof.Machine
end

