-- ==== Sys2Proof/Laws/PerInstr.lean ====
section
/-! SUPPORT. The per-instruction family Encoding: the command word of each command is well formed, has its ZERO field at 0, and
decodes to the command. -/

namespace Sys2Proof.Laws.Encoding

/-- What the family says of one command. -/
def Statement (i : Instr) : Prop :=
  i.wf = true ∧ commandWordOk (encode i) = true ∧ (encode i) >>> 8 = 0 ∧ decode (encode i) = .command i

theorem add32 : Statement .add32 := by unfold Statement; decide
theorem rol32 : Statement .rol32 := by unfold Statement; decide
theorem packle : Statement .packle := by unfold Statement; decide
theorem packbe : Statement .packbe := by unfold Statement; decide
theorem unpackle : Statement .unpackle := by unfold Statement; decide
theorem unpackbe : Statement .unpackbe := by unfold Statement; decide
theorem hexle : Statement .hexle := by unfold Statement; decide
theorem hexbe : Statement .hexbe := by unfold Statement; decide
theorem b64be : Statement .b64be := by unfold Statement; decide
theorem md5core : Statement .md5core := by unfold Statement; decide
theorem sha1core : Statement .sha1core := by unfold Statement; decide
theorem hmacsha1 : Statement .hmacsha1 := by unfold Statement; decide

end Sys2Proof.Laws.Encoding
end

