-- ==== Sys2Proof/Tests/Slice0.lean ====
section
/-! SUPPORT. Tests, each one step or one word with its expected result from spec/95_test_vectors.md or written out from
30_encoding.md, and for each statement with hypotheses the concrete states that meet them. -/

open Sys2Proof Sys2Proof.Machine Sys2Proof.Claims

namespace Sys2Proof.Tests

/-- The next state of an outcome satisfies `p`. -/
def nextIs (p : State → Bool) : Host.Outcome State Fault Refusal → Bool
  | .next t => p t
  | .fault _ => false
  | .refused _ => false

/-- The outcome is this fault. -/
def faultIs (f : Fault) : Host.Outcome State Fault Refusal → Bool
  | .fault g => decide (g = f)
  | .next _ => false
  | .refused _ => false

theorem nextIs_exists {p : State → Bool} {o : Host.Outcome State Fault Refusal} (h : nextIs p o = true) :
    ∃ t, o = .next t := by
  cases o with
  | next t => exact ⟨t, rfl⟩
  | fault f => cases h
  | refused r => cases h

theorem faultIs_eq {f : Fault} {o : Host.Outcome State Fault Refusal} (h : faultIs f o = true) : o = .fault f := by
  cases o with
  | next t => cases h
  | fault g => simp only [faultIs, decide_eq_true_eq] at h; rw [h]
  | refused r => cases h

/-- Reset, with X and Y written. -/
def scalars (x y : Word) : State :=
  { State.reset with x := x, y := y }

/-- Reset, with the characters of M and MLEN written. -/
def message (cs : List Word) : State := { State.reset with m := bufOfList cs, mlen := BitVec.ofNat 32 cs.length }

/-- Reset, with WB, WLEN and BITLEN written. -/
def words (ws : List Word) (bits : Word) : State :=
  { State.reset with wb := bufOfList ws, wlen := BitVec.ofNat 32 ws.length, bitlen := bits }

/-- Reset, with K, KLEN, M and MLEN written. -/
def keyed (key cs : List Word) : State :=
  { message cs with k := bufOfList key, klen := BitVec.ofNat 32 key.length }

/-- A state in which the host's accesses are these. -/
def host (es : List HostEvent) (s : State) : State := { s with pending := es }

/-- The text abc. -/
def abc : List Word := [0x61, 0x62, 0x63]

/-! Decoding: words written out bit by bit from 30_encoding.md R71 and R72 (bits 31 to 8 zero, then OP). -/

theorem test_decode_add32 : decode 0b00000000000000000000000000000001#32 = .command .add32 := by decide
theorem test_decode_rol32 : decode 0b00000000000000000000000000000010#32 = .command .rol32 := by decide
theorem test_decode_packle : decode 0b00000000000000000000000000010000#32 = .command .packle := by decide
theorem test_decode_packbe : decode 0b00000000000000000000000000010001#32 = .command .packbe := by decide
theorem test_decode_unpackle : decode 0b00000000000000000000000000010010#32 = .command .unpackle := by decide
theorem test_decode_unpackbe : decode 0b00000000000000000000000000010011#32 = .command .unpackbe := by decide
theorem test_decode_hexle : decode 0b00000000000000000000000000010100#32 = .command .hexle := by decide
theorem test_decode_hexbe : decode 0b00000000000000000000000000010101#32 = .command .hexbe := by decide
theorem test_decode_b64be : decode 0b00000000000000000000000000010111#32 = .command .b64be := by decide
theorem test_decode_md5core : decode 0b00000000000000000000000000100000#32 = .command .md5core := by decide
theorem test_decode_sha1core : decode 0b00000000000000000000000000100001#32 = .command .sha1core := by decide
theorem test_decode_hmacsha1 : decode 0b00000000000000000000000000110001#32 = .command .hmacsha1 := by decide

/-- 95_test_vectors.md section 7: 16, 30, 00 and a nonzero ZERO field are reserved. -/
theorem test_reserved_words :
    decode 0x16 = .reserved (.opcode 0x16) ∧ decode 0x30 = .reserved (.opcode 0x30)
      ∧ decode 0 = .reserved (.opcode 0) ∧ decode 0x120 = .reserved .zeroField := by decide

/-! WellFormed: one ill-formed term for each check. -/

theorem test_wf_zero_field : zeroFieldOk 0x120 = false ∧ commandWordOk 0x120 = false := by decide
theorem test_wf_opcode : opcodeOk 0x16 = false ∧ commandWordOk 0x16 = false ∧ commandWordOk 0x17 = true := by decide
theorem test_wf_charw :
    charwOk { Config.standard with charw := 7 } = false ∧ charwOk { Config.standard with charw := 8 } = true := by decide
theorem test_wf_wcap :
    wcapOk { Config.standard with wcap := some 8 } = false ∧ wcapOk { Config.standard with wcap := some 24 } = false
      ∧ wcapOk { Config.standard with wcap := some (2 ^ 27 + 16) } = false
      ∧ wcapOk { Config.standard with wcap := some 16 } = true
      ∧ wcapOk { Config.standard with wcap := some (2 ^ 27) } = true := by decide
theorem test_wf_config :
    Config.wf { Config.standard with charw := 7 } = false ∧ Config.standard.wf = true := by decide

/-! The MD5 step table against the closed forms of 41_md5.md R132. -/

theorem test_md5_table_closed_forms :
    md5Table.map (fun r => (r.k, r.rot)) = (List.range 64).map (fun t => (md5Index t, md5Rotation t)) := by decide

/-! One command each, the expected results from 95_test_vectors.md sections 1 to 5. -/

/-- Section 2.1: the source's vector V6, and a carry lost out of bit 31. -/
theorem test_add32_wraps :
    nextIs (fun t => t.r = 0x80000000) (exec .add32 (scalars 0x7FFFFFFF 1)) = true
      ∧ nextIs (fun t => t.r = 0) (exec .add32 (scalars 0xFFFFFFFF 1)) = true := by decide

/-- The scalars hold 0 at reset (the model's choice, log entry 3), so a program runs from there. -/
theorem test_add32_after_reset : nextIs (fun t => t.r = 0) (exec .add32 State.reset) = true := by decide

/-- Section 2.2: count 31, and program P3's last rotation. -/
theorem test_rol32_large_count :
    nextIs (fun t => t.r = 0x80000000) (exec .rol32 (scalars 1 31)) = true
      ∧ nextIs (fun t => t.r = 0xBFFFFFFF) (exec .rol32 (scalars 0x7FFFFFFF 31)) = true := by
  decide

/-- Section 2.2: count 32 is a fault. -/
theorem test_rol32_bad_count : faultIs .badRotateCount (exec .rol32 (scalars 0x12345678 32)) = true := by decide

/-- Section 2.3, five characters. -/
theorem test_packle_five :
    nextIs (fun t => t.wb = [(0, 0x64636261), (1, 0x65)] ∧ t.wlen = 2 ∧ t.bitlen = 40)
      (exec .packle (message [0x61, 0x62, 0x63, 0x64, 0x65])) = true := by decide

/-- 30_encoding.md R73: a pack leaves the words above the ones it writes as they were. -/
theorem test_packle_keeps_above :
    nextIs (fun t => t.wb = [(0, 0x00636261), (1, 8), (2, 9)] ∧ t.wlen = 1)
      (exec .packle { message abc with wb := bufOfList [7, 8, 9] }) = true := by decide

/-- Section 2.3, wide characters: only the low 8 bits count. -/
theorem test_packle_truncates :
    nextIs (fun t => t.wb = [(0, 0x00FFAC41)] ∧ t.bitlen = 32)
      (exec .packle (message [0x0141, 0x20AC, 0x00FF, 0x0100])) = true := by decide

/-- Section 2.3, five characters. -/
theorem test_packbe_five :
    nextIs (fun t => t.wb = [(0, 0x61626364), (1, 0x65000000)] ∧ t.wlen = 2 ∧ t.bitlen = 40)
      (exec .packbe (message [0x61, 0x62, 0x63, 0x64, 0x65])) = true := by decide

/-- Section 2.3, wide characters. -/
theorem test_packbe_truncates :
    nextIs (fun t => t.wb = [(0, 0x41ACFF00)] ∧ t.bitlen = 32)
      (exec .packbe (message [0x0141, 0x20AC, 0x00FF, 0x0100])) = true := by decide

/-- Section 2.4. -/
theorem test_unpackle_two_words :
    nextIs (fun t => readAll (α := Byte) t.o 8 = some [0x67, 0x45, 0x23, 0x01, 0xef, 0xcd, 0xab, 0x89] ∧ t.olen = 8)
      (exec .unpackle (words [0x01234567, 0x89ABCDEF] 64)) = true := by decide

/-- Section 2.4. -/
theorem test_unpackbe_two_words :
    nextIs (fun t => readAll (α := Byte) t.o 8 = some [0x01, 0x23, 0x45, 0x67, 0x89, 0xab, 0xcd, 0xef] ∧ t.olen = 8)
      (exec .unpackbe (words [0x01234567, 0x89ABCDEF] 64)) = true := by decide

/-- Section 2.4: the text d41d8cd9. -/
theorem test_hexle_word :
    nextIs (fun t => readAll (α := Byte) t.o 8 = some [0x64, 0x34, 0x31, 0x64, 0x38, 0x63, 0x64, 0x39] ∧ t.olen = 8)
      (exec .hexle (words [0xD98C1DD4] 32)) = true := by decide

/-- Section 7: an output of 39 bytes is one short. -/
theorem test_hexbe_capacity :
    exec .hexbe { words [1, 2, 3, 4, 5] 160 with cfg := { Config.standard with ocap := some 39 } } = .fault .capacity := by
  rfl

/-- Section 2.4: the text d98c1dd4. -/
theorem test_hexbe_word :
    nextIs (fun t => readAll (α := Byte) t.o 8 = some [0x64, 0x39, 0x38, 0x63, 0x31, 0x64, 0x64, 0x34] ∧ t.olen = 8)
      (exec .hexbe (words [0xD98C1DD4] 32)) = true := by decide

/-- Section 2.5: two `=`; YWJjZA==. -/
theorem test_b64be_two_pads :
    nextIs (fun t => readAll (α := Byte) t.o 8 = some [0x59, 0x57, 0x4A, 0x6A, 0x5A, 0x41, 0x3D, 0x3D] ∧ t.olen = 8)
      (exec .b64be (words [0x61626364] 32)) = true := by decide

/-- Section 2.5: symbols 62 and 63 and one `=`; ++++//vwAAA=. -/
theorem test_b64be_one_pad :
    nextIs (fun t => readAll (α := Byte) t.o 12
        = some [0x2B, 0x2B, 0x2B, 0x2B, 0x2F, 0x2F, 0x76, 0x77, 0x41, 0x41, 0x41, 0x3D] ∧ t.olen = 12)
      (exec .b64be (words [0xFBEFBEFF, 0xFBF00000] 64)) = true := by decide

/-- Section 3.2: the digest of abc. -/
theorem test_md5core_abc :
    nextIs (fun t => t.wb = [(0, 0x98500190), (1, 0xB04FD23C), (2, 0x7D3F96D6), (3, 0x727FE128)] ∧ t.wlen = 4
        ∧ t.bitlen = 128)
      (exec .md5core (words [0x00636261] 24)) = true := by decide +kernel

/-- Section 7: stray bits. -/
theorem test_md5core_stray_bits : exec .md5core (words [0x00636261] 16) = .fault .inconsistentLength := by rfl

/-- Section 4.2: the digest of abc. -/
theorem test_sha1core_abc :
    nextIs (fun t => t.wb = [(0, 0xA9993E36), (1, 0x4706816A), (2, 0xBA3E2571), (3, 0x7850C26C), (4, 0x9CD0D89D)]
        ∧ t.wlen = 5 ∧ t.bitlen = 160)
      (exec .sha1core (words [0x61626300] 24)) = true := by decide +kernel

/-- Section 7: stray bits in the other order. -/
theorem test_sha1core_stray_bits : exec .sha1core (words [0x61626300] 16) = .fault .inconsistentLength := by rfl

/-- Section 5.4: the empty key and the data abc. -/
theorem test_hmacsha1_empty_key :
    nextIs (fun t => t.wb = [(0, 0x9B4A918F), (1, 0x398D74D3), (2, 0xE367970A), (3, 0xBA3CBE54), (4, 0xE4D2B5D9)]
        ∧ t.wlen = 5 ∧ t.bitlen = 160)
      (exec .hmacsha1 (keyed [] abc)) = true := by decide +kernel

/-- Section 5.3: a key of 65 characters is hashed first. -/
theorem test_hmacsha1_long_key :
    nextIs (fun t => t.wb = [(0, 0x50BE8BAF), (1, 0x8EE0BD1E), (2, 0x81EECB6F), (3, 0xED827E4D), (4, 0x28B3F199)])
      (exec .hmacsha1 (keyed (List.replicate 65 0x61) abc)) = true := by decide +kernel

/-! The host's side. -/

/-- Section 7: a write to R; 20_memory.md R51: CMD cannot be read. Each leads to the fault state with its reason (R202). -/
theorem test_host_forbidden :
    nextIs (fun t => t.fault = some .hostAccess) (step (host [.write .reg 3 0] State.reset)) = true
      ∧ nextIs (fun t => t.fault = some .hostAccess) (step (host [.read .reg 0] State.reset)) = true := by decide

/-- 20_memory.md R53 (c): after a command wrote WB a read of it stays below WLEN, whatever the host then writes to WLEN. -/
theorem test_wb_read_below_wlen :
    readElem { words [7] 32 with wbCmd := true } .wb 0 = some 7
      ∧ readElem { words [7] 32 with wbCmd := true, wlen := 0 } .wb 0 = none := by decide

/-- 60_exceptions.md R202 and R206, 70_reset_and_hazards.md R220: a fault state keeps its reason through an access, is no final state,
and is left by reset. -/
theorem test_fault_state :
    nextIs (fun t => t.fault = some .capacity ∧ t.wlen = 5)
        (step (host [.write .reg 6 0] { words [1, 2, 3, 4, 5] 160 with fault := some .capacity })) = true
      ∧ faultIs .capacity (step { State.reset with fault := some .capacity }) = true
      ∧ nextIs (fun t => t.fault = none ∧ t.wlen = 0)
        (step (host [.reset] { words [1, 2, 3, 4, 5] 160 with fault := some .capacity })) = true := by decide

/-- 20_memory.md R52: a character keeps its low CHARW bits. -/
theorem test_host_write_truncates :
    nextIs (fun t => bufGet t.m 0 = some 0x2345) (step (host [.write .m 0 0x12345] State.reset)) = true := by decide

/-- 30_encoding.md R70: the first step after reset runs the command placed by withFetchWord. -/
theorem test_first_step_runs_packle :
    nextIs (fun t => t.wlen = 0 ∧ t.bitlen = 0 ∧ t.cmd = none) (step (State.reset.withFetchWord 32 0x10)) = true := by
  decide

/-- 70_reset_and_hazards.md R220: reset clears the lengths. -/
theorem test_reset_event :
    nextIs (fun t => t.wlen = 0 ∧ t.bitlen = 0 ∧ t.wb = []) (step (host [.reset] (words [7] 32))) = true := by decide

/-! WITNESSES. For each statement with hypotheses, states and operands that meet them all, at the boundary values of its clauses. -/

/-- A length that fits a capacity. -/
theorem within {n : Nat} {cap : Option Nat} (h : capFits n cap = true) : WithinCap n cap := by
  intro c hc
  subst hc
  simpa [capFits] using h

/-- Capacities of 5 characters, 16 words and 16 output bytes. -/
def tight : Config := { charw := 8, mcap := some 5, kcap := some 5, wcap := some 16, ocap := some 16, bus := none }

/-- Capacities that hold a long key and its hash exactly. -/
def tightKeyed : Config := { charw := 8, mcap := some 3, kcap := some 65, wcap := some 32, ocap := some 40, bus := none }

theorem witness_ReservedWordsAreIllegal :
    (∀ i, (0x00000016 : Word) ≠ encode i) ∧ (0x00000016 : Word).toNat / 256 = 0
      ∧ (∀ i, (0x00000100 : Word) ≠ encode i) ∧ (0x00000100 : Word).toNat / 256 ≠ 0
      ∧ (∀ i, (0xFFFFFF01 : Word) ≠ encode i) ∧ (0xFFFFFF01 : Word).toNat / 256 ≠ 0 := by
  refine ⟨?_, by decide, ?_, by decide, ?_, by decide⟩ <;> intro i <;> cases i <;> decide

theorem witness_StepRunsTheCommandWritten :
    (host [.write .reg 0 0x01, .read .reg 3] (scalars 1 2)).pending = .write .reg 0 0x01 :: [.read .reg 3]
      ∧ decode 0x01 = .command .add32
      ∧ nextIs (fun _ => true) (step (host [.write .reg 0 0x01, .read .reg 3] (scalars 1 2))) = true
      ∧ faultIs .badRotateCount (exec .rol32 (takeCommand 0x02 (dropEvent [] (host [.write .reg 0 0x02] (scalars 1 32))))) = true
      ∧ (host [.write .reg 0 0x02] (scalars 1 32)).fault = none
      ∧ decodeTableWord 32 0x31 = some .hmacsha1 := by decide

theorem witness_EventsTakeEffectInOrder :
    State.reset.pending = [] ∧ (host [.reset] State.reset).pending = .reset :: []
      ∧ (host [.reset] State.reset).fault = none
      ∧ nextIs (fun _ => true) (step (host [.reset] State.reset)) = true := by decide

/-- An access and a command that fault, a fault state with nothing, an access or a reset to come. -/
theorem witness_FaultStateIsLeftOnlyByReset :
    (host [.read .reg 0, .reset] State.reset).pending = .read .reg 0 :: [.reset]
      ∧ faultIs .hostAccess (serve (.read .reg 0) (host [.reset] State.reset)) = true
      ∧ faultIs .illegalCommand (serve (.write .reg 0 0x16) State.reset) = true
      ∧ (enterFault .capacity State.reset).fault = some .capacity
      ∧ (enterFault .capacity State.reset).pending = []
      ∧ (enterFault .capacity (host [.read .reg 4, .reset] State.reset)).pending = .read .reg 4 :: [.reset]
      ∧ HostEvent.read .reg 4 ≠ .reset
      ∧ (enterFault .capacity (host [.reset] State.reset)).pending = .reset :: []
      ∧ nextIs (fun t => t.fault = none) (step { host [.reset] State.reset with fault := some .capacity }) = true := by
  decide

theorem witness_Add32Result :
    (scalars 0xFFFFFFFF 1).x = 0xFFFFFFFF
      ∧ (scalars 0xFFFFFFFF 1).y = 1 := by decide

theorem witness_Rol32Result :
    (scalars 5 0).y = 0 ∧ (0 : Word).toNat ≤ 31
      ∧ (scalars 5 31).x = 5 ∧ (scalars 5 31).y = 31
      ∧ (31 : Word).toNat ≤ 31 ∧ 31 < (scalars 5 32).y.toNat := by decide

/-- Empty, and exactly at the capacity of M. -/
theorem witness_PackResult :
    (∀ ord, Requires (packInstr ord) State.reset)
      ∧ (∀ ord, Requires (packInstr ord) { message [1, 2, 3, 4, 5] with cfg := tight })
      ∧ ∀ ord, ¬ Requires (packInstr ord) { message [1, 2, 3, 4, 5, 6] with cfg := tight } := by
  refine ⟨?_, ?_, ?_⟩ <;> intro ord <;> cases ord
  on_goal 5 => exact fun h => absurd (h.1 5 rfl) (by decide)
  on_goal 5 => exact fun h => absurd (h.1 5 rfl) (by decide)
  all_goals exact ⟨within (by decide), by unfold HeldUpTo; decide, within (by decide), by decide⟩

/-- A command of each of the three classes, with elements above what it writes. -/
theorem witness_ElementsAboveTheLength :
    nextIs (fun t => bufGet t.wb 1 = some 8) (exec .packle { message abc with wb := bufOfList [7, 8] }) = true
      ∧ nextIs (fun t => bufGet (α := Byte) t.o 8 = some 6)
        (exec .hexle { words [1] 32 with o := bufOfList (List.replicate 8 5 ++ [6]) }) = true
      ∧ writtenCount .hexle (words [1] 32) = 8
      ∧ nextIs (fun t => bufGet t.wb 4 = none)
        (exec .md5core { words [0x00636261] 24 with wb := bufOfList [0x00636261, 1, 2, 3, 4] }) = true := by
  decide +kernel

theorem witness_PackTruncatesCharacters :
    ([0x141, 0x62] : List Word).map (fun c => c.toNat % 256) = ([0x41, 0xFF62] : List Word).map (fun c => c.toNat % 256)
      ∧ ([] : List Word).map (fun c => c.toNat % 256) = ([] : List Word).map (fun c => c.toNat % 256) := by decide

/-- Empty, and exactly at the capacity of O. -/
theorem witness_UnpackResult :
    (∀ ord, Requires (unpackInstr ord) State.reset)
      ∧ ∀ ord, Requires (unpackInstr ord) { words [1, 2, 3, 4] 128 with cfg := tight } := by
  constructor <;> intro ord <;> cases ord
  all_goals exact ⟨within (by decide), by unfold HeldUpTo; decide, within (by decide)⟩

theorem witness_BigEndianReversesGroups : 0 < 4 * ([7] : List Word).length ∧ 3 < 4 * ([7] : List Word).length := by decide

/-- Empty, and exactly at the capacity of O. -/
theorem witness_HexResult :
    (∀ ord, Requires (hexInstr ord) State.reset)
      ∧ ∀ ord, Requires (hexInstr ord) { words [1, 2] 64 with cfg := tight } := by
  constructor <;> intro ord <;> cases ord
  all_goals exact ⟨within (by decide), by unfold HeldUpTo; decide, within (by decide)⟩

theorem witness_HexIsInjective : hex .le [0x0123ABCD] = hex .le [0x0123ABCD] ∧ hex .be [] = hex .be [] := by decide

/-- Empty, and exactly at the capacity of O: 12 bytes in four groups. -/
theorem witness_Base64Result :
    Requires .b64be State.reset ∧ Requires .b64be { words [1, 2, 3] 96 with cfg := tight }
      ∧ 3 < (4 * (words [1, 2, 3] 96).wlen.toNat + 2) / 3 := by
  refine ⟨?_, ?_, by decide⟩
  all_goals exact ⟨within (by decide), by unfold HeldUpTo; decide, within (by decide)⟩

/-- Lengths of 8, 24, 31 and 32 bits in the first clause, stray bits in both orders in the second. -/
theorem witness_ConsistencyOfLengths :
    8 % 32 ≠ 0 ∧ 23 < 32 - 8 % 32 ∧ 24 % 32 ≠ 0 ∧ 7 < 32 - 24 % 32
      ∧ wordArray (words [0x00636261] 16) = some [0x00636261] ∧ consistent .le [0x00636261] 16 = false
      ∧ wordArray (words [0x61626300] 16) = some [0x61626300] ∧ consistent .be [0x61626300] 16 = false := by decide

theorem witness_PackedTextsAreConsistent : 0 % 8 = 0 ∧ 440 % 8 = 0 ∧ 448 % 8 = 0 := by decide

/-- 0, 55 and 56 bytes: the marker's word is 0, 13 and 14, the length word 14, 14 and 30. -/
theorem witness_Md5PadLayout :
    consistent .le [] 0 = true ∧ consistent .le (pack .le (List.replicate 55 0x61)) 440 = true
      ∧ padLength 440 - 2 = 14 ∧ 440 / 32 = 13
      ∧ consistent .le (pack .le (List.replicate 56 0x61)) 448 = true ∧ padLength 448 - 2 = 30 ∧ 448 / 32 = 14
      ∧ wordArray { words (pack .le (List.replicate 56 0x61)) 448 with cfg := tight }
          = some (pack .le (List.replicate 56 0x61))
      ∧ ¬ WithinCap (padLength 448) tight.wcap :=
  ⟨by decide, by decide, by decide, by decide, by decide, by decide, by decide, by decide,
    fun h => absurd (h 16 rfl) (by decide)⟩

theorem witness_Sha1PadLayout :
    consistent .be [] 0 = true ∧ consistent .be (pack .be (List.replicate 55 0x61)) 440 = true
      ∧ padLength 440 - 1 = 15 ∧ 440 / 32 = 13
      ∧ consistent .be (pack .be (List.replicate 56 0x61)) 448 = true ∧ padLength 448 - 1 = 31 ∧ 448 / 32 = 14
      ∧ wordArray { words (pack .be (List.replicate 56 0x61)) 448 with cfg := tight }
          = some (pack .be (List.replicate 56 0x61))
      ∧ ¬ WithinCap (padLength 448) tight.wcap :=
  ⟨by decide, by decide, by decide, by decide, by decide, by decide, by decide, by decide,
    fun h => absurd (h 16 rfl) (by decide)⟩

/-- Each round's first and last step: the message word, the rotation and the constant are the table's row (41_md5.md R132). -/
theorem witness_Md5BlockFollowsTheRules :
    [0, 15, 16, 31, 32, 47, 48, 63].map (fun t => (md5Index t, md5Rotation t, md5Constant t))
      = [(0, 7, 0xD76AA478), (15, 22, 0x49B40821), (1, 5, 0xF61E2562), (12, 20, 0x8D2A4C8A), (5, 4, 0xFFFA3942),
          (2, 23, 0xC4AC5665), (0, 6, 0xF4292244), (9, 21, 0xEB86D391)] := by decide

theorem witness_Md5StepsMatchClassicalForm : md5Table.length % 4 = 0 ∧ ([] : List Md5Row).length % 4 = 0 := by decide

theorem witness_Md5CoreTakesBlocksInOrder :
    consistent .le [] 0 = true ∧ consistent .le (pack .le (List.replicate 56 0x61)) 448 = true
      ∧ 1 < ((448 + 64) >>> 9) + 1 := by decide

/-- Empty, and a padded stream of exactly WCAP words. -/
theorem witness_Md5CoreResult :
    Requires .md5core State.reset ∧ Requires .md5core { words [0x00636261] 24 with cfg := tight }
      ∧ ¬ Requires .md5core { words (List.replicate 14 0x61616161) 448 with cfg := tight } := by
  refine ⟨?_, ?_, ?_⟩
  · exact ⟨⟨[], by decide, by decide⟩, within (by decide)⟩
  · exact ⟨⟨[0x00636261], by decide, by decide⟩, within (by decide)⟩
  · exact fun h => absurd (h.2 16 rfl) (by decide)

/-- Each clause at its first and last index: the two ends of the copied words and of the expanded ones (section 4.2). -/
theorem witness_Sha1ScheduleExpansion :
    (0x61626380 :: List.replicate 14 0 ++ [0x18] : List Word).length = 16
      ∧ (sha1Schedule (0x61626380 :: List.replicate 14 0 ++ [0x18])).getD 15 0 = 0x18
      ∧ (sha1Schedule (0x61626380 :: List.replicate 14 0 ++ [0x18])).getD 16 0 = 0xC2C4C700
      ∧ (sha1Schedule (0x61626380 :: List.replicate 14 0 ++ [0x18])).getD 79 0 = 0x822E0879 := by decide +kernel

/-- The ranges of the constants meet at 20, 40 and 60 (section 4.2). -/
theorem witness_Sha1BlockFollowsTheRules :
    sha1Const 0 = 0x5A827999 ∧ sha1Const 19 = 0x5A827999 ∧ sha1Const 20 = 0x6ED9EBA1 ∧ sha1Const 39 = 0x6ED9EBA1
      ∧ sha1Const 40 = 0x8F1BBCDC ∧ sha1Const 59 = 0x8F1BBCDC ∧ sha1Const 60 = 0xCA62C1D6
      ∧ sha1Const 79 = 0xCA62C1D6 := by decide

theorem witness_Sha1CoreTakesBlocksInOrder :
    consistent .be [] 0 = true ∧ consistent .be (pack .be (List.replicate 56 0x61)) 448 = true
      ∧ 1 < ((448 + 64) >>> 9) + 1 := by decide

theorem witness_Sha1CoreResult :
    Requires .sha1core State.reset ∧ Requires .sha1core { words [0x61626300] 24 with cfg := tight }
      ∧ ¬ Requires .sha1core { words (List.replicate 14 0x61616161) 448 with cfg := tight } := by
  refine ⟨?_, ?_, ?_⟩
  · exact ⟨⟨[], by decide, by decide⟩, within (by decide)⟩
  · exact ⟨⟨[0x61626300], by decide, by decide⟩, within (by decide)⟩
  · exact fun h => absurd (h.2 16 rfl) (by decide)

theorem witness_DigestCanBeHashedAgain :
    (∃ t, exec .md5core (words [0x00636261] 24) = .next t) ∧ ∃ t, exec .sha1core (words [0x61626300] 24) = .next t :=
  ⟨nextIs_exists (p := fun _ => true) (by decide +kernel), nextIs_exists (p := fun _ => true) (by decide +kernel)⟩

/-- Keys of 64 and 65 characters. -/
theorem witness_HmacFollowsTheRules :
    (List.replicate 64 (0x61 : Word)).length ≤ 64 ∧ 64 < (List.replicate 65 (0x61 : Word)).length
      ∧ (pack .be (List.replicate 64 (0x61 : Word))).length = 16
      ∧ (pack .be (List.replicate 65 (0x61 : Word))).length = 17 := by decide

/-- Empty key and data, and a long key with every capacity exactly full. -/
theorem witness_HmacResult :
    Requires .hmacsha1 State.reset
      ∧ Requires .hmacsha1 { keyed (List.replicate 65 0x61) abc with cfg := tightKeyed }
      ∧ ¬ Requires .hmacsha1 { keyed (List.replicate 66 0x61) abc with cfg := tightKeyed } := by
  refine ⟨?_, ?_, fun h => absurd (h.2.2.1 65 rfl) (by decide)⟩
  · exact ⟨by unfold HeldUpTo; decide, by unfold HeldUpTo; decide, within (by decide), within (by decide), by decide,
      fun h => absurd h (by decide), within (by decide)⟩
  · exact ⟨by unfold HeldUpTo; decide, by unfold HeldUpTo; decide, within (by decide), within (by decide), by decide,
      fun _ => ⟨by decide, within (by decide)⟩, within (by decide)⟩

theorem witness_Md5EntryPoints :
    textM (message abc) = some abc ∧ Requires .packle (message abc)
      ∧ WithinCap ((((8 * (message abc).mlen.toNat + 64) >>> 9) <<< 4) + 16) (message abc).cfg.wcap
      ∧ WithinCap 32 (message abc).cfg.ocap ∧ WithinCap 16 tight.ocap :=
  ⟨by decide, ⟨within (by decide), by unfold HeldUpTo; decide, within (by decide), by decide⟩, within (by decide),
    within (by decide), within (by decide)⟩

theorem witness_Sha1EntryPoints :
    textM (message abc) = some abc ∧ Requires .packbe (message abc)
      ∧ WithinCap ((((8 * (message abc).mlen.toNat + 64) >>> 9) <<< 4) + 16) (message abc).cfg.wcap
      ∧ WithinCap 40 (message abc).cfg.ocap ∧ WithinCap 40 tightKeyed.ocap :=
  ⟨by decide, ⟨within (by decide), by unfold HeldUpTo; decide, within (by decide), by decide⟩, within (by decide),
    within (by decide), within (by decide)⟩

theorem witness_HmacEntryPoints :
    textK (keyed [0x6B] abc) = some [0x6B] ∧ textM (keyed [0x6B] abc) = some abc ∧ Requires .hmacsha1 (keyed [0x6B] abc)
      ∧ WithinCap 40 (keyed [0x6B] abc).cfg.ocap :=
  ⟨by decide, by decide,
    ⟨by unfold HeldUpTo; decide, by unfold HeldUpTo; decide, within (by decide), within (by decide), by decide,
      fun h => absurd h (by decide), within (by decide)⟩, within (by decide)⟩

/-- A text of three characters, its first and its last, and every register of the page. -/
theorem witness_LinesMakeTheirAccesses :
    0 < abc.length ∧ 2 < abc.length ∧ abc.length < 2 ^ 32 ∧ ([] : List Word).length < 2 ^ 32
      ∧ (RegName.x, 1) ∈ pageNumbers ∧ (RegName.klen, 5) ∈ pageNumbers ∧ (RegName.olen, 8) ∈ pageNumbers := by decide

/-- Both sides of the equivalence are met. -/
theorem witness_CommandsCompleteExactlyWhenRequired :
    Requires .rol32 (scalars 1 31) ∧ (∃ t, exec .rol32 (scalars 1 31) = .next t)
      ∧ ¬ Requires .rol32 (scalars 1 32) ∧ ∃ f, exec .rol32 (scalars 1 32) = .fault f :=
  ⟨(by decide : (31 : Word).toNat ≤ 31), nextIs_exists (p := fun _ => true) (by decide),
    fun h => absurd (show (32 : Word).toNat ≤ 31 from h) (by decide), .badRotateCount, faultIs_eq (by decide)⟩

/-- Every reason a command can give (section 7). -/
theorem witness_FaultReasonsAreTrue :
    exec .rol32 (scalars 1 32) = .fault .badRotateCount
      ∧ exec .md5core (words [0x00636261] 20) = .fault .inconsistentLength
      ∧ exec .md5core (words [0x00636261, 0] 24) = .fault .inconsistentLength
      ∧ exec .sha1core { State.reset with bitlen := 8 } = .fault .inconsistentLength
      ∧ exec .md5core { words (List.replicate 14 0x61616161) 448 with cfg := tight } = .fault .capacity
      ∧ exec .hexle { State.reset with wlen := 1 } = .fault .readUnwritten :=
  ⟨faultIs_eq (by decide), rfl, rfl, rfl, faultIs_eq (by decide), rfl⟩

theorem witness_CapacityNeverTruncates :
    nextIs (fun t => t.wb ≠ (message abc).wb) (exec .packle (message abc)) = true
      ∧ nextIs (fun t => t.o ≠ (words [1] 32).o) (exec .hexle (words [1] 32)) = true
      ∧ ¬ LengthsFit .packle { State.reset with mlen := 0x20000000 }
      ∧ ¬ LengthsFit .md5core { words (List.replicate 14 0x61616161) 448 with cfg := tight }
      ∧ exec .packbe { State.reset with mlen := 0x20000000 } = .fault .capacity
      ∧ exec .hmacsha1 { State.reset with mlen := 0x1FFFFFC0 } = .fault .capacity
      ∧ exec .hmacsha1 { State.reset with klen := 0x20000000 } = .fault .capacity :=
  ⟨by decide, by decide, fun h => absurd h.2.2 (by decide), fun h => absurd (h.2 16 rfl) (by decide),
    faultIs_eq (by decide), faultIs_eq (by decide), faultIs_eq (by decide)⟩

theorem witness_UnwrittenInputsFault :
    (∃ k, k < { message abc with mlen := 4 }.mlen.toNat ∧ bufGet { message abc with mlen := 4 }.m k = none)
      ∧ (∃ k, k < { words [1] 32 with wlen := 2 }.wlen.toNat ∧ bufGet { words [1] 32 with wlen := 2 }.wb k = none)
      ∧ WithinCap (8 * { words [1] 32 with wlen := 2 }.wlen.toNat) tight.ocap
      ∧ (∃ k, k < { words [] 24 with wlen := 1 }.wlen.toNat ∧ bufGet { words [] 24 with wlen := 1 }.wb k = none)
      ∧ (∀ ord, LengthsFit (coreInstr ord) { words [] 24 with wlen := 1, cfg := tight })
      ∧ (∃ k, k < { words [] 64 with wlen := 2, wb := [(1, 5)] }.wlen.toNat
          ∧ bufGet { words [] 64 with wlen := 2, wb := [(1, 5)] }.wb k = none)
      ∧ strayBits .le 64 5 = false ∧ strayBits .be 64 5 = false
      ∧ (∃ k, k < { keyed [9] abc with klen := 2 }.klen.toNat ∧ bufGet { keyed [9] abc with klen := 2 }.k k = none)
      ∧ LengthsFit .hmacsha1 { keyed [9] abc with klen := 2 } := by
  refine ⟨⟨3, by decide, by decide⟩, ⟨1, by decide, by decide⟩, within (by decide), ⟨0, by decide, by decide⟩, ?_,
    ⟨0, by decide, by decide⟩, by decide, by decide, ⟨1, by decide, by decide⟩, ?_⟩
  · intro ord; cases ord <;> exact ⟨within (by decide), within (by decide)⟩
  · exact ⟨within (by decide), within (by decide), by decide, within (by decide), fun h => absurd h (by decide)⟩

/-- A command of each shape completes; of the classes the last three clauses exclude, one member each does. -/
theorem witness_CommandsWriteOnlyWhatTheyName :
    (∃ t, exec .add32 (scalars 1 2) = .next t) ∧ Instr.add32 ∉ [Instr.packle, .packbe, .md5core, .sha1core, .hmacsha1]
      ∧ (∃ t, exec .packle (message abc) = .next t)
      ∧ Instr.packle ∉ [Instr.unpackle, .unpackbe, .hexle, .hexbe, .b64be]
      ∧ (∃ t, exec .b64be (words [1] 32) = .next t) ∧ Instr.b64be ∉ [Instr.add32, .rol32] :=
  ⟨nextIs_exists (p := fun _ => true) (by decide), by decide, nextIs_exists (p := fun _ => true) (by decide), by decide,
    nextIs_exists (p := fun _ => true) (by decide), by decide⟩

/-- Two states that differ in what the command does not read, words above the ones it writes among it. -/
theorem witness_CommandsReadOnlyWhatTheyName :
    AgreeOnReads .packle (message abc) { message [0x61, 0x62, 0x63, 0x64] with mlen := 3, bitlen := 7, wb := [(5, 1)] }
      ∧ ∃ t, exec .packle (message abc) = .next t :=
  ⟨⟨rfl, rfl, by unfold SameBelow; decide⟩, nextIs_exists (p := fun _ => true) (by decide)⟩

theorem witness_ResetInputResets :
    (host [.reset, .read .reg 4] (words [7] 32)).pending = .reset :: [.read .reg 4]
      ∧ { host [.reset] (words [7] 32) with fault := some .capacity }.pending = .reset :: [] := by decide

/-- A state with the invariant that is not the reset state, and that takes a step; one that steps to a fault state. -/
theorem witness_EveryStepKeepsTheInvariant :
    EngineInv (host [.write .reg 0 0x10] (message abc))
      ∧ (∃ t, step (host [.write .reg 0 0x10] (message abc)) = .next t)
      ∧ ∃ t, step (host [.write .reg 0 0x16] (message abc)) = .next t := by
  refine ⟨?_, nextIs_exists (p := fun _ => true) (by decide), nextIs_exists (p := fun _ => true) (by decide)⟩
  constructor
  · decide
  · decide
  · unfold charsFit; decide
  · unfold charsFit; decide
  · unfold indicesFit; decide
  · unfold indicesFit; decide
  · unfold indicesFit; decide
  · unfold indicesFit; decide
  · intro _; decide
  · intro _; rfl
  · intro _; rfl

/-- A platform with four windows that touch and do not overlap, the last unbounded. -/
def bus : BusMap := { base := 0x1000, moff := 36, koff := 56, woff := 76, ooff := 140 }

/-- The same with a key buffer, an output text and all registers written. -/
def loaded : State :=
  { keyed [9, 8] abc with
    cfg := { tight with bus := some bus, ocap := none }, wb := [(15, 0x77)], o := [(0, 0x61)], olen := 1,
    x := 1, y := 2, r := 3 }

/-- An access of each space, at the last register, the last element in use or the last element of the buffer. -/
theorem witness_HostReadsHaveNoSideEffect :
    (∀ space index, (host [.read space index] loaded).pending = .read space index :: [])
      ∧ (ElementExists loaded.cfg .reg 8 ∧ ReadableValue loaded .reg 8) ∧ (ElementExists loaded.cfg .reg 1 ∧ ReadableValue loaded .reg 1)
      ∧ [1, 2, 3, 4, 5, 6, 7, 8].map (pageRegister loaded)
        = [some 1, some 2, some 3, some 3, some 2, some 0, some 0, some 1]
      ∧ (ElementExists loaded.cfg .m 2 ∧ ReadableValue loaded .m 2) ∧ (ElementExists loaded.cfg .k 1 ∧ ReadableValue loaded .k 1)
      ∧ (ElementExists loaded.cfg .wb 15 ∧ ReadableValue loaded .wb 15) ∧ (ElementExists loaded.cfg .o 0 ∧ ReadableValue loaded .o 0)
      ∧ (ReadableValue { loaded with wbCmd := true, wlen := 16 } .wb 15 ∧ loaded.fault = none) := by
  refine ⟨fun _ _ => rfl, ?_, ?_, ?_, ?_, ?_, ?_, ?_, ?_⟩ <;> (try unfold ElementExists) <;> (try unfold ReadableValue) <;> decide

theorem witness_HostWritesStoreOneElement :
    (∀ space index v, (host [.write space index v] loaded).pending = .write space index v :: [])
      ∧ (ElementExists loaded.cfg .reg 1 ∧ Writable .reg 1) ∧ (ElementExists loaded.cfg .reg 7 ∧ Writable .reg 7)
      ∧ (ElementExists loaded.cfg .m 4 ∧ Writable .m 4) ∧ (ElementExists loaded.cfg .k 4 ∧ Writable .k 4)
      ∧ (ElementExists loaded.cfg .wb 15 ∧ Writable .wb 15)
      ∧ (ElementExists loaded.cfg .reg 6 ∧ Writable .reg 6)
      ∧ (15 < { loaded with wbCmd := true, wlen := 16 }.wlen.toNat ∧ loaded.fault = none) := by
  refine ⟨fun _ _ _ => rfl, ?_, ?_, ?_, ?_, ?_, ?_, ?_⟩ <;> (try unfold ElementExists) <;> (try unfold Writable) <;> decide

/-- Index 9 of REG, the first index of M above its capacity, CMD read, R written, O at OLEN, an element of M that holds nothing, an
element of WB at WLEN after a command wrote WB. -/
theorem witness_ForbiddenHostAccessesFault :
    ¬ ElementExists loaded.cfg .reg 9 ∧ ¬ ElementExists loaded.cfg .m 5 ∧ ¬ ReadableValue loaded .reg 0 ∧ ¬ ReadableValue loaded .o 1
      ∧ ¬ ReadableValue loaded .m 4 ∧ ¬ ReadableValue { loaded with wbCmd := true, wlen := 15 } .wb 15 ∧ loaded.fault = none
      ∧ (¬ Writable .reg 3 ∧ ¬ ((Space.reg : Space) = .reg ∧ 3 = 0))
      ∧ (¬ Writable .o 0 ∧ ¬ ((Space.o : Space) = .reg ∧ 0 = 0)) := by
  unfold ElementExists ReadableValue Writable
  decide

/-- The windows of `bus` share no byte; the last register, the first and last elements of WB, and an element of O exist. -/
theorem witness_BusAccessesReachOneElement :
    loaded.cfg.bus = some bus ∧ (windows loaded.cfg bus).Pairwise ShareNoByte
      ∧ ElementExists loaded.cfg .reg 8 ∧ ElementExists loaded.cfg .wb 0 ∧ ElementExists loaded.cfg .wb 15 ∧ ElementExists loaded.cfg .o 1000
      ∧ (1 < 4 ∧ 0 < 1 ∧ ¬ (1 = 0 ∧ 1 = 4)) ∧ (0 < 4 ∧ 0 < 2 ∧ ¬ (0 = 0 ∧ 2 = 4)) ∧ (3 < 4 ∧ 0 < 4 ∧ ¬ (3 = 0 ∧ 4 = 4)) := by
  refine ⟨rfl, ?_, by unfold ElementExists; decide, by unfold ElementExists; decide, by unfold ElementExists; decide, by unfold ElementExists; decide,
    by decide, by decide, by decide⟩
  simp [windows, bufWindow, ShareNoByte, loaded, tight, bus]

/-- Ticks 0, the first and last of COMPRESS, and the last tick, of a message of one block. -/
theorem witness_SequencerComputesTheCores :
    0 < seqTicks .md5 24 ∧ seqTicks .md5 24 = 67
      ∧ (seqRun .md5 24 2 (seqStart Internals.zero [0x00636261])).phase = .compress
      ∧ (seqRun .md5 24 65 (seqStart Internals.zero [0x00636261])).phase = .compress
      ∧ (seqRun .md5 24 66 (seqStart Internals.zero [0x00636261])).phase = .extract := by decide +kernel

end Sys2Proof.Tests
end

section
/-! PROOFS. Noninterference (00_scope.md R13): what a command reads is the same in two states that agree on its reads column, so it
completes in both and leaves the same written state. -/

namespace Sys2Proof.Machine

/-- A text or array is a function of the elements below its length. -/
theorem readAll_of_sameBelow {α : Type} {b c : Buffer α} {n : Nat} (h : SameBelow b c n) : readAll c n = readAll b n := by
  have hsome : ∀ vs, readAll c n = some vs ↔ readAll b n = some vs := fun vs => by
    rw [readAll_eq_some, readAll_eq_some]
    exact and_congr_right fun _ => forall₂_congr fun k hk => by rw [h k hk]
  exact Option.ext hsome

/-- Two buffers to which a command wrote the same list agree on the written elements, whatever they held. -/
theorem sameBelow_bufOver {α : Type} (vs : List α) (b c : Buffer α) {n : Nat} (hn : vs.length = n) :
    SameBelow (bufOver vs b) (bufOver vs c) n := fun k hk => by
  simp [hn ▸ hk]

section
variable {s u : State}

theorem textM_of_sameBelow (hlen : u.mlen = s.mlen) (hm : SameBelow s.m u.m s.mlen.toNat) : textM u = textM s := by
  rw [textM, hlen, readAll_of_sameBelow hm, textM]

theorem textK_of_sameBelow (hlen : u.klen = s.klen) (hk : SameBelow s.k u.k s.klen.toNat) : textK u = textK s := by
  rw [textK, hlen, readAll_of_sameBelow hk, textK]

theorem wordArray_of_sameBelow (hlen : u.wlen = s.wlen) (hw : SameBelow s.wb u.wb s.wlen.toNat) :
    wordArray u = wordArray s := by
  rw [wordArray, hlen, readAll_of_sameBelow hw, wordArray]

/-- Consistency (41_md5.md R133) is a function of BITLEN and of the words below WLEN: the element `lengthsInconsistent` looks at is
one of them, but for the empty array, where a BITLEN above 0 is inconsistent with WLEN and a BITLEN of 0 has no stray bit. -/
theorem lengthsInconsistent_of_sameBelow (ord : ByteOrder) (hlen : u.wlen = s.wlen) (hbits : u.bitlen = s.bitlen)
    (hw : SameBelow s.wb u.wb s.wlen.toNat) : lengthsInconsistent ord u = lengthsInconsistent ord s := by
  unfold lengthsInconsistent
  rw [hlen, hbits]
  by_cases hpos : 0 < s.wlen.toNat
  · rw [hw (s.wlen.toNat - 1) (by omega)]
  · by_cases hzero : s.bitlen.toNat = 0
    · have hstray : ∀ w, strayBits ord 0 w = false := fun w => by simp [strayBits]
      rw [hzero]
      cases bufGet u.wb (s.wlen.toNat - 1) <;> cases bufGet s.wb (s.wlen.toNat - 1) <;> simp [hstray]
    · have hne : s.wlen.toNat ≠ wordsForBits s.bitlen.toNat := by simp only [wordsForBits]; omega
      simp [hne]

variable {t : State} (hcfg : u.cfg = s.cfg)
include hcfg

/-- PACKLE and PACKBE read MLEN and the characters of M below it. -/
theorem packCommand_of_sameReads {ord : ByteOrder} (hlen : u.mlen = s.mlen) (hm : SameBelow s.m u.m s.mlen.toNat)
    (h : packCommand ord s = .next t) :
    ∃ v, packCommand ord u = .next v ∧ SameBelow t.wb v.wb (wordsFor s.mlen.toNat) ∧ v.wlen = t.wlen
      ∧ v.bitlen = t.bitlen := by
  obtain ⟨hfits, cs, hcs, rfl⟩ := packCommand_next h
  have hfits' : packFits u = true := by rw [← hfits, packFits, packFits, hcfg, hlen]
  have hcs' : textM u = some cs := (textM_of_sameBelow hlen hm).trans hcs
  have hcount : (pack ord cs).length = wordsFor s.mlen.toNat := by rw [length_pack, (readAll_eq_some.1 hcs).1]
  refine ⟨finish (putPacked (pack ord cs) (8 * s.mlen.toNat) u), by simp [packCommand, hfits', hcs', hlen], ?_, rfl, rfl⟩
  exact sameBelow_bufOver _ s.wb u.wb hcount

/-- The rendering commands read WLEN and the words of WB below it. -/
theorem renderCommand_of_sameReads {f : List Word → List Byte} {size : Nat → Nat} (hsize : ∀ x, (f x).length = size x.length)
    (hlen : u.wlen = s.wlen) (hw : SameBelow s.wb u.wb s.wlen.toNat) (h : renderCommand f size s = .next t) :
    ∃ v, renderCommand f size u = .next v ∧ SameBelow (α := Byte) t.o v.o (size s.wlen.toNat) ∧ v.olen = t.olen := by
  obtain ⟨hin, hout, x, hx, rfl⟩ := renderCommand_next h
  have hx' : wordArray u = some x := (wordArray_of_sameBelow hlen hw).trans hx
  have hcount : (f x).length = size s.wlen.toNat := by rw [hsize, (readAll_eq_some.1 hx).1]
  refine ⟨finish (putText (f x) u), by simp [renderCommand, hcfg, hlen, hin, hout, hx'], ?_, rfl⟩
  exact sameBelow_bufOver _ _ _ hcount

/-- MD5CORE and SHA1CORE read WLEN, BITLEN and the words of WB below WLEN. -/
theorem coreCommand_of_sameReads {ord : ByteOrder} {core : List Word → Nat → List Word} {bits : Nat}
    (hlen : u.wlen = s.wlen) (hbits : u.bitlen = s.bitlen) (hw : SameBelow s.wb u.wb s.wlen.toNat)
    (h : coreCommand ord core bits s = .next t) :
    ∃ v, coreCommand ord core bits u = .next v ∧ SameWords t v := by
  obtain ⟨hcons, hin, hpad, x, hx, rfl⟩ := coreCommand_next h
  have hcons' : lengthsInconsistent ord u = false := (lengthsInconsistent_of_sameBelow ord hlen hbits hw).trans hcons
  have hx' : wordArray u = some x := (wordArray_of_sameBelow hlen hw).trans hx
  exact ⟨finish (putDigest (core x s.bitlen.toNat) bits u),
    by simp [coreCommand, hcons', hcfg, hlen, hbits, hin, hpad, hx'], rfl, rfl, rfl, rfl⟩

/-- HMACSHA1 reads KLEN, MLEN and the characters of K and M below them. -/
theorem execHmacsha1_of_sameReads (hklen : u.klen = s.klen) (hmlen : u.mlen = s.mlen)
    (hk : SameBelow s.k u.k s.klen.toNat) (hm : SameBelow s.m u.m s.mlen.toNat) (h : execHmacsha1 s = .next t) :
    ∃ v, execHmacsha1 u = .next v ∧ SameWords t v := by
  obtain ⟨hkfits, hdfits, key, data, hkey, hdata, rfl⟩ := execHmacsha1_next h
  have hkfits' : hmacKeyFits u = true := by rw [← hkfits, hmacKeyFits, hmacKeyFits, hcfg, hklen]
  have hdfits' : hmacDataFits u = true := by rw [← hdfits, hmacDataFits, hmacDataFits, hcfg, hmlen]
  have hkey' : textK u = some key := (textK_of_sameBelow hklen hk).trans hkey
  have hdata' : textM u = some data := (textM_of_sameBelow hmlen hm).trans hdata
  exact ⟨finish (putDigest (hmacSha1 key data) 160 u),
    by simp [execHmacsha1, hkfits', hdfits', hkey', hdata'], rfl, rfl, rfl, rfl⟩

end

/-- ROL32 reads X and Y. -/
theorem execRol32_of_sameReads {s u t : State} (hx : u.x = s.x) (hy : u.y = s.y) (h : execRol32 s = .next t) :
    ∃ v, execRol32 u = .next v ∧ v.r = t.r := by
  obtain ⟨hcount, rfl⟩ := execRol32_next h
  have hcount' : rotateCountBad u = false := by rw [← hcount, rotateCountBad, rotateCountBad, hy]
  exact ⟨finish (putResult (rol32 s.x s.y.toNat) u), by simp [execRol32, hcount', scalarCommand, hx, hy], rfl⟩

/-- ADD32 reads X and Y. -/
theorem execAdd32_of_sameReads {s u t : State} (hx : u.x = s.x) (hy : u.y = s.y) (h : execAdd32 s = .next t) :
    ∃ v, execAdd32 u = .next v ∧ v.r = t.r := by
  obtain rfl := scalarCommand_next h
  exact ⟨finish (putResult (add32 s.x s.y) u), by simp [execAdd32, scalarCommand, hx, hy], rfl⟩

/-- Settles O46 (00_scope.md R13), by the lemma of the shared operation behind each command. -/
theorem commandsReadOnlyWhatTheyName : Obligations.CommandsReadOnlyWhatTheyName := by
  intro i s u t hreads h
  cases i with
  | add32 => obtain ⟨-, hx, hy⟩ := hreads; exact execAdd32_of_sameReads hx hy h
  | rol32 => obtain ⟨-, hx, hy⟩ := hreads; exact execRol32_of_sameReads hx hy h
  | packle | packbe => obtain ⟨hcfg, hlen, hm⟩ := hreads; exact packCommand_of_sameReads hcfg hlen hm h
  | unpackle | unpackbe =>
    obtain ⟨hcfg, hlen, hw⟩ := hreads; exact renderCommand_of_sameReads hcfg (length_unpack _) hlen hw h
  | hexle | hexbe => obtain ⟨hcfg, hlen, hw⟩ := hreads; exact renderCommand_of_sameReads hcfg (length_hex _) hlen hw h
  | b64be => obtain ⟨hcfg, hlen, hw⟩ := hreads; exact renderCommand_of_sameReads hcfg length_b64be hlen hw h
  | md5core | sha1core =>
    obtain ⟨hcfg, hlen, hbits, hw⟩ := hreads; exact coreCommand_of_sameReads hcfg hlen hbits hw h
  | hmacsha1 =>
    obtain ⟨hcfg, hklen, hmlen, hk, hm⟩ := hreads; exact execHmacsha1_of_sameReads hcfg hklen hmlen hk hm h

end Sys2Proof.Machine
end

section
/-! PROOFS. Command words (30_encoding.md R71 to R74): every row of the opcode map has the mask of all ones and its own command's word
as its value, so decoding inverts encoding, and a word that is no command's selects no row. -/

namespace Sys2Proof

/-- The per-command laws of `Sys2Proof.Laws.Encoding` as one statement about every command. -/
theorem encoding_statement : ∀ i : Instr, Laws.Encoding.Statement i
  | .add32 => Laws.Encoding.add32
  | .rol32 => Laws.Encoding.rol32
  | .packle => Laws.Encoding.packle
  | .packbe => Laws.Encoding.packbe
  | .unpackle => Laws.Encoding.unpackle
  | .unpackbe => Laws.Encoding.unpackbe
  | .hexle => Laws.Encoding.hexle
  | .hexbe => Laws.Encoding.hexbe
  | .b64be => Laws.Encoding.b64be
  | .md5core => Laws.Encoding.md5core
  | .sha1core => Laws.Encoding.sha1core
  | .hmacsha1 => Laws.Encoding.hmacsha1

@[simp] theorem decode_encode (i : Instr) : decode (encode i) = .command i := by
  obtain ⟨-, -, -, h⟩ := encoding_statement i
  exact h

theorem opRows_mask_pattern : ∀ row ∈ opRows, row.mask = BitVec.allOnes 32 ∧ row.pattern = encode row.instr := by decide

/-- The order in which `decode` searches the rows does not matter: a row is selected by its own command's word alone. -/
theorem matchesRow_iff {c : Word} {row : OpRow} (hrow : row ∈ opRows) : matchesRow c row = true ↔ c = encode row.instr := by
  obtain ⟨hmask, hpattern⟩ := opRows_mask_pattern row hrow
  rw [matchesRow, hmask, hpattern, BitVec.and_allOnes, beq_iff_eq]

theorem eq_encode_of_decode {c : Word} {i : Instr} (h : decode c = .command i) : c = encode i := by
  unfold decode at h
  split at h
  case h_1 row hfind =>
    obtain rfl : row.instr = i := Decoded.command.inj h
    exact (matchesRow_iff (List.mem_of_find?_eq_some hfind)).1 (List.find?_some hfind)
  case h_2 => split at h <;> cases h

theorem decode_eq_command_iff {c : Word} {i : Instr} : decode c = .command i ↔ c = encode i :=
  ⟨eq_encode_of_decode, fun h => h ▸ decode_encode i⟩

theorem exists_row_of_instr (i : Instr) : ∃ row ∈ opRows, row.instr = i := by
  cases i <;> decide

theorem exists_eq_encode_iff {c : Word} :
    (∃ i, c = encode i) ↔ c.toNat ∈ opRows.map (fun row => (encode row.instr).toNat) := by
  rw [List.mem_map]
  constructor
  · rintro ⟨i, rfl⟩
    obtain ⟨row, hrow, rfl⟩ := exists_row_of_instr i
    exact ⟨row, hrow, rfl⟩
  · rintro ⟨row, -, hword⟩
    exact ⟨row.instr, BitVec.eq_of_toNat_eq hword.symm⟩

/-- The ZERO field (R71) is the quotient of the word by 2^8. -/
theorem zeroFieldOk_iff {c : Word} : zeroFieldOk c = true ↔ c.toNat / 256 = 0 := by
  have hquot : (c.extractLsb' 8 24).toNat = c.toNat / 256 := by
    rw [BitVec.extractLsb'_toNat, Nat.shiftRight_eq_div_pow]
    omega
  rw [zeroFieldOk, beq_iff_eq, ← BitVec.toNat_inj, hquot, BitVec.toNat_zero]

theorem decode_of_ne_encode {c : Word} (h : ∀ i, c ≠ encode i) :
    decode c = if zeroFieldOk c then .reserved (.opcode (c.setWidth 8)) else .reserved .zeroField := by
  have hnone : opRows.find? (matchesRow c) = none :=
    List.find?_eq_none.2 fun row hrow hmatch => h row.instr ((matchesRow_iff hrow).1 hmatch)
  rw [decode, hnone]

namespace Machine

/-- A write to CMD is a command issue (R70). -/
theorem hostWrite_cmd (c : Word) (s : State) : hostWrite .reg 0 c s = issue c s := if_pos ⟨rfl, rfl⟩

theorem issue_of_reserved {c : Word} {why : Reserved} (h : decode c = .reserved why) (s : State) :
    issue c s = .fault .illegalCommand := by
  rw [issue, h]

end Machine

/-- Settles O1 (30_encoding.md R72): decoding inverts encoding, and the rows' words are the twelve of the map. -/
theorem decodeIsExactlyTheOpcodeMap : Obligations.DecodeIsExactlyTheOpcodeMap := by
  refine ⟨fun _ _ => decode_eq_command_iff, fun c => ?_, by decide⟩
  simp only [decode_eq_command_iff]
  exact exists_eq_encode_iff

/-- Settles O3 (30_encoding.md R74): no row selects the word, so its ZERO field decides the reason, and either is IllegalCommand. -/
theorem reservedWordsAreIllegal : Obligations.ReservedWordsAreIllegal := by
  intro c hc
  have hzero : c.toNat / 256 ≠ 0 → decode c = .reserved .zeroField := fun h => by
    rw [decode_of_ne_encode hc, if_neg (zeroFieldOk_iff.not.2 h)]
  have hop : c.toNat / 256 = 0 → decode c = .reserved (.opcode (c.setWidth 8)) := fun h => by
    rw [decode_of_ne_encode hc, if_pos (zeroFieldOk_iff.2 h)]
  refine ⟨hzero, hop, fun s => ?_⟩
  rw [Machine.hostWrite_cmd]
  by_cases h : c.toNat / 256 = 0
  · exact Machine.issue_of_reserved (hop h) s
  · exact Machine.issue_of_reserved (hzero h) s

end Sys2Proof
end

section
/-! PROOFS. ADD32 and ROL32 (40_word_utilities.md R101, R103): the next state of the shared scalar operation and its frame. -/

namespace Sys2Proof.Machine

/-- ADD32 has one outcome, in every state. -/
theorem exec_add32 (s : State) : exec .add32 s = .next (finish (putResult (add32 s.x s.y) s)) := rfl

theorem exec_rol32 (s : State) : exec .rol32 s = execRol32 s := rfl

/-- Settles O8 (40_word_utilities.md R101). The second ADD32 reads the X and Y that the frame of the first one kept. -/
theorem add32Result : Obligations.Add32Result := by
  refine ⟨by decide, ?_⟩
  rintro s _ _ rfl rfl
  obtain ⟨hscalars, htexts, hwords, houtput, hhost, hrest⟩ := finish_putResult_frame s (add32 s.x s.y)
  exact ⟨_, exec_add32 s, BitVec.toNat_add _ _, hscalars, htexts, hwords, houtput, hhost, hrest, _, exec_add32 _, rfl⟩

/-- Settles O10 (40_word_utilities.md R103), by the two outcomes of ROL32. -/
theorem rol32Result : Obligations.Rol32Result := by
  refine ⟨by decide, ?_, fun s hcount => ?_⟩
  · rintro s _ _ rfl rfl hcount
    rcases execRol32_cases s with ⟨-, hnext⟩ | ⟨hbad, -⟩
    · exact ⟨_, (exec_rol32 s).trans hnext, rfl, finish_putResult_frame s _⟩
    · exact absurd hcount (Nat.not_le.2 hbad)
  · rcases execRol32_cases s with ⟨hok, -⟩ | ⟨-, hfault⟩
    · exact absurd hok (Nat.not_le.2 hcount)
    · exact (exec_rol32 s).trans hfault

end Sys2Proof.Machine
end

section
/-! PROOFS. The bytes of a packed text (20_memory.md R55 to R57; 40_word_utilities.md R104, R105): the lanes of two positions of a
word are the same or share no bit, so every byte of the stream of `pack` is the character's, and zero above the text. -/

namespace Sys2Proof.Machine

open Sys2Proof.Claims

/-- The lanes are the four bytes of a word. -/
theorem laneShift_bounds (ord : ByteOrder) (k : Nat) : laneShift ord k % 8 = 0 ∧ laneShift ord k ≤ 24 := by
  cases ord <;> simp only [laneShift] <;> omega

theorem laneShift_inj {ord : ByteOrder} {i j : Nat} : laneShift ord i = laneShift ord j ↔ i % 4 = j % 4 := by
  cases ord <;> simp only [laneShift] <;> omega

/-- The lane of a position is decided by its place in the word. -/
theorem byteAt_add_four (ord : ByteOrder) (w : Word) (k : Nat) : byteAt ord w (k + 4) = byteAt ord w k := by
  rw [byteAt, laneShift_inj.2 (Nat.add_mod_right k 4), byteAt]

@[simp] theorem byteAt_zero (ord : ByteOrder) (k : Nat) : byteAt ord 0#32 k = 0#8 := by
  simp [byteAt]

theorem byteAt_or (ord : ByteOrder) (v w : Word) (k : Nat) : byteAt ord (v ||| w) k = byteAt ord v k ||| byteAt ord w k := by
  rw [byteAt, BitVec.ushiftRight_or_distrib, BitVec.setWidth_or, byteAt, byteAt]

/-- A byte placed in a lane is read back there and leaves the other lanes zero. -/
theorem byteAt_placeByte (ord : ByteOrder) (i k : Nat) (b : Byte) :
    byteAt ord (placeByte ord i b) k = if i % 4 = k % 4 then b else 0 := by
  obtain ⟨hi, hi'⟩ := laneShift_bounds ord i
  obtain ⟨hk, hk'⟩ := laneShift_bounds ord k
  rw [byteAt, placeByte]
  simp only [← laneShift_inj (ord := ord)]
  generalize laneShift ord i = si at *
  generalize laneShift ord k = sk at *
  ext p hp
  rcases Nat.lt_trichotomy si sk with hbelow | rfl | habove
  · have hout : 8 ≤ sk + p - si := by omega
    simp [hbelow.ne, BitVec.getElem_setWidth, hout]
  · have hin : si + p < 32 := by omega
    simp [hp, BitVec.getElem_setWidth, hin, show p < 32 by omega]
  · have hout : sk + p < si := by omega
    simp [habove.ne', BitVec.getElem_setWidth, hout]

/-- The byte stream of a word array (20_memory.md R57) is made of the bytes of its words. -/
theorem streamByte_eq_byteAt (ord : ByteOrder) (x : List Word) (k : Nat) :
    streamByte ord x k = (byteAt ord (x.getD (k / 4) 0) k).toNat := by
  cases ord <;> simp [streamByte, byteAt, laneShift, Nat.shiftRight_eq_div_pow]

/-- The word of the first four characters of a text, a missing one counting as zero. -/
def groupWord (ord : ByteOrder) (t : List Word) : Word :=
  placeByte ord 0 (charByte (t.getD 0 0)) ||| placeByte ord 1 (charByte (t.getD 1 0))
    ||| placeByte ord 2 (charByte (t.getD 2 0)) ||| placeByte ord 3 (charByte (t.getD 3 0))

@[simp] theorem charByte_zero : charByte 0#32 = 0#8 := rfl

@[simp] theorem placeByte_zero (ord : ByteOrder) (k : Nat) : placeByte ord k 0#8 = 0#32 := by
  simp [placeByte]

/-- A short last group packs as if zero characters filled it, so every group packs alike. -/
theorem pack_cons_eq (ord : ByteOrder) (c : Word) (t : List Word) :
    pack ord (c :: t) = groupWord ord (c :: t) :: pack ord (t.drop 3) := by
  rcases t with _ | ⟨c1, _ | ⟨c2, _ | ⟨c3, t⟩⟩⟩ <;> simp [pack, groupWord]

theorem byteAt_groupWord (ord : ByteOrder) (t : List Word) {k : Nat} (hk : k < 4) :
    byteAt ord (groupWord ord t) k = charByte (t.getD k 0) := by
  simp only [groupWord, byteAt_or, byteAt_placeByte]
  interval_cases k <;> simp

/-- Byte `k` of a packed text is the low byte of character `k`, and zero where there is none. -/
theorem byteAt_pack (ord : ByteOrder) (t : List Word) (k : Nat) :
    byteAt ord ((pack ord t).getD (k / 4) 0) k = charByte (t.getD k 0) := by
  induction k using Nat.strong_induction_on generalizing t with
  | _ k ih =>
    cases t with
    | nil => simp [pack]
    | cons c t =>
      rw [pack_cons_eq]
      rcases Nat.lt_or_ge k 4 with hk | hk
      · rw [Nat.div_eq_of_lt hk]
        exact byteAt_groupWord ord (c :: t) hk
      · obtain ⟨j, rfl⟩ := Nat.exists_eq_add_of_le' hk
        have hrest := ih j (by omega) (t.drop 3)
        rw [byteAt_add_four, Nat.add_div_right j (by decide), List.getD_cons_succ, hrest, List.getD_cons_succ]
        simp [Nat.add_comm 3]

theorem streamByte_pack (ord : ByteOrder) (t : List Word) (k : Nat) :
    streamByte ord (pack ord t) k = (t.getD k 0).toNat % 256 := by
  rw [streamByte_eq_byteAt, byteAt_pack, charByte, BitVec.toNat_setWidth]

end Sys2Proof.Machine
end

section
/-! PROOFS. PACKLE and PACKBE (40_word_utilities.md R104, R105): the requires clause in the words of the shared pack operation, and
what its next state holds. -/

namespace Sys2Proof.Machine

open Sys2Proof.Claims

theorem exec_packInstr (ord : ByteOrder) (s : State) : exec (packInstr ord) s = packCommand ord s := by
  cases ord <;> rfl

theorem requires_packInstr_iff {ord : ByteOrder} {s : State} :
    Requires (packInstr ord) s ↔ packFits s = true ∧ HeldUpTo s.m s.mlen.toNat := by
  have hclause : Requires (packInstr ord) s ↔ Requires .packle s := by cases ord <;> rfl
  rw [hclause, packFits_iff, Requires, wordsFor]
  tauto

/-- Outside its requires clause a pack command is one of two faults. -/
theorem packCommand_fault {ord : ByteOrder} {s : State} (h : ¬ Requires (packInstr ord) s) :
    packCommand ord s = .fault .capacity ∨ packCommand ord s = .fault .readUnwritten := by
  rw [requires_packInstr_iff] at h
  rcases packCommand_cases ord s with ⟨hfits, cs, hcs, -⟩ | ⟨-, hfault⟩ | ⟨-, -, hfault⟩
  · exact absurd ⟨hfits, heldUpTo_iff.2 ⟨cs, hcs⟩⟩ h
  · exact .inl hfault
  · exact .inr hfault

/-- On its requires clause a pack command leaves the packed text. -/
theorem packCommand_of_requires {ord : ByteOrder} {s : State} (h : Requires (packInstr ord) s) :
    ∃ cs, textM s = some cs ∧ packCommand ord s = .next (finish (putPacked (pack ord cs) (8 * s.mlen.toNat) s)) := by
  obtain ⟨hfits, hheld⟩ := requires_packInstr_iff.1 h
  rcases packCommand_cases ord s with ⟨-, hnext⟩ | ⟨hover, -⟩ | ⟨-, hunheld, -⟩
  · exact hnext
  · simp [hfits] at hover
  · exact absurd hheld hunheld

/-- Settles O11 (40_word_utilities.md R104, R105), by the byte stream of `pack` and the next state of the pack operation. -/
theorem packResult : Obligations.PackResult := by
  refine ⟨by decide, by decide, fun ord s hreq => ?_, fun ord s hreq => ?_⟩
  · rw [exec_packInstr]
    exact packCommand_fault hreq
  · obtain ⟨cs, hcs, hnext⟩ := packCommand_of_requires hreq
    obtain ⟨hlen, -⟩ := readAll_eq_some.1 hcs
    obtain ⟨-, -, hbits⟩ := packFits_iff.1 (requires_packInstr_iff.1 hreq).1
    have hwords : (pack ord cs).length = (s.mlen.toNat + 3) / 4 := by rw [length_pack, hlen, wordsFor]
    refine ⟨_, cs, pack ord cs, (exec_packInstr ord s).trans hnext, hcs, hlen, hwords, ?_, ?_, readAll_bufOver _ _,
      fun k _ => streamByte_pack ord cs k, fun k hk _ => ?_, finish_putPacked_frame s _ _⟩
    · exact Nat.mod_eq_of_lt (by omega)
    · exact Nat.mod_eq_of_lt hbits
    · rw [streamByte_pack, List.getD_eq_default _ _ hk]
      rfl

end Sys2Proof.Machine
end

section
/-! PROOFS. Characters above 255 (40_word_utilities.md R106): packing sees a character's low 8 bits only, and the digests see a text
only through its packing and its length. -/

namespace Sys2Proof.Machine

/-- A change of characters that keeps their low bytes does not change the packing. -/
theorem pack_map (ord : ByteOrder) {f : Word → Word} (hf : ∀ c, charByte (f c) = charByte c) (t : List Word) :
    pack ord (t.map f) = pack ord t := by
  induction t using pack.induct with
  | case1 => rfl
  | case2 => simp [pack, hf]
  | case3 => simp [pack, hf]
  | case4 => simp [pack, hf]
  | case5 c0 c1 c2 c3 rest ih => simp [pack, hf, ih]

theorem charByte_and_low (c : Word) : charByte (c &&& 0xFF) = charByte c := by
  rw [charByte, BitVec.setWidth_and]
  exact BitVec.and_allOnes

theorem charByte_ofNat_mod (c : Word) : charByte (BitVec.ofNat 32 (c.toNat % 256)) = charByte c := by
  apply BitVec.eq_of_toNat_eq
  simp [charByte]

theorem pack_eq_of_mod_eq {t u : List Word} (h : t.map (fun c => c.toNat % 256) = u.map (fun c => c.toNat % 256))
    (ord : ByteOrder) : pack ord t = pack ord u := by
  have hlow : ∀ v : List Word, pack ord ((v.map (fun c => c.toNat % 256)).map (BitVec.ofNat 32)) = pack ord v := fun v => by
    rw [List.map_map]
    exact pack_map ord charByte_ofNat_mod v
  rw [← hlow t, h, hlow u]

/-- HMAC reads the key and the data through their packings and their lengths. -/
theorem hmacSha1_congr {key key' data data' : List Word} (hkey : pack .be key = pack .be key')
    (hklen : key.length = key'.length) (hdata : pack .be data = pack .be data') (hdlen : data.length = data'.length) :
    hmacSha1 key data = hmacSha1 key' data' := by
  have hbkey : hmacKey key = hmacKey key' := by simp only [hmacKey, hmacKeyWords, hkey, hklen]
  simp only [hmacSha1, hmacOpad, hmacInner, hmacIpad, hmacPad, hbkey, hdata, hdlen]

/-- Settles O13 (40_word_utilities.md R106). -/
theorem packTruncatesCharacters : Obligations.PackTruncatesCharacters := by
  refine ⟨fun ord t => pack_map ord charByte_and_low t, fun ord t u htu => ?_⟩
  have hpack := pack_eq_of_mod_eq htu
  have hlen : t.length = u.length := by simpa using congrArg List.length htu
  refine ⟨hpack ord, by rw [hpack, hlen], by rw [hpack, hlen], fun v w hvw => ?_⟩
  exact hmacSha1_congr (hpack .be) hlen (pack_eq_of_mod_eq hvw .be) (by simpa using congrArg List.length hvw)

end Sys2Proof.Machine
end

section
/-! PROOFS. Consistency of a word array and a bit length (41_md5.md R133): the test on the last word, bit by bit, and the engine's
test on WB as that of the array WB denotes. -/

namespace Sys2Proof.Machine

/-- A right shift loses the low bits only. -/
theorem ushiftRight_eq_zero_iff_getLsbD {w : Nat} {v : BitVec w} {r : Nat} :
    v >>> r = 0#w ↔ ∀ b, b < w - r → v.getLsbD (r + b) = false := by
  constructor
  · intro h b _
    rw [← BitVec.getLsbD_ushiftRight, h, BitVec.getLsbD_zero]
  · intro h
    apply BitVec.eq_of_getLsbD_eq
    intro b _
    rw [BitVec.getLsbD_ushiftRight, BitVec.getLsbD_zero]
    rcases Nat.lt_or_ge b (w - r) with hin | hout
    · exact h b hin
    · exact BitVec.getLsbD_of_ge v (r + b) (by omega)

/-- A left shift loses the high bits only. -/
theorem shiftLeft_eq_zero_iff_getLsbD {w : Nat} {v : BitVec w} {r : Nat} :
    v <<< r = 0#w ↔ ∀ b, b < w - r → v.getLsbD b = false := by
  constructor
  · intro h b hb
    have hbit : (v <<< r).getLsbD (r + b) = v.getLsbD b := by simp [show r + b < w by omega, -BitVec.getLsbD_eq_getElem]
    rw [← hbit, h, BitVec.getLsbD_zero]
  · intro h
    apply BitVec.eq_of_getLsbD_eq
    intro i hi
    rw [BitVec.getLsbD_shiftLeft, BitVec.getLsbD_zero]
    rcases Nat.lt_or_ge i r with hlow | hhigh
    · simp [hlow]
    · simp [h (i - r) (by omega)]

/-- In MD5's order the bits outside the message are the high ones. -/
theorem strayBits_le_eq_false_iff {len : Nat} {last : Word} : strayBits .le len last = false ↔
    (len % 32 ≠ 0 → ∀ b, b < 32 - len % 32 → last.getLsbD (len % 32 + b) = false) := by
  rw [← ushiftRight_eq_zero_iff_getLsbD]
  by_cases h : len % 32 = 0 <;> simp [strayBits, h]

/-- In SHA-1's order the bits outside the message are the low ones. -/
theorem strayBits_be_eq_false_iff {len : Nat} {last : Word} : strayBits .be len last = false ↔
    (len % 32 ≠ 0 → ∀ b, b < 32 - len % 32 → last.getLsbD b = false) := by
  rw [← shiftLeft_eq_zero_iff_getLsbD]
  by_cases h : len % 32 = 0 <;> simp [strayBits, h]

theorem consistent_iff {ord : ByteOrder} {x : List Word} {len : Nat} : consistent ord x len = true ↔
    len % 8 = 0 ∧ x.length = (len + 31) / 32 ∧ strayBits ord len (x.getLastD 0) = false := by
  simp only [consistent, Bool.and_eq_true, decide_eq_true_eq, Bool.not_eq_true', and_assoc]
  rw [wordsForBits]

/-- The empty message has no last word, and whatever stands in its place has no stray bit. -/
theorem strayBits_zero (ord : ByteOrder) (w : Word) : strayBits ord 0 w = false := rfl

/-- Where every word in use holds a value, the engine's test is the test of the array: it looks at the array's last word, or, with
WLEN 0, at an element that decides nothing. -/
theorem lengthsInconsistent_eq_not_consistent {s : State} {x : List Word} (hx : wordArray s = some x) (ord : ByteOrder) :
    lengthsInconsistent ord s = !consistent ord x s.bitlen.toNat := by
  obtain ⟨hlen, hget⟩ := readAll_eq_some.1 hx
  simp only [lengthsInconsistent, consistent, hlen, Bool.not_and, Bool.not_not]
  rcases Nat.eq_zero_or_pos s.wlen.toNat with hempty | hpos
  · by_cases hbits : s.bitlen.toNat = 0
    · simp only [hbits, strayBits_zero]
      cases bufGet s.wb (s.wlen.toNat - 1) <;> rfl
    · have hcount : s.wlen.toNat ≠ wordsForBits s.bitlen.toNat := by rw [wordsForBits]; omega
      simp [hcount]
  · have hlast : x[s.wlen.toNat - 1]? = some (x.getLastD 0) := by
      rw [← hlen, ← List.getLast?_eq_getElem?, List.getLastD_eq_getLast?]
      cases x with
      | nil => exact absurd hlen hpos.ne
      | cons w ws => simp [List.getLast?_cons]
    rw [hget _ (by omega), hlast]

/-- Any core command takes an inconsistent pair as the fault of R133. -/
theorem coreCommand_inconsistent {ord : ByteOrder} {s : State} {x : List Word} (hx : wordArray s = some x)
    (hcons : consistent ord x s.bitlen.toNat = false) (core : List Word → Nat → List Word) (bits : Nat) :
    coreCommand ord core bits s = .fault .inconsistentLength := by
  have htest : lengthsInconsistent ord s = true := by rw [lengthsInconsistent_eq_not_consistent hx, hcons]; rfl
  rw [coreCommand, if_pos htest]

theorem exec_md5core (s : State) : exec .md5core s = coreCommand .le md5Core 128 s := rfl

theorem exec_sha1core (s : State) : exec .sha1core s = coreCommand .be sha1Core 160 s := rfl

/-- Settles O21 (41_md5.md R133), by the bits a shift keeps and the engine's test as that of the array. -/
theorem consistencyOfLengths : Obligations.ConsistencyOfLengths := by
  refine ⟨fun ord x len => ?_, fun ord s x hx hcons => ?_⟩
  · rw [consistent_iff]
    cases ord with
    | le => rw [strayBits_le_eq_false_iff]
    | be => rw [strayBits_be_eq_false_iff]
  · cases ord with
    | le => exact (exec_md5core s).trans (coreCommand_inconsistent hx hcons md5Core 128)
    | be => exact (exec_sha1core s).trans (coreCommand_inconsistent hx hcons sha1Core 160)

end Sys2Proof.Machine
end

section
/-! PROOFS. The requires clause and the outcomes shared by MD5CORE and SHA1CORE (41_md5.md R140; 42_sha1.md R160). -/

namespace Sys2Proof.Machine

open Sys2Proof.Claims

theorem requires_coreInstr_iff {ord : ByteOrder} {s : State} : Requires (coreInstr ord) s ↔
    (∃ x, wordArray s = some x ∧ consistent ord x s.bitlen.toNat = true)
      ∧ WithinCap (padLength s.bitlen.toNat) s.cfg.wcap := by
  cases ord <;> rfl

theorem length_le_padLength_of_consistent {ord : ByteOrder} {x : List Word} {len : Nat} (h : consistent ord x len = true) :
    x.length ≤ padLength len := by
  obtain ⟨-, hlen, -⟩ := consistent_iff.1 h
  have := padLength_room len
  omega

/-- The word array is no longer than its padded stream, so room for the stream is room for the array. -/
theorem withinCap_wlen {ord : ByteOrder} {s : State} {x : List Word} (hx : wordArray s = some x)
    (hcons : consistent ord x s.bitlen.toNat = true) (hcap : WithinCap (padLength s.bitlen.toNat) s.cfg.wcap) :
    WithinCap s.wlen.toNat s.cfg.wcap := fun c hc => by
  obtain ⟨hlen, -⟩ := readAll_eq_some.1 hx
  exact hlen ▸ (length_le_padLength_of_consistent hcons).trans (hcap c hc)

section
variable (core : List Word → Nat → List Word) (bits : Nat)

theorem coreCommand_over_capacity {ord : ByteOrder} {s : State} {x : List Word} (hx : wordArray s = some x)
    (hcons : consistent ord x s.bitlen.toNat = true) (hcap : ¬ WithinCap (padLength s.bitlen.toNat) s.cfg.wcap) :
    coreCommand ord core bits s = .fault .capacity := by
  have htest := lengthsInconsistent_eq_not_consistent hx ord
  rcases coreCommand_cases ord core bits s with ⟨hbad, -⟩ | ⟨-, -, hfault⟩ | ⟨-, ⟨-, hroom⟩, -⟩
  · simp [htest, hcons] at hbad
  · exact hfault
  · exact absurd hroom hcap

/-- On its requires clause a core command leaves the digest. -/
theorem coreCommand_of_requires {ord : ByteOrder} {s : State} (h : Requires (coreInstr ord) s) :
    ∃ x, wordArray s = some x ∧ coreCommand ord core bits s = .next (finish (putDigest (core x s.bitlen.toNat) bits s)) := by
  obtain ⟨⟨x, hx, hcons⟩, hcap⟩ := requires_coreInstr_iff.1 h
  have htest := lengthsInconsistent_eq_not_consistent hx ord
  rcases coreCommand_cases ord core bits s with ⟨hbad, -⟩ | ⟨-, hover, -⟩ | ⟨-, -, ⟨hunheld, -⟩ | hnext⟩
  · simp [htest, hcons] at hbad
  · exact absurd ⟨withinCap_wlen hx hcons hcap, hcap⟩ hover
  · exact absurd (heldUpTo_iff.2 ⟨x, hx⟩) hunheld
  · exact hnext

/-- Outside its requires clause a core command is one of three faults. -/
theorem coreCommand_fault {ord : ByteOrder} {s : State} (h : ¬ Requires (coreInstr ord) s) :
    coreCommand ord core bits s = .fault .inconsistentLength ∨ coreCommand ord core bits s = .fault .capacity
      ∨ coreCommand ord core bits s = .fault .readUnwritten := by
  rcases coreCommand_cases ord core bits s with ⟨-, hfault⟩ | ⟨-, -, hfault⟩ | ⟨hgood, ⟨-, hroom⟩, ⟨-, hfault⟩ | ⟨x, hx, -⟩⟩
  · exact .inl hfault
  · exact .inr (.inl hfault)
  · exact .inr (.inr hfault)
  · rw [lengthsInconsistent_eq_not_consistent hx, Bool.not_eq_false'] at hgood
    exact absurd (requires_coreInstr_iff.2 ⟨⟨x, hx, hgood⟩, hroom⟩) h

end

/-- A list as a buffer holds nothing above the list. -/
theorem noneFrom_bufOfList {α : Type} (vs : List α) : NoneFrom (bufOfList vs) vs.length := fun k hk => by
  rw [bufGet_bufOfList, List.getElem?_eq_none hk]

/-- Settles O28 (41_md5.md R140), by the outcomes of the shared core command and what a written digest leaves. -/
theorem md5CoreResult : Obligations.Md5CoreResult := by
  refine ⟨by decide, fun s hreq => ?_, fun s hreq => ?_⟩
  · rw [exec_md5core]
    exact coreCommand_fault md5Core 128 (ord := .le) hreq
  · obtain ⟨x, hx, hnext⟩ := coreCommand_of_requires md5Core 128 (ord := .le) hreq
    exact ⟨_, x, (exec_md5core s).trans hnext, hx, readAll_bufOfList (md5Core x s.bitlen.toNat),
      noneFrom_bufOfList (md5Core x s.bitlen.toNat), rfl, rfl, finish_putDigest_frame s _ _⟩

end Sys2Proof.Machine
end

section
/-! PROOFS. The padded stream word by word (41_md5.md R134; 42_sha1.md section 3): the message extended by zeros, with the marker
OR-ed into one word and the length stored over another. -/

namespace Sys2Proof.Machine

/-- The message words are those of the array, and zero above it. -/
theorem getElem?_append_zeros {x : List Word} {n i : Nat} (hi : i < n) :
    (x ++ List.replicate (n - x.length) 0)[i]? = some (x.getD i 0) := by
  rcases Nat.lt_or_ge i x.length with hin | hout
  · simp [List.getElem?_append_left, hin]
  · have hzero : i - x.length < n - x.length := by omega
    simp [List.getElem?_append_right hout, hzero, List.getElem?_eq_none hout]

/-- The length word is stored last, over whatever stood at its place. -/
theorem getD_padStream (ord : ByteOrder) {x : List Word} {len i : Nat} (hi : i < padLength len) :
    (padStream ord x len).getD i 0 =
      if i = padLength len - lengthFromEnd ord then BitVec.ofNat 32 len
      else if i = len / 32 then x.getD i 0 ||| ((0x80 : Word) <<< markerShift ord len)
      else x.getD i 0 := by
  have hword := getElem?_append_zeros (x := x) hi
  have hin : i < x.length + (padLength len - x.length) := by omega
  have hmark : len >>> 5 = len / 32 := Nat.shiftRight_eq_div_pow len 5
  rw [padStream, hmark, List.getD_eq_getElem?_getD, List.getElem?_set, List.getElem?_modify, hword]
  rcases eq_or_ne i (padLength len - lengthFromEnd ord) with rfl | hlength
  · simp [hin]
  · rcases eq_or_ne i (len / 32) with rfl | hmarker
    · simp [hlength, hlength.symm]
    · simp [hlength, hlength.symm, hmarker, hmarker.symm]

theorem padLength_mod_sixteen (len : Nat) : padLength len % 16 = 0 := by
  rw [padLength_eq, Nat.mul_mod_right]

/-- Settles O23 (41_md5.md R134). -/
theorem md5PadLayout : Obligations.Md5PadLayout := by
  refine ⟨fun s x hx hcons hcap => ?_, fun x len hcons => ?_⟩
  · exact (exec_md5core s).trans (coreCommand_over_capacity md5Core 128 hx hcons hcap)
  · have hlen := length_padStream (ord := .le) (length_le_padLength_of_consistent hcons)
    exact ⟨hlen, by rw [hlen, padLength_mod_sixteen], fun i hi => getD_padStream .le hi⟩

end Sys2Proof.Machine
end

section
/-! PROOFS. SHA-1's message schedule (42_sha1.md R155): the engine adds words to a list kept newest first, and every word it adds is
the rule's word of the ones before it. -/

namespace Sys2Proof.Machine

/-- The rule's word at `j`, from the words before it, oldest first (R155). -/
def expandedWord (w : List Word) (j : Nat) : Word :=
  rol32 (w.getD (j - 3) 0 ^^^ w.getD (j - 8) 0 ^^^ w.getD (j - 14) 0 ^^^ w.getD (j - 16) 0) 1

/-- From the 17th word on, a list follows the expansion rule (R155). -/
def FollowsExpansion (w : List Word) : Prop := ∀ j, 16 ≤ j → j < w.length → w.getD j 0 = expandedWord w j

/-- Counting back from the newest word is counting from the oldest one. -/
theorem getD_newestFirst {acc : List Word} {k : Nat} (hk : k < acc.length) :
    acc.getD k 0 = acc.reverse.getD (acc.length - (k + 1)) 0 := by
  have hback : acc.length - 1 - (acc.length - (k + 1)) = k := by omega
  rw [List.getD_eq_getElem?_getD, List.getD_eq_getElem?_getD, List.getElem?_reverse (by omega), hback]

theorem sha1Next_eq_expandedWord {acc : List Word} (hlen : 16 ≤ acc.length) :
    sha1Next acc = expandedWord acc.reverse acc.length := by
  rw [sha1Next, getD_newestFirst (k := 2) (by omega), getD_newestFirst (k := 7) (by omega),
    getD_newestFirst (k := 13) (by omega), getD_newestFirst (k := 15) (by omega), expandedWord]

/-- The rule's word at `j` looks only at words before `j`. -/
theorem expandedWord_append {w : List Word} {j : Nat} (h16 : 16 ≤ j) (hj : j ≤ w.length) (u : List Word) :
    expandedWord (w ++ u) j = expandedWord w j := by
  rw [expandedWord, List.getD_append _ _ _ _ (by omega), List.getD_append _ _ _ _ (by omega),
    List.getD_append _ _ _ _ (by omega), List.getD_append _ _ _ _ (by omega), expandedWord]

theorem followsExpansion_of_length_le {w : List Word} (hlen : w.length ≤ 16) : FollowsExpansion w :=
  fun j h16 hj => by omega

theorem followsExpansion_append_expandedWord {w : List Word} (hw : FollowsExpansion w) :
    FollowsExpansion (w ++ [expandedWord w w.length]) := fun j h16 hj => by
  have hle : j ≤ w.length := by simp at hj; omega
  rw [expandedWord_append h16 hle]
  rcases hle.lt_or_eq with hold | rfl
  · rw [List.getD_append _ _ _ _ hold, hw j h16 hold]
  · simp

/-- Every extension of a list that follows the rule follows it. -/
theorem followsExpansion_sha1Extend (n : Nat) {acc : List Word} (hlen : 16 ≤ acc.length)
    (hacc : FollowsExpansion acc.reverse) : FollowsExpansion (sha1Extend n acc).reverse := by
  induction n generalizing acc with
  | zero => exact hacc
  | succ n ih =>
    refine ih (acc := sha1Next acc :: acc) (by simp; omega) ?_
    have hnext := followsExpansion_append_expandedWord hacc
    rwa [List.length_reverse, ← sha1Next_eq_expandedWord hlen, ← List.reverse_cons] at hnext

theorem suffix_sha1Extend (n : Nat) (acc : List Word) : acc <:+ sha1Extend n acc := by
  induction n generalizing acc with
  | zero => exact List.suffix_rfl
  | succ n ih => exact (List.suffix_cons _ acc).trans (ih _)

/-- A schedule is its block and then the words added. -/
theorem exists_sha1Schedule_eq_append (blk : List Word) : ∃ added, sha1Schedule blk = blk ++ added := by
  obtain ⟨newest, hnewest⟩ := suffix_sha1Extend 64 blk.reverse
  exact ⟨newest.reverse, by rw [sha1Schedule, ← hnewest, List.reverse_append, List.reverse_reverse]⟩

theorem length_sha1Schedule (blk : List Word) : (sha1Schedule blk).length = 64 + blk.length := by
  simp [sha1Schedule, length_sha1Extend]

theorem followsExpansion_sha1Schedule {blk : List Word} (hblk : blk.length = 16) : FollowsExpansion (sha1Schedule blk) :=
  followsExpansion_sha1Extend 64 (by simp [hblk]) (followsExpansion_of_length_le (by simp [hblk]))

/-- Settles O29 (42_sha1.md R155): the schedule begins with the block, and every word added follows the rule. -/
theorem sha1ScheduleExpansion : Obligations.Sha1ScheduleExpansion := fun blk hblk => by
  have hlen : (sha1Schedule blk).length = 80 := by rw [length_sha1Schedule, hblk]
  refine ⟨hlen, fun j hj => ?_, fun j h16 hj => followsExpansion_sha1Schedule hblk j h16 (by omega)⟩
  obtain ⟨added, hadded⟩ := exists_sha1Schedule_eq_append blk
  rw [hadded, List.getD_append _ _ _ _ (by omega)]

end Sys2Proof.Machine
end

section
/-! PROOFS. One SHA-1 block (42_sha1.md R156 to R158): the registers after each step, and the rule of a step in the words of its
range. -/

namespace Sys2Proof.Machine

/-- The registers after steps 0 to `n - 1` on a schedule (R158). -/
def sha1StepsTo (w : List Word) (r : Regs) (n : Nat) : Regs :=
  (List.range n).foldl (fun r j => sha1Step (w.getD j 0) r j) r

@[simp] theorem sha1StepsTo_zero (w : List Word) (r : Regs) : sha1StepsTo w r 0 = r := rfl

theorem sha1StepsTo_succ (w : List Word) (r : Regs) (n : Nat) :
    sha1StepsTo w r (n + 1) = sha1Step (w.getD n 0) (sha1StepsTo w r n) n := by
  simp [sha1StepsTo, List.range_succ]

theorem sha1Steps_eq_sha1StepsTo (w : List Word) (r : Regs) : sha1Steps w r = sha1StepsTo w r 80 := rfl

/-- The function of a step: Choice, Parity, Majority, Parity again (R156). -/
theorem sha1Func_eq (j : Nat) (b c d : Word) : sha1Func j b c d =
    if j < 20 then (b &&& c) ||| (~~~b &&& d)
    else if 40 ≤ j ∧ j < 60 then (b &&& c) ||| (b &&& d) ||| (c &&& d)
    else b ^^^ c ^^^ d := by
  simp only [sha1Func, Nat.lt_succ_iff]
  by_cases hparity : j ≤ 39
  · have hbelow : ¬ 40 ≤ j := by omega
    simp [hparity, hbelow]
  · have hfrom : 40 ≤ j := by omega
    simp [hparity, hfrom]

/-- The constant of a step (R156). -/
theorem sha1Const_eq (j : Nat) : sha1Const j =
    if j < 20 then 0x5A827999 else if j < 40 then 0x6ED9EBA1 else if j < 60 then 0x8F1BBCDC else 0xCA62C1D6 := by
  simp only [sha1Const, Nat.lt_succ_iff]

/-- Settles O30 (42_sha1.md R156 to R158), with the registers after each step as the sequence. -/
theorem sha1BlockFollowsTheRules : Obligations.Sha1BlockFollowsTheRules := fun blk r => by
  refine ⟨sha1StepsTo (sha1Schedule blk) r, sha1StepsTo_zero _ r, fun j _ => ?_, ?_⟩
  · rw [sha1StepsTo_succ, ← sha1Func_eq, ← sha1Const_eq]
    exact ⟨rfl, rfl, rfl, rfl, rfl⟩
  · rw [sha1Block, sha1Steps_eq_sha1StepsTo]
    rfl

end Sys2Proof.Machine
end

section
/-! PROOFS. SHA1CORE (42_sha1.md R160). -/

namespace Sys2Proof.Machine

/-- Settles O32 (42_sha1.md R160), by the outcomes of the shared core command and what a written digest leaves. -/
theorem sha1CoreResult : Obligations.Sha1CoreResult := by
  refine ⟨by decide, fun s hreq => ?_, fun s hreq => ?_⟩
  · rw [exec_sha1core]
    exact coreCommand_fault sha1Core 160 (ord := .be) hreq
  · obtain ⟨x, hx, hnext⟩ := coreCommand_of_requires sha1Core 160 (ord := .be) hreq
    exact ⟨_, x, (exec_sha1core s).trans hnext, hx, readAll_bufOfList (sha1Core x s.bitlen.toNat),
      noneFrom_bufOfList (sha1Core x s.bitlen.toNat), rfl, rfl, finish_putDigest_frame s _ _⟩

end Sys2Proof.Machine
end

section
/-! PROOFS. HMACSHA1 (43_hmac_sha1.md R177): the requires clause as the key's and the data's share of the engine's test, and the
outcomes on and off it. -/

namespace Sys2Proof.Machine

theorem exec_hmacsha1 (s : State) : exec .hmacsha1 s = execHmacsha1 s := rfl

/-- The room and the bit length of the key's own hash are asked of a long key only (R171, R176). -/
theorem hmacKeyFits_iff {s : State} : hmacKeyFits s = true ↔
    WithinCap s.klen.toNat s.cfg.kcap
      ∧ (64 < s.klen.toNat →
          8 * s.klen.toNat < 2 ^ 32 ∧ WithinCap (padLength (8 * s.klen.toNat)) s.cfg.wcap) := by
  simp only [hmacKeyFits, Bool.and_eq_true, Bool.or_eq_true, capFits_iff_withinCap, decide_eq_true_eq,
    or_iff_not_imp_left, Nat.not_le]

theorem hmacDataFits_iff {s : State} : hmacDataFits s = true ↔
    WithinCap s.mlen.toNat s.cfg.mcap ∧ 512 + 8 * s.mlen.toNat < 2 ^ 32
      ∧ WithinCap (padLength (512 + 8 * s.mlen.toNat)) s.cfg.wcap := by
  simp only [hmacDataFits, Bool.and_eq_true, capFits_iff_withinCap, decide_eq_true_eq, and_assoc]

theorem requires_hmacsha1_iff {s : State} : Requires .hmacsha1 s ↔
    (hmacKeyFits s && hmacDataFits s) = true ∧ HeldUpTo s.k s.klen.toNat ∧ HeldUpTo s.m s.mlen.toNat := by
  rw [Bool.and_eq_true, hmacKeyFits_iff, hmacDataFits_iff, Requires, padLength, padLength]
  tauto

/-- Outside its requires clause HMACSHA1 is one of two faults. -/
theorem execHmacsha1_fault {s : State} (h : ¬ Requires .hmacsha1 s) :
    execHmacsha1 s = .fault .capacity ∨ execHmacsha1 s = .fault .readUnwritten := by
  rw [requires_hmacsha1_iff] at h
  rcases execHmacsha1_cases s with ⟨hfits, key, data, hkey, hdata, -⟩ | ⟨-, hfault⟩ | ⟨-, -, hfault⟩
  · exact absurd ⟨hfits, heldUpTo_iff.2 ⟨key, hkey⟩, heldUpTo_iff.2 ⟨data, hdata⟩⟩ h
  · exact .inl hfault
  · exact .inr hfault

/-- On its requires clause HMACSHA1 leaves the HMAC of the key and the data. -/
theorem execHmacsha1_of_requires {s : State} (h : Requires .hmacsha1 s) :
    ∃ key data, textK s = some key ∧ textM s = some data
      ∧ execHmacsha1 s = .next (finish (putDigest (hmacSha1 key data) 160 s)) := by
  obtain ⟨hfits, hheld⟩ := requires_hmacsha1_iff.1 h
  rcases execHmacsha1_cases s with ⟨-, hnext⟩ | ⟨hover, -⟩ | ⟨-, hunheld, -⟩
  · exact hnext
  · simp [hfits] at hover
  · exact absurd hheld hunheld

/-- Settles O35 (43_hmac_sha1.md R177), by the outcomes of the command and what a written digest leaves. -/
theorem hmacResult : Obligations.HmacResult := by
  refine ⟨by decide, fun s hreq => ?_, fun s hreq => ?_⟩
  · rw [exec_hmacsha1]
    exact execHmacsha1_fault hreq
  · obtain ⟨key, data, hkey, hdata, hnext⟩ := execHmacsha1_of_requires hreq
    exact ⟨_, key, data, (exec_hmacsha1 s).trans hnext, hkey, hdata, readAll_bufOfList (hmacSha1 key data),
      noneFrom_bufOfList (hmacSha1 key data), rfl, rfl, finish_putDigest_frame s _ _⟩

end Sys2Proof.Machine
end

section
/-! PROOFS. Capacities (60_exceptions.md R203): what a completed command wrote fits, the fault reason Capacity is lengths that do not
fit, and unbounded capacities leave the limit of a bit length as the one way not to. -/

namespace Sys2Proof.Machine

open Sys2Proof.Claims

theorem withinCap_of_le {m n : Nat} {cap : Option Nat} (h : WithinCap n cap) (hm : m ≤ n) : WithinCap m cap :=
  fun c hc => hm.trans (h c hc)

theorem withinCap_of_unbounded {cap : Option Nat} (h : cap = none) (n : Nat) : WithinCap n cap := fun c hc => by
  simp [h] at hc

/-- A list write fills its buffer as far as a length that counts no more than the list. -/
theorem heldUpTo_of_readAll {α : Type} {b : Buffer α} {vs : List α} {n : Nat} (h : readAll b vs.length = some vs)
    (hn : n ≤ vs.length) : HeldUpTo b n :=
  fun k hk => heldUpTo_iff.2 ⟨vs, h⟩ k (hk.trans_le hn)

/-- A command that changed a buffer from `b` to `c` left in it as many elements as its length register counts, all within the
capacity, and it put no element above the capacity. -/
def WrittenWithin {α : Type} (cap : Option Nat) (b c : Buffer α) (n : Nat) : Prop :=
  (c ≠ b → WithinCap n cap ∧ HeldUpTo c n) ∧ (indicesFit cap b → indicesFit cap c)

theorem writtenWithin_refl {α : Type} (cap : Option Nat) (b : Buffer α) (n : Nat) : WrittenWithin cap b b n :=
  ⟨fun hne => absurd rfl hne, id⟩

section
variable {α : Type} {cap : Option Nat} {vs : List α} {n : Nat} (hcap : WithinCap vs.length cap) (hn : n ≤ vs.length)
include hcap hn

theorem writtenWithin_bufOver (b : Buffer α) : WrittenWithin cap b (bufOver vs b) n :=
  ⟨fun _ => ⟨withinCap_of_le hcap hn, heldUpTo_of_readAll (readAll_bufOver vs b) hn⟩,
    fun hb e he => (mem_bufOver he).elim (indexFits_of_lt (capFits_iff_withinCap.2 hcap)) (hb e)⟩

theorem writtenWithin_bufOfList (b : Buffer α) : WrittenWithin cap b (bufOfList vs) n :=
  ⟨fun _ => ⟨withinCap_of_le hcap hn, heldUpTo_of_readAll (readAll_bufOfList vs) hn⟩,
    fun _ _ he => indexFits_of_lt (capFits_iff_withinCap.2 hcap) (mem_bufOfList he)⟩

end

/-- WB and O, the buffers a command writes. -/
def WritesWithinCaps (s t : State) : Prop :=
  WrittenWithin s.cfg.wcap s.wb t.wb t.wlen.toNat ∧ WrittenWithin (α := Byte) s.cfg.ocap s.o t.o t.olen.toNat

theorem writesWithinCaps_finish_putResult (v : Word) (s : State) : WritesWithinCaps s (finish (putResult v s)) :=
  ⟨writtenWithin_refl _ _ _, writtenWithin_refl _ _ _⟩

/-- WLEN, the count modulo 2^32, is never above the number of words written. -/
theorem writesWithinCaps_finish_putPacked {ws : List Word} {s : State} (h : WithinCap ws.length s.cfg.wcap) (bits : Nat) :
    WritesWithinCaps s (finish (putPacked ws bits s)) :=
  ⟨writtenWithin_bufOver h (Nat.mod_le _ _) _, writtenWithin_refl _ _ _⟩

theorem writesWithinCaps_finish_putDigest {ws : List Word} {s : State} (h : WithinCap ws.length s.cfg.wcap) (bits : Nat) :
    WritesWithinCaps s (finish (putDigest ws bits s)) :=
  ⟨writtenWithin_bufOfList h (Nat.mod_le _ _) _, writtenWithin_refl _ _ _⟩

/-- OLEN is never above the number of bytes written, also where the spec leaves it open (log entry 6). -/
theorem writesWithinCaps_finish_putText {bs : List Byte} {s : State} (h : WithinCap bs.length s.cfg.ocap) :
    WritesWithinCaps s (finish (putText bs s)) :=
  ⟨writtenWithin_refl _ _ _, writtenWithin_bufOver h (countReg_le _) _⟩

section
variable {s t : State}

theorem packCommand_writesWithinCaps {ord : ByteOrder} (h : packCommand ord s = .next t) : WritesWithinCaps s t := by
  obtain ⟨hfits, cs, hcs, rfl⟩ := packCommand_next h
  obtain ⟨-, hroom, -⟩ := packFits_iff.1 hfits
  refine writesWithinCaps_finish_putPacked ?_ _
  rwa [length_pack, (readAll_eq_some.1 hcs).1]

theorem renderCommand_writesWithinCaps {f : List Word → List Byte} {size : Nat → Nat}
    (hsize : ∀ x, (f x).length = size x.length) (h : renderCommand f size s = .next t) : WritesWithinCaps s t := by
  obtain ⟨-, hroom, x, hx, rfl⟩ := renderCommand_next h
  refine writesWithinCaps_finish_putText ?_
  rwa [hsize, (readAll_eq_some.1 hx).1, ← capFits_iff_withinCap]

/-- Room for a padded stream is room for a digest. -/
theorem withinCap_of_padLength {n len : Nat} {cap : Option Nat} (h : WithinCap (padLength len) cap) (hn : n ≤ 16) :
    WithinCap n cap :=
  withinCap_of_le h (hn.trans (sixteen_le_padLength len))

theorem coreCommand_writesWithinCaps {ord : ByteOrder} {core : List Word → Nat → List Word} {bits : Nat}
    (hsize : ∀ x len, (core x len).length ≤ 16) (h : coreCommand ord core bits s = .next t) : WritesWithinCaps s t := by
  obtain ⟨-, -, hroom, x, -, rfl⟩ := coreCommand_next h
  exact writesWithinCaps_finish_putDigest (withinCap_of_padLength (capFits_iff_withinCap.1 hroom) (hsize x _)) _

theorem execHmacsha1_writesWithinCaps (h : execHmacsha1 s = .next t) : WritesWithinCaps s t := by
  obtain ⟨-, hdata, key, data, -, -, rfl⟩ := execHmacsha1_next h
  obtain ⟨-, -, hroom⟩ := hmacDataFits_iff.1 hdata
  exact writesWithinCaps_finish_putDigest (withinCap_of_padLength hroom (by simp)) _

theorem exec_writesWithinCaps {i : Instr} (h : exec i s = .next t) : WritesWithinCaps s t := by
  cases i with
  | add32 => obtain rfl := scalarCommand_next h; exact writesWithinCaps_finish_putResult _ s
  | rol32 => obtain ⟨-, rfl⟩ := execRol32_next h; exact writesWithinCaps_finish_putResult _ s
  | packle | packbe => exact packCommand_writesWithinCaps h
  | unpackle | unpackbe => exact renderCommand_writesWithinCaps (length_unpack _) h
  | hexle | hexbe => exact renderCommand_writesWithinCaps (length_hex _) h
  | b64be => exact renderCommand_writesWithinCaps length_b64be h
  | md5core => exact coreCommand_writesWithinCaps (fun x len => by simp) h
  | sha1core => exact coreCommand_writesWithinCaps (fun x len => by simp) h
  | hmacsha1 => exact execHmacsha1_writesWithinCaps h

end

theorem lengthsFit_packInstr_iff {ord : ByteOrder} {s : State} : LengthsFit (packInstr ord) s ↔ packFits s = true := by
  rw [packFits_iff]
  cases ord <;> rfl

theorem lengthsFit_hmacsha1_iff {s : State} : LengthsFit .hmacsha1 s ↔ (hmacKeyFits s && hmacDataFits s) = true := by
  rw [Bool.and_eq_true, hmacKeyFits_iff, hmacDataFits_iff, LengthsFit, padLength, padLength]
  tauto

/-- A pack command is the fault Capacity exactly when its lengths do not fit. -/
theorem packCommand_eq_capacity_iff {ord : ByteOrder} {s : State} :
    packCommand ord s = .fault .capacity ↔ ¬ LengthsFit (packInstr ord) s := by
  rw [lengthsFit_packInstr_iff]
  rcases packCommand_cases ord s with ⟨hfits, cs, -, hnext⟩ | ⟨hover, hfault⟩ | ⟨hfits, -, hfault⟩
  · simp [hfits, hnext]
  · simp [hover, hfault]
  · simp [hfits, hfault]

/-- A rendering command is the fault Capacity exactly when its words or its text do not fit. -/
theorem renderCommand_eq_capacity_iff {f : List Word → List Byte} {size : Nat → Nat} {s : State} :
    renderCommand f size s = .fault .capacity ↔
      ¬ (WithinCap s.wlen.toNat s.cfg.wcap ∧ WithinCap (size s.wlen.toNat) s.cfg.ocap) := by
  rcases renderCommand_cases f size s with ⟨hfits, x, -, hnext⟩ | ⟨hover, hfault⟩ | ⟨hfits, -, hfault⟩
  · simp [hfits, hnext]
  · simp only [hover, hfault, not_false_eq_true]
  · simp [hfits, hfault]

/-- HMACSHA1 is the fault Capacity exactly when its lengths do not fit. -/
theorem execHmacsha1_eq_capacity_iff {s : State} : execHmacsha1 s = .fault .capacity ↔ ¬ LengthsFit .hmacsha1 s := by
  rw [lengthsFit_hmacsha1_iff]
  rcases execHmacsha1_cases s with ⟨hfits, key, data, -, -, hnext⟩ | ⟨hover, hfault⟩ | ⟨hfits, -, hfault⟩
  · simp [hfits, hnext]
  · simp [hover, hfault]
  · simp [hfits, hfault]

section
variable {ord : ByteOrder} {core : List Word → Nat → List Word} {bits : Nat} {s : State}

/-- A core command whose lengths do not fit is one of two faults: consistency is tested first (R205). -/
theorem coreCommand_of_not_fit
    (h : ¬ (WithinCap s.wlen.toNat s.cfg.wcap ∧ WithinCap (padLength s.bitlen.toNat) s.cfg.wcap)) :
    coreCommand ord core bits s = .fault .capacity ∨ coreCommand ord core bits s = .fault .inconsistentLength := by
  rcases coreCommand_cases ord core bits s with ⟨-, hfault⟩ | ⟨-, -, hfault⟩ | ⟨-, hfits, -⟩
  · exact .inr hfault
  · exact .inl hfault
  · exact absurd hfits h

theorem not_fit_of_coreCommand_eq_capacity (h : coreCommand ord core bits s = .fault .capacity) :
    ¬ (WithinCap s.wlen.toNat s.cfg.wcap ∧ WithinCap (padLength s.bitlen.toNat) s.cfg.wcap) := by
  rcases coreCommand_cases ord core bits s with ⟨-, hfault⟩ | ⟨-, hover, -⟩ | ⟨-, -, ⟨-, hfault⟩ | ⟨x, -, hnext⟩⟩
  · simp [hfault] at h
  · exact hover
  · simp [hfault] at h
  · simp [hnext] at h

end

theorem execRol32_ne_capacity (s : State) : execRol32 s ≠ .fault .capacity := by
  rcases execRol32_cases s with ⟨-, hnext⟩ | ⟨-, hfault⟩
  · simp [hnext]
  · simp [hfault]

theorem exec_of_not_lengthsFit {i : Instr} {s : State} (h : ¬ LengthsFit i s) :
    exec i s = .fault .capacity ∨ (exec i s = .fault .inconsistentLength ∧ (i = .md5core ∨ i = .sha1core)) := by
  cases i with
  | add32 | rol32 => exact absurd trivial h
  | packle => exact .inl (packCommand_eq_capacity_iff (ord := .le).2 h)
  | packbe => exact .inl (packCommand_eq_capacity_iff (ord := .be).2 h)
  | unpackle | unpackbe | hexle | hexbe | b64be => exact .inl (renderCommand_eq_capacity_iff.2 h)
  | md5core => exact (coreCommand_of_not_fit h).imp_right fun hfault => ⟨hfault, .inl rfl⟩
  | sha1core => exact (coreCommand_of_not_fit h).imp_right fun hfault => ⟨hfault, .inr rfl⟩
  | hmacsha1 => exact .inl (execHmacsha1_eq_capacity_iff.2 h)

theorem not_lengthsFit_of_exec_eq_capacity {i : Instr} {s : State} (h : exec i s = .fault .capacity) : ¬ LengthsFit i s := by
  cases i with
  | add32 => cases h
  | rol32 => exact absurd h (execRol32_ne_capacity s)
  | packle => exact packCommand_eq_capacity_iff (ord := .le).1 h
  | packbe => exact packCommand_eq_capacity_iff (ord := .be).1 h
  | unpackle | unpackbe | hexle | hexbe | b64be => exact renderCommand_eq_capacity_iff.1 h
  | md5core | sha1core => exact not_fit_of_coreCommand_eq_capacity h
  | hmacsha1 => exact execHmacsha1_eq_capacity_iff.1 h

/-- With every capacity unbounded, only a bit length of 2^32 or more does not fit. -/
theorem overlong_of_not_lengthsFit {i : Instr} {s : State} (hm : s.cfg.mcap = none) (hk : s.cfg.kcap = none)
    (hw : s.cfg.wcap = none) (ho : s.cfg.ocap = none) (h : ¬ LengthsFit i s) :
    ((i = .packle ∨ i = .packbe) ∧ 2 ^ 32 ≤ 8 * s.mlen.toNat)
      ∨ (i = .hmacsha1 ∧ (2 ^ 32 ≤ 512 + 8 * s.mlen.toNat ∨ (64 < s.klen.toNat ∧ 2 ^ 32 ≤ 8 * s.klen.toNat))) := by
  have hroomM := withinCap_of_unbounded hm
  have hroomK := withinCap_of_unbounded hk
  have hroomW := withinCap_of_unbounded hw
  have hroomO := withinCap_of_unbounded ho
  cases i with
  | add32 | rol32 => exact absurd trivial h
  | packle => exact .inl ⟨.inl rfl, Nat.not_lt.1 fun hbits => h ⟨hroomM _, hroomW _, hbits⟩⟩
  | packbe => exact .inl ⟨.inr rfl, Nat.not_lt.1 fun hbits => h ⟨hroomM _, hroomW _, hbits⟩⟩
  | unpackle | unpackbe | hexle | hexbe | b64be => exact absurd ⟨hroomW _, hroomO _⟩ h
  | md5core | sha1core => exact absurd ⟨hroomW _, hroomW _⟩ h
  | hmacsha1 =>
    refine .inr ⟨rfl, ?_⟩
    by_contra hshort
    obtain ⟨hdata, hkey⟩ := not_or.1 hshort
    exact h ⟨hroomK _, hroomM _, Nat.not_le.1 hdata, hroomW _,
      fun hlong => ⟨Nat.not_le.1 fun hbits => hkey ⟨hlong, hbits⟩, hroomW _⟩⟩

/-- Settles O43 (60_exceptions.md R203), by what each shared operation writes and when it is the fault Capacity. -/
theorem capacityNeverTruncates : Obligations.CapacityNeverTruncates := by
  refine ⟨fun i s t h => ?_, fun i s h => exec_of_not_lengthsFit h, fun i s hm hk hw ho h => ?_⟩
  · obtain ⟨⟨hwb, hwbRoom⟩, ho, hoRoom⟩ := exec_writesWithinCaps h
    exact ⟨hwb, ho, hwbRoom, hoRoom⟩
  · exact overlong_of_not_lengthsFit hm hk hw ho (not_lengthsFit_of_exec_eq_capacity h)

end Sys2Proof.Machine
end

section
/-! PROOFS. The frame of a command (30_encoding.md section 2): the next states of each group of commands, with the number of elements
each writes, what a group keeps, and what stands above the elements written. -/

namespace Sys2Proof.Machine

/-- Every next state of a command, with the group the command is of and how many elements it wrote. -/
theorem exec_next_group {i : Instr} {s t : State} (h : exec i s = .next t) :
    (i ∈ [Instr.add32, .rol32] ∧ ∃ v, t = finish (putResult v s))
      ∨ (i ∈ [Instr.packle, .packbe] ∧ ∃ ws n, t = finish (putPacked ws n s) ∧ ws.length = writtenCount i s)
      ∨ (i ∈ [Instr.md5core, .sha1core, .hmacsha1] ∧ ∃ ws n, t = finish (putDigest ws n s) ∧ ws.length = writtenCount i s)
      ∨ (i ∈ [Instr.unpackle, .unpackbe, .hexle, .hexbe, .b64be]
          ∧ ∃ bs, t = finish (putText bs s) ∧ bs.length = writtenCount i s) := by
  cases i with
  | add32 => exact .inl ⟨by decide, _, scalarCommand_next h⟩
  | rol32 => exact .inl ⟨by decide, _, (execRol32_next h).2⟩
  | packle | packbe =>
    obtain ⟨-, cs, hcs, h⟩ := packCommand_next h
    exact .inr (.inl ⟨by decide, _, _, h, by rw [length_pack, (readAll_eq_some.1 hcs).1]; rfl⟩)
  | md5core | sha1core =>
    obtain ⟨-, -, -, _, -, h⟩ := coreCommand_next h
    exact .inr (.inr (.inl ⟨by decide, _, _, h, rfl⟩))
  | hmacsha1 =>
    obtain ⟨-, -, _, _, -, -, h⟩ := execHmacsha1_next h
    exact .inr (.inr (.inl ⟨by decide, _, _, h, rfl⟩))
  | unpackle | unpackbe =>
    obtain ⟨-, -, x, hx, h⟩ := renderCommand_next h
    exact .inr (.inr (.inr ⟨by decide, _, h, by rw [length_unpack, (readAll_eq_some.1 hx).1]; rfl⟩))
  | hexle | hexbe =>
    obtain ⟨-, -, x, hx, h⟩ := renderCommand_next h
    exact .inr (.inr (.inr ⟨by decide, _, h, by rw [length_hex, (readAll_eq_some.1 hx).1]; rfl⟩))
  | b64be =>
    obtain ⟨-, -, x, hx, h⟩ := renderCommand_next h
    exact .inr (.inr (.inr ⟨by decide, _, h, by rw [length_b64be, (readAll_eq_some.1 hx).1]; rfl⟩))

/-- What every command keeps, and the rest it comes to. -/
theorem exec_frame {i : Instr} {s t : State} (h : exec i s = .next t) :
    SameScalars s t ∧ SameTexts s t ∧ SameHost s t ∧ AtRest t := by
  rcases exec_next h with ⟨v, rfl⟩ | ⟨ws, n, rfl⟩ | ⟨ws, n, rfl⟩ | ⟨bs, rfl⟩
  · obtain ⟨hscalars, htexts, -, -, hhost, hrest⟩ := finish_putResult_frame s v
    exact ⟨hscalars, htexts, hhost, hrest⟩
  · obtain ⟨hscalars, -, htexts, -, hhost, hrest⟩ := finish_putPacked_frame s ws n
    exact ⟨hscalars, htexts, hhost, hrest⟩
  · obtain ⟨hscalars, -, htexts, -, hhost, hrest⟩ := finish_putDigest_frame s ws n
    exact ⟨hscalars, htexts, hhost, hrest⟩
  · obtain ⟨hscalars, -, htexts, -, hhost, hrest⟩ := finish_putText_frame s bs
    exact ⟨hscalars, htexts, hhost, hrest⟩

/-- Settles O45 (30_encoding.md section 2): the frame of the group of the command. -/
theorem commandsWriteOnlyWhatTheyName : Obligations.CommandsWriteOnlyWhatTheyName := by
  intro i s t h
  obtain ⟨hscalars, htexts, hhost, hrest⟩ := exec_frame h
  refine ⟨hscalars, htexts, hhost, hrest, ?_⟩
  rcases exec_next_group h with ⟨hi, v, rfl⟩ | ⟨hi, ws, n, rfl, -⟩ | ⟨hi, ws, n, rfl, -⟩ | ⟨hi, bs, rfl, -⟩
  · obtain ⟨-, -, hwords, houtput, -, -⟩ := finish_putResult_frame s v
    exact ⟨fun hnot => absurd hi hnot, fun _ => hwords, fun _ => houtput⟩
  · obtain ⟨-, hresult, -, houtput, -, -⟩ := finish_putPacked_frame s ws n
    exact ⟨fun _ => hresult, fun hnot => absurd (List.mem_append_left _ hi) hnot, fun _ => houtput⟩
  · obtain ⟨-, hresult, -, houtput, -, -⟩ := finish_putDigest_frame s ws n
    exact ⟨fun _ => hresult, fun hnot => absurd (List.mem_append_right [Instr.packle, .packbe] hi) hnot, fun _ => houtput⟩
  · obtain ⟨-, hresult, -, hwords, -, -⟩ := finish_putText_frame s bs
    exact ⟨fun _ => hresult, fun _ => hwords, fun hnot => absurd hi hnot⟩

theorem sameFrom_bufOver {α : Type} (vs : List α) (b : Buffer α) : SameFrom b (bufOver vs b) vs.length := fun k hk => by
  rw [bufGet_bufOver, if_neg (Nat.not_lt.2 hk)]

/-- Settles O12 (30_encoding.md section 2 as log entry 7 reads it). A command that writes no element of a buffer keeps all of it. -/
theorem elementsAboveTheLength : Obligations.ElementsAboveTheLength := by
  intro i s t h
  rcases exec_next_group h with ⟨hi, v, rfl⟩ | ⟨hi, ws, n, rfl, hcount⟩ | ⟨hi, ws, n, rfl, hcount⟩ | ⟨hi, bs, rfl, hcount⟩
  · exact ⟨fun _ _ _ => rfl, fun _ _ _ => rfl, fun hdigest => absurd hi (by fin_cases hdigest <;> decide)⟩
  · exact ⟨fun _ => hcount ▸ sameFrom_bufOver ws s.wb, fun _ _ _ => rfl, fun hdigest => absurd hi (by fin_cases hdigest <;> decide)⟩
  · exact ⟨fun hpack => absurd hi (by fin_cases hpack <;> decide), fun _ _ _ => rfl, fun _ => hcount ▸ noneFrom_bufOfList ws⟩
  · exact ⟨fun _ _ _ => rfl, fun _ => hcount ▸ sameFrom_bufOver bs s.o, fun hdigest => absurd hi (by fin_cases hdigest <;> decide)⟩

end Sys2Proof.Machine
end

section
/-! PROOFS. The machine's invariant (10_state.md sections 4 and 6; 20_memory.md sections 1 and 5): every operation on
the state keeps it, and the outcome of a step is one of those. -/

namespace Sys2Proof.Machine

/-- The invariant says nothing of what the host has read and will do. -/
theorem engineInv_dropEvent {s : State} (h : EngineInv s) (rest : List HostEvent) : EngineInv (dropEvent rest s) := { h with }

/-- A fault state has no buffer element, and no more is claimed of it. -/
theorem engineInv_enterFault {s : State} (hcfg : s.cfg.wf = true) (why : Fault) : EngineInv (enterFault why s) where
  cfgOk := hcfg
  memOk := memory_wf_enterFault why s
  charsM := List.forall_mem_nil _
  charsK := List.forall_mem_nil _
  roomM := List.forall_mem_nil _
  roomK := List.forall_mem_nil _
  roomWb := List.forall_mem_nil _
  roomO := List.forall_mem_nil _
  outputHeld hfault := by simp at hfault
  cmdNone hfault := by simp at hfault
  phaseIdle hfault := by simp at hfault

theorem engineInv_applyReset {s : State} (hcfg : s.cfg.wf = true) : EngineInv (applyReset s) where
  cfgOk := hcfg
  memOk := memory_wf_applyReset s
  charsM := List.forall_mem_nil _
  charsK := List.forall_mem_nil _
  roomM := List.forall_mem_nil _
  roomK := List.forall_mem_nil _
  roomWb := List.forall_mem_nil _
  roomO := List.forall_mem_nil _
  outputHeld _ j hj := absurd hj (Nat.not_lt_zero j)
  cmdNone _ := rfl
  phaseIdle _ := rfl

theorem engineInv_hostRead {s t : State} (h : EngineInv s) {space : Space} {index : Nat}
    (hread : hostRead space index s = .next t) : EngineInv t := by
  obtain ⟨v, -, rfl⟩ := hostRead_next hread
  exact { h with }

/-- No register the host may write is one the invariant speaks of. -/
theorem engineInv_writeReg {s t : State} (h : EngineInv s) {v : Word} {name : RegName} (hw : writeReg v s name = some t) :
    EngineInv t := by
  cases name with
  | cmd | r | olen => simp [writeReg] at hw
  | x | y | mlen | klen | wlen | bitlen => cases hw; exact { h with }

/-- A store in a text buffer keeps its characters within CHARW bits: it stores the low ones. -/
theorem charsFit_bufSet {cfg : Config} {b : Buffer Word} (h : charsFit cfg b) (index : Nat) (v : Word) :
    charsFit cfg (bufSet b index (truncChar cfg v)) := fun e he => by
  rcases mem_bufSet he with rfl | he
  · exact truncChar_lt cfg v
  · exact h e he

theorem indicesFit_bufSet {α : Type} {cap : Option Nat} {b : Buffer α} (h : indicesFit cap b) {index : Nat}
    (hi : indexFits index cap = true) (v : α) : indicesFit cap (bufSet b index v) := fun e he => by
  rcases mem_bufSet he with rfl | he
  · exact hi
  · exact h e he

/-- A store below the capacity keeps the invariant. -/
theorem engineInv_writeElem {s t : State} (h : EngineInv s) {space : Space} {index : Nat} {v : Word}
    (hw : writeElem space index v s = some t) : EngineInv t := by
  have hwf := memory_wf_writeElem h.memOk hw
  cases space with
  | reg =>
    simp only [writeElem] at hw
    split at hw
    · exact engineInv_writeReg h hw
    · cases hw
  | m =>
    obtain ⟨hi, ⟨⟩⟩ := Option.ite_none_right_eq_some.1 hw
    exact { h with memOk := hwf, charsM := charsFit_bufSet h.charsM index v, roomM := indicesFit_bufSet h.roomM hi _ }
  | k =>
    obtain ⟨hi, ⟨⟩⟩ := Option.ite_none_right_eq_some.1 hw
    exact { h with memOk := hwf, charsK := charsFit_bufSet h.charsK index v, roomK := indicesFit_bufSet h.roomK hi _ }
  | wb =>
    obtain ⟨hi, ⟨⟩⟩ := Option.ite_none_right_eq_some.1 hw
    exact { h with memOk := hwf, roomWb := indicesFit_bufSet h.roomWb hi v }
  | o => cases hw

section
variable {i : Instr} {s t : State}

theorem memory_wf_exec (hwf : Memory.wf s) (h : exec i s = .next t) : Memory.wf t := by
  rcases exec_next h with ⟨v, rfl⟩ | ⟨ws, n, rfl⟩ | ⟨ws, n, rfl⟩ | ⟨bs, rfl⟩
  · exact memory_wf_finish (memory_wf_putResult hwf v)
  · exact memory_wf_finish (memory_wf_putPacked hwf ws n)
  · exact memory_wf_finish (memory_wf_putDigest hwf ws n)
  · exact memory_wf_finish (memory_wf_putText hwf bs)

/-- OLEN counts no more bytes than a rendering wrote, and the other commands leave O and OLEN alone. -/
theorem heldUpTo_output_exec (hheld : HeldUpTo (α := Byte) s.o s.olen.toNat) (h : exec i s = .next t) :
    HeldUpTo (α := Byte) t.o t.olen.toNat := by
  rcases exec_next h with ⟨v, rfl⟩ | ⟨ws, n, rfl⟩ | ⟨ws, n, rfl⟩ | ⟨bs, rfl⟩
  · exact hheld
  · exact hheld
  · exact hheld
  · exact heldUpTo_of_readAll (readAll_bufOver bs s.o) (countReg_le _)

/-- A command keeps the invariant. It is issued in no fault state, so that all the output in use is held before it. -/
theorem engineInv_exec (h : EngineInv s) (hfault : s.fault = none) {c : Word} (hexec : exec i (takeCommand c s) = .next t) :
    EngineInv t := by
  obtain ⟨-, ⟨hm, hk, -, -⟩, ⟨hcfg, -, -, -⟩, hcmd, hphase⟩ := exec_frame hexec
  obtain ⟨⟨-, hroomWb⟩, -, hroomO⟩ := exec_writesWithinCaps hexec
  simp only [takeCommand_cfg, takeCommand_m, takeCommand_k, takeCommand_wb, takeCommand_o] at hm hk hcfg hroomWb hroomO
  exact {
    cfgOk := hcfg ▸ h.cfgOk
    memOk := memory_wf_exec (s := takeCommand c s) h.memOk hexec
    charsM := hcfg ▸ hm ▸ h.charsM
    charsK := hcfg ▸ hk ▸ h.charsK
    roomM := hcfg ▸ hm ▸ h.roomM
    roomK := hcfg ▸ hk ▸ h.roomK
    roomWb := hcfg ▸ hroomWb h.roomWb
    roomO := hcfg ▸ hroomO h.roomO
    outputHeld := fun _ => heldUpTo_output_exec (s := takeCommand c s) (h.outputHeld hfault) hexec
    cmdNone := fun _ => hcmd
    phaseIdle := fun _ => hphase }

end

/-- An event served in no fault state keeps the invariant. -/
theorem engineInv_serve {e : HostEvent} {s t : State} (h : EngineInv s) (hfault : s.fault = none) (hserve : serve e s = .next t) :
    EngineInv t := by
  rcases serve_next hserve with ⟨space, index, hread⟩ | ⟨space, index, v, hwrite⟩ | ⟨c, i, -, hexec⟩ | ⟨-, rfl⟩
  · exact engineInv_hostRead h hread
  · exact engineInv_writeElem h hwrite
  · exact engineInv_exec h hfault hexec
  · exact engineInv_applyReset h.cfgOk

/-- Settles O49 (10_state.md sections 4 and 6; 20_memory.md sections 1 and 5). In no fault state the next state is the host's first
event's or a fault state; in a fault state it is a reset or the same but for the event. -/
theorem everyStepKeepsTheInvariant : Obligations.EveryStepKeepsTheInvariant := by
  intro s t h hstep
  cases hfault : s.fault with
  | none =>
    rcases step_next hfault hstep with ⟨-, rfl⟩ | ⟨e, rest, -, hserve | ⟨why, -, rfl⟩⟩
    · exact h
    · exact engineInv_serve (engineInv_dropEvent h rest) hfault hserve
    · exact engineInv_enterFault (s := dropEvent rest s) h.cfgOk why
  | some why =>
    obtain ⟨e, rest, -, ⟨-, rfl⟩ | ⟨-, rfl⟩⟩ := step_next_faulted hfault hstep
    · exact engineInv_applyReset (s := dropEvent rest s) h.cfgOk
    · exact engineInv_dropEvent h rest

/-- Settles O50 (10_state.md section 8): the reset of any state whose parameters are those of `State.reset`. -/
theorem resetHasTheInvariant : Obligations.ResetHasTheInvariant :=
  { engineInv_applyReset (s := State.reset) (by decide) with }

end Sys2Proof.Machine
end

section
/-! PROOFS. The host's events one at a time (20_memory.md section 4; 60_exceptions.md sections 1, 4 and 7; 70_reset_and_hazards.md
section 1): what a step does in a fault state and in none, and the state that reset leaves. -/

namespace Sys2Proof.Machine

open Sys2Proof.Claims

/-- Settles O2 (30_encoding.md section 1). -/
theorem sampleWordsDecode : Obligations.SampleWordsDecode := by
  unfold Obligations.SampleWordsDecode
  decide

section
variable {s : State}

theorem step_idle (hfault : s.fault = none) (hpending : s.pending = []) : step s = .next s := by
  simp [step, serveNext, hfault, serveRunning, hpending]

variable {why : Fault} (hfault : s.fault = some why)
include hfault

theorem step_faulted_nil (hpending : s.pending = []) : step s = .fault why := by
  simp [step, serveNext, hfault, serveFaulted, hpending]

theorem step_faulted_access {e : HostEvent} {rest : List HostEvent} (hpending : s.pending = e :: rest) (he : e ≠ .reset) :
    step s = .next (dropEvent rest s) := by
  cases e with
  | reset => exact absurd rfl he
  | read | write | busRead | busWrite => simp [step, serveNext, hfault, serveFaulted, hpending]

theorem step_faulted_reset {rest : List HostEvent} (hpending : s.pending = .reset :: rest) :
    step s = .next (applyReset (dropEvent rest s)) := by
  simp [step, serveNext, hfault, serveFaulted, hpending]

end

/-- A reset is served alike in a fault state and in none. -/
theorem step_reset {s : State} {rest : List HostEvent} (hpending : s.pending = .reset :: rest) :
    step s = .next (applyReset (dropEvent rest s)) := by
  cases hfault : s.fault with
  | none => rw [step_running hfault hpending]; rfl
  | some why => exact step_faulted_reset hfault hpending

/-- A fault of the first event is entered by the step. -/
theorem entersFault_of_serve {s : State} {e : HostEvent} {rest : List HostEvent} {why : Fault} (hfault : s.fault = none)
    (hpending : s.pending = e :: rest) (hserve : serve e (dropEvent rest s) = .fault why) : EntersFault s why rest :=
  ⟨enterFault why (dropEvent rest s), by rw [step_running hfault hpending, hserve, settle_fault], rfl, rfl, rfl, rfl⟩

theorem resetTable_reset : ResetTable State.reset :=
  ⟨rfl, rfl, rfl, rfl, rfl, rfl, rfl, fun _ => rfl, fun _ => rfl, fun _ => rfl, fun _ => rfl⟩

/-- A running engine is reset to the buffers and registers of `State.reset`. -/
theorem resetTable_applyReset (s : State) : ResetTable (applyReset s) := resetTable_reset

/-- Settles O47 (10_state.md section 8). -/
theorem resetLeavesTheTable : Obligations.ResetLeavesTheTable := ⟨resetTable_reset, rfl, rfl, rfl, rfl⟩

/-- Settles O48 (70_reset_and_hazards.md section 1). -/
theorem resetInputResets : Obligations.ResetInputResets := fun _ _ hpending =>
  ⟨_, step_reset hpending, resetTable_applyReset _, rfl, rfl, rfl, rfl, rfl, rfl, rfl⟩

/-- Settles O6 (60_exceptions.md sections 1 and 4; 70_reset_and_hazards.md section 1), by what a step does in a fault state. -/
theorem faultStateIsLeftOnlyByReset : Obligations.FaultStateIsLeftOnlyByReset := by
  refine ⟨fun s e rest why hfault hpending hserve => entersFault_of_serve hfault hpending hserve, fun s why hfault => ?_,
    fun s t hstep hfault hclear => ?_⟩
  · refine ⟨step_faulted_nil hfault, fun e rest hpending he => step_faulted_access hfault hpending he, fun rest hpending => ?_⟩
    exact ⟨_, step_faulted_reset hfault hpending, rfl, resetTable_applyReset _, rfl⟩
  · obtain ⟨why, hwhy⟩ := Option.ne_none_iff_exists'.1 hfault
    obtain ⟨e, rest, hpending, ⟨rfl, -⟩ | ⟨-, rfl⟩⟩ := step_next_faulted hwhy hstep
    · exact ⟨rest, hpending⟩
    · exact absurd hclear hfault

/-- What no host store changes: all but the registers of the page and the buffers. -/
def StoreFrame (s t : State) : Prop :=
  t.cfg = s.cfg ∧ t.cmd = s.cmd ∧ t.phase = s.phase ∧ t.int = s.int ∧ t.fault = s.fault ∧ t.wbCmd = s.wbCmd
    ∧ t.pending = s.pending ∧ t.reads = s.reads

theorem writeReg_frame {v : Word} {s t : State} {name : RegName} (h : writeReg v s name = some t) : StoreFrame s t := by
  cases name with
  | cmd | r | olen => simp [writeReg] at h
  | x | y | mlen | klen | wlen | bitlen => cases h; exact ⟨rfl, rfl, rfl, rfl, rfl, rfl, rfl, rfl⟩

theorem writeElem_frame {space : Space} {index : Nat} {v : Word} {s t : State} (h : writeElem space index v s = some t) :
    StoreFrame s t := by
  cases space with
  | reg =>
    simp only [writeElem] at h
    split at h
    · exact writeReg_frame h
    · cases h
  | m | k | wb =>
    obtain ⟨-, ⟨⟩⟩ := Option.ite_none_right_eq_some.1 h
    exact ⟨rfl, rfl, rfl, rfl, rfl, rfl, rfl, rfl⟩
  | o => cases h

/-- A served event leaves the host's queue and the parameters as they are. -/
theorem serve_keeps_host {e : HostEvent} {s t : State} (h : serve e s = .next t) : t.pending = s.pending ∧ t.cfg = s.cfg := by
  rcases serve_next h with ⟨space, index, hread⟩ | ⟨space, index, v, hwrite⟩ | ⟨c, i, -, hexec⟩ | ⟨-, rfl⟩
  · obtain ⟨v, -, rfl⟩ := hostRead_next hread
    exact ⟨rfl, rfl⟩
  · obtain ⟨hcfg, -, -, -, -, -, hpending, -⟩ := writeElem_frame hwrite
    exact ⟨hpending, hcfg⟩
  · obtain ⟨-, -, ⟨hcfg, hpending, -, -⟩, -⟩ := exec_frame hexec
    exact ⟨hpending, hcfg⟩
  · exact ⟨rfl, rfl⟩

/-- Settles O5 (20_memory.md section 4; 60_exceptions.md section 7). -/
theorem eventsTakeEffectInOrder : Obligations.EventsTakeEffectInOrder := by
  refine fun s => ⟨step_idle, fun e rest hfault hpending => step_running hfault hpending, fun e rest t hpending hstep => ?_⟩
  cases hfault : s.fault with
  | none =>
    rw [step_running hfault hpending] at hstep
    rcases settle_eq_next hstep with hserve | ⟨why, -, rfl⟩
    · exact serve_keeps_host hserve
    · exact ⟨rfl, rfl⟩
  | some why =>
    by_cases he : e = .reset
    · subst he
      obtain rfl := Host.Outcome.next.inj ((step_faulted_reset hfault hpending).symm.trans hstep)
      exact ⟨rfl, rfl⟩
    · obtain rfl := Host.Outcome.next.inj ((step_faulted_access hfault hpending he).symm.trans hstep)
      exact ⟨rfl, rfl⟩

theorem issue_of_decode {c : Word} {i : Instr} (h : decode c = .command i) (s : State) : issue c s = exec i (takeCommand c s) := by
  rw [issue, h]

/-- Serving the write of a command's word runs the command. -/
theorem serve_command {c : Word} {i : Instr} (h : decode c = .command i) (s : State) :
    serve (.write .reg 0 c) s = exec i (takeCommand c s) :=
  (hostWrite_cmd c s).trans (issue_of_decode h s)

/-- The table's words have 32 bits, so that none is cut. -/
theorem tableWord_32 (w : Nat) : tableWord 32 w = BitVec.ofNat 32 w := by
  apply BitVec.eq_of_toNat_eq
  simp [tableWord]

theorem decode_of_decodeTableWord {nbits w : Nat} {i : Instr} (h : decodeTableWord nbits w = some i) :
    decode (tableWord nbits w) = .command i := by
  unfold decodeTableWord at h
  split at h
  case h_1 hdecode => rw [hdecode, Option.some.inj h]
  case h_2 => cases h

/-- Settles O4 (30_encoding.md section 1; 60_exceptions.md section 1). -/
theorem stepRunsTheCommandWritten : Obligations.StepRunsTheCommandWritten := by
  refine ⟨fun s c i rest hfault hpending hdecode => ?_, fun s w i hw => ?_⟩
  · have hserve := serve_command hdecode (dropEvent rest s)
    have hstep := step_running hfault hpending
    rw [hserve] at hstep
    refine ⟨hstep, fun t hnext => ?_, fun why hwhy => entersFault_of_serve hfault hpending (hserve.trans hwhy)⟩
    obtain ⟨-, -, ⟨-, hrest, -, hfault'⟩, hcmd, -⟩ := exec_frame hnext
    exact ⟨by rw [hstep, hnext, settle_next], hcmd, hrest, hfault'.trans hfault⟩
  · have hdecode := decode_of_decodeTableWord hw
    rw [← tableWord_32, ← serve_command hdecode]
    exact step_running rfl rfl

end Sys2Proof.Machine
end

section
/-! PROOFS. The host's element accesses (20_memory.md sections 1 and 3): a read is the stored value where the host may read it, a write
stores one element, and every other access is the fault HostAccess. -/

namespace Sys2Proof.Machine

open Sys2Proof.Claims

/-- What R53 (c) asks of a read besides that the element exists and holds a value: in WB, once a command wrote it, an index below WLEN,
and in O one below OLEN. -/
def HostMayRead (s : State) (space : Space) (index : Nat) : Prop :=
  match space with
  | .wb => s.wbCmd = true → index < s.wlen.toNat
  | .o => index < s.olen.toNat
  | _ => True

/-- The two tables of the register page are one (R51). -/
theorem readElem_reg (s : State) (index : Nat) : readElem s .reg index = pageRegister s index :=
  match index with
  | 0 | 1 | 2 | 3 | 4 | 5 | 6 | 7 | 8 | _ + 9 => rfl

theorem pageRegister_isSome_iff {s : State} {index : Nat} :
    (pageRegister s index).isSome = true ↔ index ∈ [1, 2, 3, 4, 5, 6, 7, 8] :=
  match index with
  | 0 | 1 | 2 | 3 | 4 | 5 | 6 | 7 | 8 | _ + 9 => by simp [pageRegister]

/-- What the host reads: the stored value of an element that exists and that it may read. -/
theorem readElem_eq_some_iff {s : State} {space : Space} {index : Nat} {v : Word} : readElem s space index = some v ↔
    ElementExists s.cfg space index ∧ HostMayRead s space index ∧ storedValue s space index = some v := by
  cases space with
  | reg =>
    have hexists : pageRegister s index = some v → index ≤ 8 := fun h => by
      have hmem := pageRegister_isSome_iff.1 (Option.isSome_of_eq_some h)
      fin_cases hmem <;> decide
    simpa [readElem_reg, ElementExists, HostMayRead, storedValue] using hexists
  | m | k => simp [readElem, ElementExists, HostMayRead, storedValue]
  | wb => simp [readElem, ElementExists, HostMayRead, storedValue, wbReadable_iff, and_assoc]
  | o => simp [readElem, ElementExists, HostMayRead, storedValue, and_assoc]

theorem readableValue_iff {s : State} {space : Space} {index : Nat} :
    ReadableValue s space index ↔ HostMayRead s space index ∧ (storedValue s space index).isSome = true := by
  cases space with
  | reg => simp [ReadableValue, HostMayRead, storedValue, pageRegister_isSome_iff]
  | m | k => simp [ReadableValue, HostMayRead, storedValue]
  | wb => simp only [ReadableValue, HostMayRead, storedValue, and_comm]
  | o => simp [ReadableValue, HostMayRead, storedValue]

/-- Settles O51 (20_memory.md section 3). No read depends on what the host has read and will do, so a second one returns the same. -/
theorem hostReadsHaveNoSideEffect : Obligations.HostReadsHaveNoSideEffect := by
  intro s space index rest hfault hpending hexists hreadable
  obtain ⟨hmay, hsome⟩ := readableValue_iff.1 hreadable
  obtain ⟨v, hv⟩ := Option.isSome_iff_exists.1 hsome
  have hread : readElem s space index = some v := readElem_eq_some_iff.2 ⟨hexists, hmay, hv⟩
  have hserve : hostRead space index (dropEvent rest s) = .next { s with pending := rest, reads := s.reads ++ [v] } := by
    have hread' : readElem (dropEvent rest s) space index = some v := hread
    simp only [hostRead, hread']
    rfl
  refine ⟨_, v, ?_, rfl, hread, hread, ?_, ?_, ?_, ?_, ?_⟩
  · rw [step_running hfault hpending]
    exact congrArg (settle (dropEvent rest s)) hserve
  · rintro rfl; exact hv
  · rintro rfl; exact hv
  · rintro rfl; exact hv
  · rintro rfl; exact hv
  · rintro rfl
    obtain ⟨b, hb, rfl⟩ := Option.map_eq_some_iff.1 hv
    exact ⟨b, hb, BitVec.toNat_setWidth_of_le (by decide)⟩

/-- A write to a register of the page changes that register only. -/
theorem pageRegister_writeReg {v : Word} {s t : State} {name : RegName} (h : writeReg v s name = some t) (index : Nat) :
    pageRegister t index = if index = regIndex name then some v else pageRegister s index := by
  cases name with
  | cmd | r | olen => simp [writeReg] at h
  | x | y | mlen | klen | wlen | bitlen =>
    cases h
    match index with
    | 0 | 1 | 2 | 3 | 4 | 5 | 6 | 7 | 8 | _ + 9 => simp [pageRegister, regIndex]

/-- A write to a register keeps the buffers and OLEN, and WLEN but for the write to WLEN. -/
theorem writeReg_keeps {v : Word} {s t : State} {name : RegName} (h : writeReg v s name = some t) :
    t.m = s.m ∧ t.k = s.k ∧ t.wb = s.wb ∧ t.o = s.o ∧ t.olen = s.olen ∧ (name ≠ .wlen → t.wlen = s.wlen) := by
  cases name with
  | cmd | r | olen => simp [writeReg] at h
  | wlen => cases h; exact ⟨rfl, rfl, rfl, rfl, rfl, fun hne => absurd rfl hne⟩
  | x | y | mlen | klen | bitlen => cases h; exact ⟨rfl, rfl, rfl, rfl, rfl, fun _ => rfl⟩

/-- The low bits a space keeps of a written value (R52). -/
def keptWord (cfg : Config) (space : Space) (v : Word) : Word :=
  match space with
  | .m | .k => truncChar cfg v
  | _ => v

theorem toNat_keptWord (cfg : Config) (space : Space) (v : Word) : (keptWord cfg space v).toNat = keptValue cfg space v := by
  cases space with
  | m | k => exact truncChar_toNat cfg v
  | reg | wb | o => rfl

/-- Only the element at `space`, `index` differs, and it holds `w` in `t`. -/
def StoresOnly (space : Space) (index : Nat) (w : Word) (s t : State) : Prop :=
  ∀ space' index', storedValue t space' index' = if space' = space ∧ index' = index then some w else storedValue s space' index'

/-- A register of the page the host may write. -/
theorem exists_writeReg {index : Nat} (hw : Writable .reg index) (v : Word) (s : State) :
    ∃ name t, regOfIndex index = some name ∧ regIndex name = index ∧ writeReg v s name = some t := by
  simp only [Writable] at hw
  fin_cases hw <;> exact ⟨_, _, rfl, rfl, rfl⟩

/-- A write to a writable element that exists stores it and nothing else, and moves no bound on what may be read but WLEN. -/
theorem exists_writeElem {s : State} {space : Space} {index : Nat} (hexists : ElementExists s.cfg space index)
    (hw : Writable space index) (v : Word) : ∃ t, writeElem space index v s = some t
      ∧ StoresOnly space index (keptWord s.cfg space v) s t ∧ t.olen = s.olen
      ∧ (¬ (space = .reg ∧ index = 6) → t.wlen = s.wlen) := by
  cases space with
  | reg =>
    obtain ⟨name, t, hname, rfl, ht⟩ := exists_writeReg hw v s
    obtain ⟨hm, hk, hwb, ho, holen, hwlen⟩ := writeReg_keeps ht
    refine ⟨t, by simp only [writeElem, hname, ht], fun space' index' => ?_, holen, fun hne => hwlen ?_⟩
    · cases space' with
      | reg => simp [storedValue, pageRegister_writeReg ht, keptWord]
      | m => simp [storedValue, hm]
      | k => simp [storedValue, hk]
      | wb => simp [storedValue, hwb]
      | o => simp [storedValue, ho]
    · rintro rfl
      exact hne ⟨rfl, rfl⟩
  | m | k | wb =>
    refine ⟨_, if_pos hexists, fun space' index' => ?_, rfl, fun _ => rfl⟩
    by_cases hindex : index' = index
    · subst hindex
      cases space' <;> simp [storedValue, keptWord, pageRegister]
    · cases space' <;> simp [storedValue, hindex, bufGet_bufSet_of_ne, pageRegister]
  | o => exact hw.elim

/-- A write to an element that does not exist or is not writable stores nothing. -/
theorem writeElem_eq_none {s : State} {space : Space} {index : Nat}
    (h : ¬ ElementExists s.cfg space index ∨ ¬ Writable space index) (v : Word) : writeElem space index v s = none := by
  cases space with
  | reg =>
    match index with
    | 1 | 2 | 4 | 5 | 6 | 7 => simp [ElementExists, Writable] at h
    | 0 | 3 | 8 | _ + 9 => rfl
  | m | k | wb => exact if_neg (h.resolve_right (not_not.2 trivial))
  | o => rfl

theorem hostWrite_of_writeElem {s t : State} {space : Space} {index : Nat} {v : Word}
    (hcmd : ¬ (space = .reg ∧ index = 0)) (h : writeElem space index v s = some t) : hostWrite space index v s = .next t := by
  rw [hostWrite, if_neg hcmd, h]

theorem hostWrite_fault {s : State} {space : Space} {index : Nat} {v : Word}
    (hcmd : ¬ (space = .reg ∧ index = 0)) (h : writeElem space index v s = none) :
    hostWrite space index v s = .fault .hostAccess := by
  rw [hostWrite, if_neg hcmd, h]

/-- Settles O52 (20_memory.md sections 1 and 3). What the host may read is decided by WLEN, OLEN and whether a command wrote WB, of
which a write to WLEN changes one. -/
theorem hostWritesStoreOneElement : Obligations.HostWritesStoreOneElement := by
  intro s space index v rest hfault hpending hexists hw
  obtain ⟨t, hwrite, hstores, holen, hwlen⟩ := exists_writeElem (s := dropEvent rest s) hexists hw v
  obtain ⟨hcfg, hcmd, hphase, hint, hfault', hwbCmd, hrest, hreads⟩ := writeElem_frame hwrite
  have hother : ∀ space' index', ¬ (space' = space ∧ index' = index) →
      storedValue t space' index' = storedValue s space' index' := fun space' index' hne =>
    (hstores space' index').trans (if_neg hne)
  have hself : storedValue t space index = some (keptWord s.cfg space v) :=
    (hstores space index).trans (if_pos ⟨rfl, rfl⟩)
  have hmay : ∀ space' index', ¬ (space' = .wb ∧ space = .reg ∧ index = 6) →
      (HostMayRead t space' index' ↔ HostMayRead s space' index') := fun space' index' hne => by
    cases space' with
    | reg | m | k => exact Iff.rfl
    | wb => rw [HostMayRead, hwbCmd, hwlen fun h => hne ⟨rfl, h⟩]; rfl
    | o => rw [HostMayRead, holen]; rfl
  have hnotCmd : ¬ (space = .reg ∧ index = 0) := by
    rintro ⟨rfl, rfl⟩
    simp [Writable] at hw
  refine ⟨t, _, ?_, hself, toNat_keptWord s.cfg space v, hother, fun hreadable => ?_, fun space' index' hne hne' => ?_,
    hcfg, hcmd, hphase, hint, hfault', hwbCmd, hrest, hreads⟩
  · rw [step_running hfault hpending]
    exact congrArg (settle _) (hostWrite_of_writeElem hnotCmd hwrite)
  · refine readElem_eq_some_iff.2 ⟨hcfg ▸ hexists, ?_, hself⟩
    cases space with
    | reg | m | k => trivial
    | wb => exact (hmay .wb index (by simp)).2 (hreadable rfl)
    | o => exact hw.elim
  · refine Option.ext fun u => ?_
    rw [readElem_eq_some_iff, readElem_eq_some_iff, hcfg, hmay space' index' hne', hother space' index' hne]
    rfl

/-- Settles O53 (20_memory.md section 1). -/
theorem forbiddenHostAccessesFault : Obligations.ForbiddenHostAccessesFault := by
  refine fun s space index rest hfault => ⟨fun hpending hbad => ?_, fun v hpending hbad => ?_⟩
  · have hnone : readElem (dropEvent rest s) space index = none := Option.eq_none_iff_forall_ne_some.2 fun v hv => by
      obtain ⟨hexists, hmay, hv⟩ := readElem_eq_some_iff.1 hv
      have hreadable : ReadableValue s space index := readableValue_iff.2 ⟨hmay, Option.isSome_of_eq_some hv⟩
      exact hbad.elim (absurd hexists) (absurd hreadable)
    have hread : hostRead space index (dropEvent rest s) = .fault .hostAccess := by rw [hostRead, hnone]
    exact ⟨hread, entersFault_of_serve hfault hpending hread⟩
  · have hnotCmd : ¬ (space = .reg ∧ index = 0) := by
      rintro ⟨rfl, rfl⟩
      simp [ElementExists] at hbad
    have hwrite : hostWrite space index v (dropEvent rest s) = .fault .hostAccess :=
      hostWrite_fault hnotCmd (writeElem_eq_none (s := dropEvent rest s) (hbad.imp_right And.left) v)
    exact ⟨hwrite, entersFault_of_serve hfault hpending hwrite⟩

end Sys2Proof.Machine
end

section
/-! PROOFS. Bus accesses (20_memory.md sections 1 and 3): the element's window is the one window its bytes meet. -/

namespace Sys2Proof.Machine

open Sys2Proof.Claims

/-- The window that shows a space (R51, R52). -/
def windowOf (cfg : Config) (b : BusMap) : Space → Window
  | .reg => { space := .reg, lo := b.base, hi := some (b.base + 36) }
  | .m => bufWindow .m (b.base + b.moff) cfg.mcap
  | .k => bufWindow .k (b.base + b.koff) cfg.kcap
  | .wb => bufWindow .wb (b.base + b.woff) cfg.wcap
  | .o => bufWindow .o (b.base + b.ooff) cfg.ocap

theorem windowOf_mem_windows (cfg : Config) (b : BusMap) (space : Space) : windowOf cfg b space ∈ windows cfg b := by
  cases space <;> simp [windowOf, windows]

theorem windowOf_space (cfg : Config) (b : BusMap) (space : Space) : (windowOf cfg b space).space = space := by
  cases space <;> rfl

theorem busAddress_eq (cfg : Config) (b : BusMap) (space : Space) (index : Nat) :
    busAddress b space index = (windowOf cfg b space).lo + 4 * index := by
  cases space <;> rfl

/-- The four bytes of a buffer's element lie below the end of its window. -/
theorem bufWindow_end {space : Space} {lo index hi : Nat} {cap : Option Nat} (hi' : (bufWindow space lo cap).hi = some hi)
    (hindex : indexFits index cap = true) : lo + 4 * index + 4 ≤ hi := by
  obtain ⟨c, rfl, rfl⟩ := Option.map_eq_some_iff.1 hi'
  rw [indexFits_some, decide_eq_true_eq] at hindex
  omega

/-- The four bytes of an element that exists lie below the end of its window. -/
theorem windowOf_end {cfg : Config} {b : BusMap} {space : Space} {index hi : Nat} (hexists : ElementExists cfg space index)
    (hhi : (windowOf cfg b space).hi = some hi) : busAddress b space index + 4 ≤ hi := by
  cases space with
  | reg =>
    obtain rfl := Option.some.inj hhi
    simp only [ElementExists] at hexists
    simp only [busAddress]
    omega
  | m | k | wb | o => exact bufWindow_end hhi hexists

theorem touches_iff {addr n : Nat} {w : Window} :
    touches addr n w = true ↔ w.lo < addr + n ∧ ∀ hi, w.hi = some hi → addr < hi := by
  unfold touches
  cases w.hi <;> simp

theorem shareNoByte_symm {w v : Window} (h : ShareNoByte w v) : ShareNoByte v w := Or.symm h

/-- In a list whose members are pairwise apart, one that is apart from none is the only one. -/
theorem eq_singleton_of_pairwise {α : Type} {R : α → α → Prop} (hsymm : ∀ {a b}, R a b → R b a) {l : List α} (hl : l.Pairwise R)
    {a : α} (ha : a ∈ l) (hnot : ∀ b ∈ l, ¬ R a b) : l = [a] := by
  match l, hl, ha, hnot with
  | [c], _, ha, _ => rw [List.mem_singleton.1 ha]
  | c :: d :: rest, hl, ha, hnot =>
    obtain ⟨hc, -⟩ := List.pairwise_cons.1 hl
    rcases List.mem_cons.1 ha with rfl | ha
    · exact absurd (hc d List.mem_cons_self) (hnot d (by simp))
    · exact absurd (hsymm (hc a ha)) (hnot c List.mem_cons_self)

section
variable {cfg : Config} {b : BusMap} {space : Space} {index : Nat}

/-- An access that starts in an element meets the element's window. -/
theorem windowOf_touched (hexists : ElementExists cfg space index) {off n : Nat} (hoff : off < 4) (hn : 0 < n) :
    touches (busAddress b space index + off) n (windowOf cfg b space) = true := by
  refine touches_iff.2 ⟨?_, fun hi hhi => ?_⟩
  · rw [busAddress_eq cfg]
    omega
  · have := windowOf_end hexists hhi
    omega

/-- A window that shares no byte with the element's is not met by the element's four bytes. -/
theorem not_touches_of_shareNoByte (hexists : ElementExists cfg space index) {v : Window}
    (hshare : ShareNoByte (windowOf cfg b space) v) : ¬ touches (busAddress b space index) 4 v = true := fun htouch => by
  obtain ⟨hlo, hhi⟩ := touches_iff.1 htouch
  rcases hshare with ⟨hi, hw, hle⟩ | ⟨hi, hv, hle⟩
  · have := windowOf_end hexists hw
    omega
  · have hlt := hhi hi hv
    rw [busAddress_eq cfg] at hlt
    omega

variable (hbus : cfg.bus = some b) (hexists : ElementExists cfg space index)
include hbus hexists

theorem busTarget_element (hshare : (windows cfg b).Pairwise ShareNoByte) :
    busTarget cfg (busAddress b space index) 4 = .element space index := by
  have htouched := windowOf_touched (b := b) hexists (off := 0) (n := 4) (by decide) (by decide)
  have honly : (windows cfg b).filter (touches (busAddress b space index) 4) = [windowOf cfg b space] :=
    eq_singleton_of_pairwise shareNoByte_symm (hshare.filter _)
      (List.mem_filter.2 ⟨windowOf_mem_windows cfg b space, htouched⟩)
      fun v hv hapart => not_touches_of_shareNoByte hexists hapart (List.mem_filter.1 hv).2
  have haddr := busAddress_eq cfg b space index
  simp only [busTarget, hbus, honly]
  simp [haddr, windowOf_space]

/-- An access that starts in an element at another offset or with another width reaches none: the element's window is met, and
either another one too, or the access is not aligned in it. -/
theorem busTarget_malformed {off n : Nat} (hoff : off < 4) (hn : 0 < n) (hbad : ¬ (off = 0 ∧ n = 4)) :
    busTarget cfg (busAddress b space index + off) n = .malformed := by
  have htouched := windowOf_touched (b := b) hexists hoff hn
  have hmem := List.mem_filter.2 ⟨windowOf_mem_windows cfg b space, htouched⟩
  have haddr := busAddress_eq cfg b space index
  simp only [busTarget, hbus]
  split
  case h_1 hnil => simp [hnil] at hmem
  case h_2 w hone =>
    rw [hone, List.mem_singleton] at hmem
    subst hmem
    refine if_neg fun h => hbad ⟨?_, h.1⟩
    obtain ⟨-, -, haligned⟩ := h
    omega
  case h_3 => rfl

end

/-- Settles O54 (20_memory.md sections 1 and 3). -/
theorem busAccessesReachOneElement : Obligations.BusAccessesReachOneElement := by
  intro s b space index hbus hshare hexists
  have htarget := busTarget_element hbus hexists hshare
  refine ⟨by simp only [serve, htarget], fun v => by simp only [serve, htarget], fun off n hoff hn hbad => ?_⟩
  have hmalformed := busTarget_malformed hbus hexists hoff hn hbad
  exact ⟨by simp only [serve, hmalformed], fun v => by simp only [serve, hmalformed]⟩

end Sys2Proof.Machine
end

section
/-! PROOFS. The assembler's lines (30_encoding.md section 4): a list's element writes by position. -/

namespace Sys2Proof.Machine

open Sys2Proof.Claims

theorem length_elementWrites (space : Space) (vs : List Word) (start : Nat) :
    (elementWrites space start vs).length = vs.length := by
  induction vs generalizing start with
  | nil => rfl
  | cons v vs ih => simp [elementWrites, ih]

theorem getElem?_elementWrites (space : Space) (vs : List Word) (start k : Nat) :
    (elementWrites space start vs)[k]? = vs[k]?.map (HostEvent.write space (start + k)) := by
  induction vs generalizing start k with
  | nil => rfl
  | cons v vs ih =>
    cases k with
    | zero => rfl
    | succ k => simp [elementWrites, ih, Nat.add_assoc, Nat.add_comm 1]

/-- The writes of a list and of its length to the register that covers it. -/
theorem writesListThenLength (space : Space) (name : RegName) (vs : List Word) : WritesListThenLength space (regIndex name) vs
    (elementWrites space 0 vs ++ [registerWrite name (listCount name vs.length)]) := by
  have hlen := length_elementWrites space vs 0
  refine ⟨by simp [hlen], fun k hk => ?_, fun hshort => ?_⟩
  · rw [List.getElem?_append_left (hlen ▸ hk), getElem?_elementWrites]
    simp [hk]
  · rw [List.getElem?_append_right hlen.le, hlen, Nat.sub_self]
    simp only [registerWrite, listCount, if_pos hshort]
    rfl

theorem regIndex_of_mem_pageNumbers : ∀ p ∈ pageNumbers, regIndex p.1 = p.2 := by decide

/-- Settles O40 (30_encoding.md section 4). -/
theorem linesMakeTheirAccesses : Obligations.LinesMakeTheirAccesses := by
  refine ⟨fun _ => rfl, fun _ => rfl, writesListThenLength .m .mlen, writesListThenLength .k .klen,
    writesListThenLength .wb .wlen, fun name n v hn => ?_, rfl⟩
  have hindex : regIndex name = n := regIndex_of_mem_pageNumbers _ hn
  subst hindex
  rfl

end Sys2Proof.Machine
end

section
/-! PROOFS. The outcomes of every command (60_exceptions.md section 1): a next state exactly on the requires clause, otherwise a fault
whose reason names a condition that holds. -/

namespace Sys2Proof.Machine

open Sys2Proof.Claims

/-- A buffer is not held up to a length exactly when an element below it holds no value. -/
theorem not_heldUpTo_iff {α : Type} {b : Buffer α} {n : Nat} : ¬ HeldUpTo b n ↔ ∃ k, k < n ∧ bufGet b k = none := by
  simp [HeldUpTo]

/-- The words in which R133 gives inconsistency, stray bits judged only in a last word that holds a value (log entry 10). -/
theorem lengthsInconsistent_iff {ord : ByteOrder} {s : State} : lengthsInconsistent ord s = true ↔
    s.bitlen.toNat % 8 ≠ 0 ∨ s.wlen.toNat ≠ (s.bitlen.toNat + 31) / 32
      ∨ ∃ last, bufGet s.wb (s.wlen.toNat - 1) = some last ∧ strayBits ord s.bitlen.toNat last = true := by
  rw [lengthsInconsistent, wordsForBits]
  cases bufGet s.wb (s.wlen.toNat - 1) <;> simp [or_assoc]

section
variable {f : List Word → List Byte} {size : Nat → Nat} {s : State}

/-- On its requires clause a rendering command leaves the text of the word array. -/
theorem renderCommand_of_requires
    (h : WithinCap s.wlen.toNat s.cfg.wcap ∧ HeldUpTo s.wb s.wlen.toNat ∧ WithinCap (size s.wlen.toNat) s.cfg.ocap) :
    ∃ x, wordArray s = some x ∧ renderCommand f size s = .next (finish (putText (f x) s)) := by
  obtain ⟨hwords, hheld, htext⟩ := h
  rcases renderCommand_cases f size s with ⟨-, hnext⟩ | ⟨hover, -⟩ | ⟨-, hunheld, -⟩
  · exact hnext
  · exact absurd ⟨hwords, htext⟩ hover
  · exact absurd hheld hunheld

/-- Outside its requires clause a rendering command is one of two faults. -/
theorem renderCommand_fault
    (h : ¬ (WithinCap s.wlen.toNat s.cfg.wcap ∧ HeldUpTo s.wb s.wlen.toNat ∧ WithinCap (size s.wlen.toNat) s.cfg.ocap)) :
    renderCommand f size s = .fault .capacity ∨ renderCommand f size s = .fault .readUnwritten := by
  rcases renderCommand_cases f size s with ⟨⟨hwords, htext⟩, x, hx, -⟩ | ⟨-, hfault⟩ | ⟨-, -, hfault⟩
  · exact absurd ⟨hwords, heldUpTo_iff.2 ⟨x, hx⟩, htext⟩ h
  · exact .inl hfault
  · exact .inr hfault

end

theorem exec_of_requires {i : Instr} {s : State} (h : Requires i s) : ∃ t, exec i s = .next t := by
  cases i with
  | add32 => exact ⟨_, exec_add32 s⟩
  | rol32 =>
    rcases execRol32_cases s with ⟨-, hnext⟩ | ⟨hbad, -⟩
    · exact ⟨_, hnext⟩
    · exact absurd h (Nat.not_le.2 hbad)
  | packle => obtain ⟨cs, -, hnext⟩ := packCommand_of_requires (ord := .le) h; exact ⟨_, hnext⟩
  | packbe => obtain ⟨cs, -, hnext⟩ := packCommand_of_requires (ord := .be) h; exact ⟨_, hnext⟩
  | unpackle | unpackbe | hexle | hexbe => obtain ⟨x, -, hnext⟩ := renderCommand_of_requires h; exact ⟨_, hnext⟩
  | b64be => obtain ⟨x, -, hnext⟩ := renderCommand_of_requires (size := b64Size) h; exact ⟨_, hnext⟩
  | md5core => obtain ⟨x, -, hnext⟩ := coreCommand_of_requires md5Core 128 (ord := .le) h; exact ⟨_, hnext⟩
  | sha1core => obtain ⟨x, -, hnext⟩ := coreCommand_of_requires sha1Core 160 (ord := .be) h; exact ⟨_, hnext⟩
  | hmacsha1 => obtain ⟨key, data, -, -, hnext⟩ := execHmacsha1_of_requires h; exact ⟨_, hnext⟩

theorem exec_fault_of_not_requires {i : Instr} {s : State} (h : ¬ Requires i s) : ∃ why, exec i s = .fault why := by
  cases i with
  | add32 => exact absurd trivial h
  | rol32 =>
    rcases execRol32_cases s with ⟨hok, -⟩ | ⟨-, hfault⟩
    · exact absurd hok h
    · exact ⟨_, hfault⟩
  | packle => rcases packCommand_fault (ord := .le) h with hfault | hfault <;> exact ⟨_, hfault⟩
  | packbe => rcases packCommand_fault (ord := .be) h with hfault | hfault <;> exact ⟨_, hfault⟩
  | unpackle | unpackbe | hexle | hexbe => rcases renderCommand_fault h with hfault | hfault <;> exact ⟨_, hfault⟩
  | b64be => rcases renderCommand_fault (size := b64Size) h with hfault | hfault <;> exact ⟨_, hfault⟩
  | md5core => rcases coreCommand_fault md5Core 128 (ord := .le) h with hfault | hfault | hfault <;> exact ⟨_, hfault⟩
  | sha1core => rcases coreCommand_fault sha1Core 160 (ord := .be) h with hfault | hfault | hfault <;> exact ⟨_, hfault⟩
  | hmacsha1 => rcases execHmacsha1_fault h with hfault | hfault <;> exact ⟨_, hfault⟩

/-- Settles O41 (60_exceptions.md section 1): the two cases of the requires clause, whose outcomes exclude each other. -/
theorem commandsCompleteExactlyWhenRequired : Obligations.CommandsCompleteExactlyWhenRequired := by
  intro i s
  by_cases hreq : Requires i s
  · obtain ⟨t, hnext⟩ := exec_of_requires hreq
    simp [hreq, hnext]
  · obtain ⟨why, hfault⟩ := exec_fault_of_not_requires hreq
    simp [hreq, hfault]

section
variable {s : State} {why : Fault}

theorem execRol32_reason (h : execRol32 s = .fault why) : why = .badRotateCount ∧ 31 < s.y.toNat := by
  rcases execRol32_cases s with ⟨-, hnext⟩ | ⟨hbad, hfault⟩
  · simp [hnext] at h
  · exact ⟨Host.Outcome.fault.inj (h.symm.trans hfault), hbad⟩

theorem packCommand_reason {ord : ByteOrder} (h : packCommand ord s = .fault why) :
    (why = .capacity ∧ ¬ LengthsFit (packInstr ord) s) ∨ (why = .readUnwritten ∧ ¬ HeldUpTo s.m s.mlen.toNat) := by
  rcases packCommand_cases ord s with ⟨-, cs, -, hnext⟩ | ⟨-, hfault⟩ | ⟨-, hunheld, hfault⟩
  · simp [hnext] at h
  · exact .inl ⟨Host.Outcome.fault.inj (h.symm.trans hfault), packCommand_eq_capacity_iff.1 hfault⟩
  · exact .inr ⟨Host.Outcome.fault.inj (h.symm.trans hfault), hunheld⟩

theorem renderCommand_reason {f : List Word → List Byte} {size : Nat → Nat} (h : renderCommand f size s = .fault why) :
    (why = .capacity ∧ ¬ (WithinCap s.wlen.toNat s.cfg.wcap ∧ WithinCap (size s.wlen.toNat) s.cfg.ocap))
      ∨ (why = .readUnwritten ∧ ¬ HeldUpTo s.wb s.wlen.toNat) := by
  rcases renderCommand_cases f size s with ⟨-, x, -, hnext⟩ | ⟨hover, hfault⟩ | ⟨-, hunheld, hfault⟩
  · simp [hnext] at h
  · exact .inl ⟨Host.Outcome.fault.inj (h.symm.trans hfault), hover⟩
  · exact .inr ⟨Host.Outcome.fault.inj (h.symm.trans hfault), hunheld⟩

theorem coreCommand_reason {ord : ByteOrder} {core : List Word → Nat → List Word} {bits : Nat}
    (h : coreCommand ord core bits s = .fault why) :
    (why = .inconsistentLength ∧ lengthsInconsistent ord s = true)
      ∨ (why = .capacity ∧ ¬ (WithinCap s.wlen.toNat s.cfg.wcap ∧ WithinCap (padLength s.bitlen.toNat) s.cfg.wcap))
      ∨ (why = .readUnwritten ∧ ¬ HeldUpTo s.wb s.wlen.toNat) := by
  rcases coreCommand_cases ord core bits s with
    ⟨hbad, hfault⟩ | ⟨-, hover, hfault⟩ | ⟨-, -, ⟨hunheld, hfault⟩ | ⟨x, -, hnext⟩⟩
  · exact .inl ⟨Host.Outcome.fault.inj (h.symm.trans hfault), hbad⟩
  · exact .inr (.inl ⟨Host.Outcome.fault.inj (h.symm.trans hfault), hover⟩)
  · exact .inr (.inr ⟨Host.Outcome.fault.inj (h.symm.trans hfault), hunheld⟩)
  · simp [hnext] at h

theorem execHmacsha1_reason (h : execHmacsha1 s = .fault why) :
    (why = .capacity ∧ ¬ LengthsFit .hmacsha1 s) ∨ (why = .readUnwritten ∧ ¬ InputsHeld .hmacsha1 s) := by
  rcases execHmacsha1_cases s with ⟨-, key, data, -, -, hnext⟩ | ⟨-, hfault⟩ | ⟨-, hunheld, hfault⟩
  · simp [hnext] at h
  · exact .inl ⟨Host.Outcome.fault.inj (h.symm.trans hfault), execHmacsha1_eq_capacity_iff.1 hfault⟩
  · exact .inr ⟨Host.Outcome.fault.inj (h.symm.trans hfault), hunheld⟩

end

/-- Settles O42 (60_exceptions.md section 1), by the reason of the shared operation behind each command. -/
theorem faultReasonsAreTrue : Obligations.FaultReasonsAreTrue := by
  intro i s why h
  cases i with
  | add32 => cases h
  | rol32 => obtain ⟨hwhy, hbad⟩ := execRol32_reason h; exact .inl ⟨hwhy, rfl, hbad⟩
  | packle => exact .inr (.inr (packCommand_reason (ord := .le) h))
  | packbe => exact .inr (.inr (packCommand_reason (ord := .be) h))
  | unpackle | unpackbe | hexle | hexbe | b64be => exact .inr (.inr (renderCommand_reason h))
  | md5core =>
    exact .inr ((coreCommand_reason h).imp_left fun ⟨hwhy, hbad⟩ => ⟨hwhy, .le, rfl, lengthsInconsistent_iff.1 hbad⟩)
  | sha1core =>
    exact .inr ((coreCommand_reason h).imp_left fun ⟨hwhy, hbad⟩ => ⟨hwhy, .be, rfl, lengthsInconsistent_iff.1 hbad⟩)
  | hmacsha1 => exact .inr (.inr (execHmacsha1_reason h))

section
variable {s : State}

theorem packCommand_unwritten {ord : ByteOrder} (hfits : packFits s = true) (hunheld : ¬ HeldUpTo s.m s.mlen.toNat) :
    packCommand ord s = .fault .readUnwritten := by
  rcases packCommand_cases ord s with ⟨-, cs, hcs, -⟩ | ⟨hover, -⟩ | ⟨-, -, hfault⟩
  · exact absurd (heldUpTo_iff.2 ⟨cs, hcs⟩) hunheld
  · simp [hfits] at hover
  · exact hfault

theorem renderCommand_unwritten {f : List Word → List Byte} {size : Nat → Nat} (hwords : WithinCap s.wlen.toNat s.cfg.wcap)
    (htext : WithinCap (size s.wlen.toNat) s.cfg.ocap) (hunheld : ¬ HeldUpTo s.wb s.wlen.toNat) :
    renderCommand f size s = .fault .readUnwritten := by
  rcases renderCommand_cases f size s with ⟨-, x, hx, -⟩ | ⟨hover, -⟩ | ⟨-, -, hfault⟩
  · exact absurd (heldUpTo_iff.2 ⟨x, hx⟩) hunheld
  · exact absurd ⟨hwords, htext⟩ hover
  · exact hfault

theorem coreCommand_unwritten {ord : ByteOrder} {core : List Word → Nat → List Word} {bits : Nat}
    (hcons : lengthsInconsistent ord s = false) (hfits : LengthsFit (coreInstr ord) s)
    (hunheld : ¬ HeldUpTo s.wb s.wlen.toNat) : coreCommand ord core bits s = .fault .readUnwritten := by
  rcases coreCommand_cases ord core bits s with ⟨hbad, -⟩ | ⟨-, hover, -⟩ | ⟨-, -, ⟨-, hfault⟩ | ⟨x, hx, -⟩⟩
  · simp [hcons] at hbad
  · exact absurd (by cases ord <;> exact hfits) hover
  · exact hfault
  · exact absurd (heldUpTo_iff.2 ⟨x, hx⟩) hunheld

theorem execHmacsha1_unwritten (hfits : LengthsFit .hmacsha1 s) (hunheld : ¬ InputsHeld .hmacsha1 s) :
    execHmacsha1 s = .fault .readUnwritten := by
  rcases execHmacsha1_cases s with ⟨-, key, data, hkey, hdata, -⟩ | ⟨-, hfault⟩ | ⟨-, -, hfault⟩
  · exact absurd ⟨heldUpTo_iff.2 ⟨key, hkey⟩, heldUpTo_iff.2 ⟨data, hdata⟩⟩ hunheld
  · exact absurd hfits (execHmacsha1_eq_capacity_iff.1 hfault)
  · exact hfault

end

/-- Settles O44 (60_exceptions.md section 1; 10_state.md section 6), by the shared operation behind each command. -/
theorem unwrittenInputsFault : Obligations.UnwrittenInputsFault := by
  refine ⟨fun ord s hnone hm hw hbits => ?_, fun s hnone hw => ⟨fun ho ord => ?_, fun ho ord => ?_, fun ho => ?_⟩,
    fun ord s hnone hbyte hcount hstray hfits => ?_, fun s hnone hfits => ?_, fun s => ⟨?_, fun h => ?_⟩⟩
  · exact (exec_packInstr ord s).trans (packCommand_unwritten (packFits_iff.2 ⟨hm, hw, hbits⟩) (not_heldUpTo_iff.2 hnone))
  · cases ord <;> exact renderCommand_unwritten hw ho (not_heldUpTo_iff.2 hnone)
  · cases ord <;> exact renderCommand_unwritten hw ho (not_heldUpTo_iff.2 hnone)
  · exact renderCommand_unwritten hw ho (not_heldUpTo_iff.2 hnone)
  · have hcons : lengthsInconsistent ord s = false := Bool.eq_false_iff.2 fun hbad => by
      rcases lengthsInconsistent_iff.1 hbad with h | h | ⟨last, hlast, h⟩
      · exact h hbyte
      · exact h hcount
      · simp [hstray last hlast] at h
    cases ord <;> exact coreCommand_unwritten hcons hfits (not_heldUpTo_iff.2 hnone)
  · refine execHmacsha1_unwritten hfits fun ⟨hk, hm⟩ => ?_
    exact hnone.elim (fun h => not_heldUpTo_iff.2 h hk) (fun h => not_heldUpTo_iff.2 h hm)
  · simp [exec_add32]
  · obtain ⟨hwhy, -⟩ := execRol32_reason h
    cases hwhy

end Sys2Proof.Machine
end

section
/-! PROOFS. Word arithmetic (40_word_utilities.md sections 1 and 2): the addition and its split form by value, the rotation by bits. -/

namespace Sys2Proof.Machine

theorem toNat_add32 (x y : Word) : (add32 x y).toNat = (x.toNat + y.toNat) % 2 ^ 32 := BitVec.toNat_add x y

/-- The 17 bits of a sum of two 16-bit halves lose nothing. -/
theorem toNat_lsw (x y : Word) : (lsw x y).toNat = x.toNat % 2 ^ 16 + y.toNat % 2 ^ 16 := by
  simp only [lsw, BitVec.toNat_add, BitVec.toNat_setWidth, BitVec.extractLsb'_toNat, Nat.shiftRight_zero]
  omega

theorem toNat_msw (x y : Word) :
    (msw x y).toNat = x.toNat / 2 ^ 16 + y.toNat / 2 ^ 16 + (lsw x y).toNat / 2 ^ 16 := by
  have hlow := (lsw x y).isLt
  simp only [msw, BitVec.toNat_add, BitVec.toNat_setWidth, BitVec.extractLsb'_toNat, Nat.shiftRight_eq_div_pow]
  omega

/-- The halves of the split form overlap in no bit, so OR is addition. -/
theorem toNat_add32Split (x y : Word) :
    (add32Split x y).toNat = (msw x y).toNat % 2 ^ 16 * 2 ^ 16 + (lsw x y).toNat % 2 ^ 16 := by
  have hlow : (lsw x y).toNat % 2 ^ 16 < 2 ^ 16 := Nat.mod_lt _ (by decide)
  have hor := Nat.shiftLeft_add_eq_or_of_lt hlow ((msw x y).toNat % 2 ^ 16)
  rw [Nat.shiftLeft_eq] at hor
  rw [hor]
  simp only [add32Split, BitVec.toNat_or, BitVec.toNat_shiftLeft, BitVec.toNat_setWidth, BitVec.extractLsb'_toNat,
    Nat.shiftRight_zero, Nat.shiftLeft_eq]
  congr 1 <;> omega

theorem add32_eq_add32Split (x y : Word) : add32 x y = add32Split x y := by
  apply BitVec.eq_of_toNat_eq
  rw [toNat_add32, toNat_add32Split, toNat_msw, toNat_lsw]
  omega

/-- Settles O7 (40_word_utilities.md section 1). -/
theorem additionWraps : Obligations.AdditionWraps :=
  ⟨toNat_add32, fun x y => ⟨toNat_lsw x y, toNat_msw x y, toNat_add32Split x y, add32_eq_add32Split x y⟩,
    BitVec.add_comm, BitVec.add_assoc⟩

@[simp] theorem rol32_zero (v : Word) : rol32 v 0 = v := rfl

theorem rol32_of_pos (v : Word) {n : Nat} (hn : 1 ≤ n) : rol32 v n = (v <<< n) ||| (v >>> (32 - n)) :=
  if_neg (by omega)

/-- A bit above the count comes from the left shift, one below it from the right shift. -/
theorem getLsbD_rol32 (v : Word) {n i : Nat} (hn : n ≤ 31) (hi : i < 32) :
    (rol32 v n).getLsbD ((i + n) % 32) = v.getLsbD i := by
  rcases Nat.eq_zero_or_pos n with rfl | hpos
  · rw [rol32_zero, Nat.add_zero, Nat.mod_eq_of_lt hi]
  · rw [rol32_of_pos v hpos, BitVec.getLsbD_or, BitVec.getLsbD_shiftLeft, BitVec.getLsbD_ushiftRight]
    rcases Nat.lt_or_ge (i + n) 32 with hlow | hwrap
    · have hout : 32 ≤ 32 - n + (i + n) := by omega
      rw [Nat.mod_eq_of_lt hlow, BitVec.getLsbD_of_ge v _ hout]
      simp [hlow]
    · have hplace : (i + n) % 32 = i + n - 32 := by omega
      have hbelow : i + n - 32 < n := by omega
      have hback : 32 - n + (i + n - 32) = i := by omega
      rw [hplace, hback]
      simp [hbelow]

/-- Rotating on by the rest of the word brings every bit back. -/
theorem rol32_rol32 (v : Word) {n : Nat} (hpos : 1 ≤ n) (hn : n ≤ 31) : rol32 (rol32 v n) (32 - n) = v := by
  apply BitVec.eq_of_getLsbD_eq
  intro i hi
  have hmid : (i + n) % 32 < 32 := Nat.mod_lt _ (by decide)
  have hback : ((i + n) % 32 + (32 - n)) % 32 = i := by omega
  calc (rol32 (rol32 v n) (32 - n)).getLsbD i
      = (rol32 (rol32 v n) (32 - n)).getLsbD (((i + n) % 32 + (32 - n)) % 32) := by rw [hback]
    _ = (rol32 v n).getLsbD ((i + n) % 32) := getLsbD_rol32 _ (by omega) hmid
    _ = v.getLsbD i := getLsbD_rol32 v hn hi

/-- Settles O9 (40_word_utilities.md section 2). -/
theorem rotationMovesBits : Obligations.RotationMovesBits := fun v _ hn =>
  ⟨fun _ hi => getLsbD_rol32 v hn hi, fun hpos => ⟨rol32_of_pos v hpos, rol32_rol32 v hpos hn⟩, rol32_zero v⟩

end Sys2Proof.Machine
end

section
/-! PROOFS. Byte streams (20_memory.md section 2; 40_word_utilities.md section 4): a word is its four bytes, so a stream determines its
word array, and packing and unpacking undo each other. -/

namespace Sys2Proof.Machine

open Sys2Proof.Claims

/-- Lists of one length are equal when they agree at every position, whatever stands above. -/
theorem list_eq_of_getD {α : Type} {d : α} {x y : List α} (hlen : x.length = y.length) (h : ∀ i, x.getD i d = y.getD i d) :
    x = y := by
  refine List.ext_getElem hlen fun i hx hy => ?_
  rw [← List.getD_eq_getElem x d hx, ← List.getD_eq_getElem y d hy, h i]

/-- Zeros at the end of a list are seen by its length only. -/
theorem getD_append_replicate {α : Type} (d : α) (x : List α) (n i : Nat) : (x ++ List.replicate n d).getD i d = x.getD i d := by
  rcases Nat.lt_or_ge i x.length with hin | hout
  · exact List.getD_append _ _ _ _ hin
  · rw [List.getD_append_right _ _ _ _ hout, List.getD_eq_default _ _ hout, List.getD_eq_getElem?_getD,
      List.getElem?_getD_replicate_default_eq]

theorem unpack_cons (ord : ByteOrder) (w : Word) (x : List Word) : unpack ord (w :: x) = wordBytes ord w ++ unpack ord x := rfl

/-- Byte `j` of a stream is a byte of word `j / 4`, and zero above the array. -/
theorem getD_unpack (ord : ByteOrder) (x : List Word) (j : Nat) :
    (unpack ord x).getD j 0 = byteAt ord (x.getD (j / 4) 0) j := by
  induction x generalizing j with
  | nil => simp [unpack]
  | cons w x ih =>
    rw [unpack_cons]
    rcases Nat.lt_or_ge j 4 with hj | hj
    · rw [Nat.div_eq_of_lt hj, List.getD_append _ _ _ _ hj]
      interval_cases j <;> rfl
    · obtain ⟨j, rfl⟩ := Nat.exists_eq_add_of_le' hj
      rw [List.getD_append_right _ _ _ _ hj, byteAt_add_four, Nat.add_div_right j (by decide), List.getD_cons_succ, ← ih]
      rfl

theorem toNat_getD_unpack (ord : ByteOrder) (x : List Word) (j : Nat) :
    ((unpack ord x).getD j 0).toNat = streamByte ord x j := by
  rw [getD_unpack, streamByte_eq_byteAt]

theorem getLsbD_byteAt (ord : ByteOrder) (w : Word) (k : Nat) {p : Nat} (hp : p < 8) :
    (byteAt ord w k).getLsbD p = w.getLsbD (laneShift ord k + p) := by
  rw [byteAt, BitVec.getLsbD_setWidth, BitVec.getLsbD_ushiftRight, decide_eq_true hp, Bool.true_and]

/-- Every bit of a word stands in one of its bytes. -/
theorem exists_lane_of_bit (ord : ByteOrder) {i : Nat} (hi : i < 32) : ∃ k, k < 4 ∧ laneShift ord k + i % 8 = i := by
  cases ord with
  | le => exact ⟨i / 8, by omega, by simp only [laneShift]; omega⟩
  | be => exact ⟨3 - i / 8, by omega, by simp only [laneShift]; omega⟩

theorem word_eq_of_byteAt {ord : ByteOrder} {v w : Word} (h : ∀ k, k < 4 → byteAt ord v k = byteAt ord w k) : v = w := by
  apply BitVec.eq_of_getLsbD_eq
  intro i hi
  obtain ⟨k, hk, hlane⟩ := exists_lane_of_bit ord hi
  have hbit : i % 8 < 8 := Nat.mod_lt i (by decide)
  rw [← hlane, ← getLsbD_byteAt ord v k hbit, ← getLsbD_byteAt ord w k hbit, h k hk]

/-- A byte stream determines its word array. -/
theorem unpack_injective {ord : ByteOrder} {x y : List Word} (h : unpack ord x = unpack ord y) : x = y := by
  have hlen := congrArg List.length h
  rw [length_unpack, length_unpack] at hlen
  refine list_eq_of_getD (d := 0) (by omega) fun i => word_eq_of_byteAt (ord := ord) fun k hk => ?_
  have hdiv : (k + i * 4) / 4 = i := by omega
  have hlane : ∀ w, byteAt ord w (k + i * 4) = byteAt ord w k := fun w => by
    rw [byteAt, laneShift_inj.2 (Nat.add_mul_mod_self_right k i 4), byteAt]
  have hbyte : ∀ z : List Word, byteAt ord (z.getD i 0) k = (unpack ord z).getD (k + i * 4) 0 := fun z => by
    rw [getD_unpack, hdiv, hlane]
  rw [hbyte, hbyte, h]

/-- The stream of a packed text is its low bytes, filled up with zeros to whole words. -/
theorem unpack_pack (ord : ByteOrder) (t : List Word) :
    unpack ord (pack ord t) = t.map charByte ++ List.replicate ((4 - t.length % 4) % 4) 0 := by
  refine list_eq_of_getD (d := 0) ?_ fun i => ?_
  · rw [length_unpack, length_pack, wordsFor, List.length_append, List.length_map, List.length_replicate]
    omega
  · rw [getD_unpack, byteAt_pack, getD_append_replicate]
    exact (List.getD_map t 0 charByte).symm

theorem charByte_setWidth (b : Byte) : charByte (b.setWidth 32) = b := by
  apply BitVec.eq_of_toNat_eq
  simp [charByte]

/-- The characters of a byte string contribute the bytes. -/
theorem map_charByte_setWidth (bs : List Byte) : (bs.map (fun b => b.setWidth 32)).map charByte = bs := by
  rw [List.map_map, show charByte ∘ _ = id from funext charByte_setWidth, List.map_id]

/-- Unpacking a packed byte string that fills whole words gives it back. -/
theorem unpack_pack_bytes (ord : ByteOrder) {bs : List Byte} (hlen : bs.length % 4 = 0) :
    unpack ord (pack ord (bs.map (fun b => b.setWidth 32))) = bs := by
  rw [unpack_pack, map_charByte_setWidth, List.length_map, hlen, Nat.sub_zero, Nat.mod_self, List.replicate_zero,
    List.append_nil]

theorem pack_unpack (ord : ByteOrder) (x : List Word) : pack ord ((unpack ord x).map (fun b => b.setWidth 32)) = x :=
  unpack_injective (unpack_pack_bytes ord (by rw [length_unpack, Nat.mul_mod_right]))

/-- Settles O15 (40_word_utilities.md section 4). -/
theorem packUnpackRoundTrip : Obligations.PackUnpackRoundTrip := fun ord => ⟨unpack_pack ord, pack_unpack ord⟩

/-- The two orders number the bytes of a word from its two ends. -/
theorem byteAt_be_mirror (w : Word) (j : Nat) : byteAt .be w (4 * (j / 4) + (3 - j % 4)) = byteAt .le w j := by
  have hlane : laneShift .be (4 * (j / 4) + (3 - j % 4)) = laneShift .le j := by
    simp only [laneShift]
    omega
  rw [byteAt, hlane, byteAt]

/-- Settles O16 (20_memory.md section 2). -/
theorem bigEndianReversesGroups : Obligations.BigEndianReversesGroups := fun x j hj => by
  have hle : j < (unpack .le x).length := by rwa [length_unpack]
  have hbe : 4 * (j / 4) + (3 - j % 4) < (unpack .be x).length := by rw [length_unpack]; omega
  have hword : (4 * (j / 4) + (3 - j % 4)) / 4 = j / 4 := by omega
  rw [List.getElem?_eq_getElem hle, List.getElem?_eq_getElem hbe, ← List.getD_eq_getElem _ 0 hle,
    ← List.getD_eq_getElem _ 0 hbe, getD_unpack, getD_unpack, hword, byteAt_be_mirror]

end Sys2Proof.Machine
end

section
/-! PROOFS. The renderings by position (40_word_utilities.md sections 4 to 6): the hex digits of a byte and the base64 symbols of a
group. -/

namespace Sys2Proof.Machine

open Sys2Proof.Claims

theorem hexByte_eq (b : Byte) : hexByte b = [hexDigit (b >>> 4), hexDigit (b &&& 0xF)] := rfl

/-- The two digits of byte `j`. -/
theorem getElem?_flatMap_hexByte (bs : List Byte) (j : Nat) :
    (bs.flatMap hexByte)[2 * j]? = bs[j]?.map (fun b : Byte => hexDigit (b >>> 4))
      ∧ (bs.flatMap hexByte)[2 * j + 1]? = bs[j]?.map (fun b : Byte => hexDigit (b &&& 0xF)) := by
  induction bs generalizing j with
  | nil => simp
  | cons b bs ih =>
    cases j with
    | zero => simp [hexByte]
    | succ j =>
      obtain ⟨hhigh, hlow⟩ := ih j
      simpa [hexByte, Nat.mul_add] using ⟨hhigh, hlow⟩

theorem toNat_hexDigit {v : Byte} (hv : v.toNat < 16) : (hexDigit v).toNat = hexCodes.getD v.toNat 0 := by
  have hdigits : ∀ n, n < 16 → (hexDigit (BitVec.ofNat 8 n)).toNat = hexCodes.getD (BitVec.ofNat 8 n).toNat 0 := by decide
  have hdigit := hdigits v.toNat hv
  rwa [BitVec.ofNat_toNat, BitVec.setWidth_eq] at hdigit

theorem toNat_high_nibble (b : Byte) : (b >>> 4).toNat = b.toNat / 16 := by
  rw [BitVec.toNat_ushiftRight, Nat.shiftRight_eq_div_pow]

theorem toNat_low_nibble (b : Byte) : (b &&& 0xF).toNat = b.toNat % 16 := by
  rw [BitVec.toNat_and]
  exact Nat.and_two_pow_sub_one_eq_mod b.toNat 4

theorem high_nibble_lt (b : Byte) : (b >>> 4).toNat < 16 := by
  rw [toNat_high_nibble]
  omega

theorem low_nibble_lt (b : Byte) : (b &&& 0xF).toNat < 16 := by
  rw [toNat_low_nibble]
  omega

/-- The sixteen digits are different characters. -/
theorem hexDigit_inj {v w : Byte} (hv : v.toNat < 16) (hw : w.toNat < 16) (h : hexDigit v = hexDigit w) : v = w := by
  have hcodes : ∀ n, n < 16 → ∀ m, m < 16 → hexCodes.getD n 0 = hexCodes.getD m 0 → n = m := by decide
  refine BitVec.eq_of_toNat_eq (hcodes _ hv _ hw ?_)
  rw [← toNat_hexDigit hv, ← toNat_hexDigit hw, h]

/-- A byte is its two nibbles. -/
theorem hexByte_injective {b c : Byte} (h : hexByte b = hexByte c) : b = c := by
  obtain ⟨hhigh, hlow, -⟩ : _ ∧ _ ∧ _ := by simpa only [hexByte_eq, List.cons.injEq] using h
  have hdiv := congrArg BitVec.toNat (hexDigit_inj (high_nibble_lt b) (high_nibble_lt c) hhigh)
  have hmod := congrArg BitVec.toNat (hexDigit_inj (low_nibble_lt b) (low_nibble_lt c) hlow)
  rw [toNat_high_nibble, toNat_high_nibble] at hdiv
  rw [toNat_low_nibble, toNat_low_nibble] at hmod
  apply BitVec.eq_of_toNat_eq
  omega

theorem flatMap_hexByte_injective {bs cs : List Byte} (h : bs.flatMap hexByte = cs.flatMap hexByte) : bs = cs := by
  induction bs generalizing cs with
  | nil =>
    cases cs with
    | nil => rfl
    | cons c cs => simp [hexByte] at h
  | cons b bs ih =>
    cases cs with
    | nil => simp [hexByte] at h
    | cons c cs =>
      rw [List.flatMap_cons, List.flatMap_cons] at h
      obtain ⟨hbyte, hrest⟩ := List.append_inj h rfl
      rw [hexByte_injective hbyte, ih hrest]

/-- Settles O18 (91_not_in_source.md N9): the digits determine the bytes and the bytes the words. -/
theorem hexIsInjective : Obligations.HexIsInjective := fun _ _ _ h => unpack_injective (flatMap_hexByte_injective h)

/-- The two digits of byte `j` of a stream, as codes. -/
theorem getD_hex (ord : ByteOrder) (x : List Word) {j : Nat} (hj : j < 4 * x.length) :
    ((hex ord x).getD (2 * j) 0).toNat = hexCodes.getD (streamByte ord x j / 16) 0
      ∧ ((hex ord x).getD (2 * j + 1) 0).toNat = hexCodes.getD (streamByte ord x j % 16) 0 := by
  obtain ⟨hhigh, hlow⟩ := getElem?_flatMap_hexByte (unpack ord x) j
  have hbyte : (unpack ord x)[j]? = some ((unpack ord x).getD j 0) := by
    have hin : j < (unpack ord x).length := by rwa [length_unpack]
    rw [List.getElem?_eq_getElem hin, List.getD_eq_getElem _ 0 hin]
  rw [hbyte, Option.map_some] at hhigh hlow
  constructor
  · rw [hex, List.getD_eq_getElem?_getD, hhigh, Option.getD_some, toNat_hexDigit (high_nibble_lt _), toNat_high_nibble,
      toNat_getD_unpack]
  · rw [hex, List.getD_eq_getElem?_getD, hlow, Option.getD_some, toNat_hexDigit (low_nibble_lt _), toNat_low_nibble,
      toNat_getD_unpack]

theorem toNat_b64Char (v : BitVec 6) : (b64Char v).toNat = b64Code v.toNat := by
  have hsymbols : ∀ n, n < 64 → (b64Char (BitVec.ofNat 6 n)).toNat = b64Code (BitVec.ofNat 6 n).toNat := by decide
  have hsymbol := hsymbols v.toNat v.isLt
  rwa [BitVec.ofNat_toNat, BitVec.setWidth_eq] at hsymbol

/-- The three bytes of a group overlap in no bit, so OR is addition. -/
theorem toNat_b64Bits (b0 b1 b2 : Byte) : (b64Bits b0 b1 b2).toNat = b0.toNat * 65536 + b1.toNat * 256 + b2.toNat := by
  have h0 := b0.isLt
  have h1 := b1.isLt
  have h2 := b2.isLt
  have hhigh : b0.toNat <<< 16 ||| b1.toNat <<< 8 = (b0.toNat * 256 + b1.toNat) <<< 8 := by
    have hor := Nat.shiftLeft_add_eq_or_of_lt (i := 16) (b := b1.toNat <<< 8) (by rw [Nat.shiftLeft_eq]; omega) b0.toNat
    rw [← hor]
    simp only [Nat.shiftLeft_eq]
    omega
  have hor := Nat.shiftLeft_add_eq_or_of_lt (i := 8) (b := b2.toNat) h2 (b0.toNat * 256 + b1.toNat)
  have hmod0 : b0.toNat <<< 16 % 2 ^ 24 = b0.toNat <<< 16 := Nat.mod_eq_of_lt (by rw [Nat.shiftLeft_eq]; omega)
  have hmod1 : b1.toNat <<< 8 % 2 ^ 24 = b1.toNat <<< 8 := Nat.mod_eq_of_lt (by rw [Nat.shiftLeft_eq]; omega)
  have hwide : ∀ b : Byte, b.toNat % 2 ^ 24 = b.toNat := fun b => Nat.mod_eq_of_lt (b.isLt.trans (by decide))
  simp only [b64Bits, BitVec.toNat_or, BitVec.toNat_shiftLeft, BitVec.toNat_setWidth, hwide, hmod0, hmod1, hhigh, ← hor]
  rw [Nat.shiftLeft_eq]
  omega

/-- The symbol of the six bits of a group from bit `lo` on. -/
theorem toNat_b64Char_extract (b0 b1 b2 : Byte) (lo : Nat) : (b64Char ((b64Bits b0 b1 b2).extractLsb' lo 6)).toNat =
    b64Code ((b0.toNat * 65536 + b1.toNat * 256 + b2.toNat) / 2 ^ lo % 64) := by
  rw [toNat_b64Char, BitVec.extractLsb'_toNat, toNat_b64Bits, Nat.shiftRight_eq_div_pow]

theorem b64Char_ne_padChar (v : BitVec 6) : b64Char v ≠ padChar := by
  have hsymbols : ∀ n, n < 64 → b64Char (BitVec.ofNat 6 n) ≠ padChar := by decide
  have hsymbol := hsymbols v.toNat v.isLt
  rwa [BitVec.ofNat_toNat, BitVec.setWidth_eq] at hsymbol

/-- Settles O20 (40_word_utilities.md section 6): no symbol of a group's bits is `=`, so the last group's are all there are. -/
theorem base64Padding : Obligations.Base64Padding := fun bytes => by
  refine ⟨by rw [length_b64, Nat.mul_mod_right], ?_⟩
  induction bytes using b64.induct with
  | case1 => simp [b64]
  | case2 => simp [b64, b64Char_ne_padChar]
  | case3 => simp [b64, b64Char_ne_padChar]
  | case4 b0 b1 b2 rest ih =>
    have hmod : (b0 :: b1 :: b2 :: rest).length % 3 = rest.length % 3 := Nat.add_mod_right rest.length 3
    rw [hmod, ← ih]
    simp [b64, b64Char_ne_padChar]

/-- Symbol `p` of group `g`, by the group's bytes and how many of them are real. -/
theorem getD_b64 (bs : List Byte) {g p : Nat} (hg : g < (bs.length + 2) / 3) (hp : p < 4) :
    ((b64 bs).getD (4 * g + p) 0).toNat =
      groupSymbol (bs.getD (3 * g) 0).toNat (bs.getD (3 * g + 1) 0).toNat (bs.getD (3 * g + 2) 0).toNat
        (min 3 (bs.length - 3 * g)) p := by
  induction bs using b64.induct generalizing g with
  | case1 => simp at hg
  | case2 b0 =>
    obtain rfl : g = 0 := by simp at hg; omega
    interval_cases p <;> simp [b64, groupSymbol, toNat_b64Char_extract, padChar]
  | case3 b0 b1 =>
    obtain rfl : g = 0 := by simp at hg; omega
    interval_cases p <;> simp [b64, groupSymbol, toNat_b64Char_extract, padChar]
  | case4 b0 b1 b2 rest ih =>
    cases g with
    | zero => interval_cases p <;> simp [b64, groupSymbol, toNat_b64Char_extract]
    | succ g =>
      have hrest := ih (g := g) (by simp at hg; omega)
      have hplace : 4 * (g + 1) + p = 4 * g + p + 4 := by omega
      have hleft : (b0 :: b1 :: b2 :: rest).length - 3 * (g + 1) = rest.length - 3 * g := by simp; omega
      rw [hplace, hleft, Nat.mul_add 3 g 1]
      exact hrest

end Sys2Proof.Machine
end

section
/-! PROOFS. The rendering commands (40_word_utilities.md R107, R108, R110, R111, R113): what a completed one leaves. -/

namespace Sys2Proof.Machine

open Sys2Proof.Claims

/-- O holds the text from index 0 on and is as before above it, OLEN counts it where the count fits, and nothing else changed. -/
def TextWritten (bs : List Byte) (s t : State) : Prop :=
  readAll (α := Byte) t.o bs.length = some bs ∧ SameFrom (α := Byte) s.o t.o bs.length
    ∧ (bs.length < 2 ^ 32 → t.olen.toNat = bs.length)
    ∧ SameScalars s t ∧ SameResult s t ∧ SameTexts s t ∧ SameWords s t ∧ SameHost s t ∧ AtRest t

theorem textWritten_finish_putText (bs : List Byte) (s : State) : TextWritten bs s (finish (putText bs s)) :=
  ⟨readAll_bufOver bs s.o, sameFrom_bufOver bs s.o, countReg_toNat, finish_putText_frame s bs⟩

/-- What a rendering command leaves on its requires clause. -/
theorem renderCommand_result {f : List Word → List Byte} {size : Nat → Nat} (hsize : ∀ x, (f x).length = size x.length)
    {s : State}
    (hreq : WithinCap s.wlen.toNat s.cfg.wcap ∧ HeldUpTo s.wb s.wlen.toNat ∧ WithinCap (size s.wlen.toNat) s.cfg.ocap) :
    ∃ t x, renderCommand f size s = .next t ∧ wordArray s = some x ∧ x.length = s.wlen.toNat
      ∧ (f x).length = size s.wlen.toNat ∧ TextWritten (f x) s t := by
  obtain ⟨x, hx, hnext⟩ := renderCommand_of_requires (f := f) hreq
  obtain ⟨hlen, -⟩ := readAll_eq_some.1 hx
  exact ⟨_, x, hnext, hx, hlen, by rw [hsize, hlen], textWritten_finish_putText (f x) s⟩

/-- Settles O14 (40_word_utilities.md section 4). -/
theorem unpackResult : Obligations.UnpackResult := fun ord s hreq => by
  obtain ⟨t, x, hnext, hx, -, hcount, hread, habove, holen, hframe⟩ :=
    renderCommand_result (length_unpack ord) (by cases ord <;> exact hreq)
  exact ⟨t, x, unpack ord x, by cases ord <;> exact hnext, hx, hcount, hread, habove, fun j _ => toNat_getD_unpack ord x j,
    holen, hframe⟩

/-- Settles O17 (40_word_utilities.md section 5). -/
theorem hexResult : Obligations.HexResult := fun ord s hreq => by
  obtain ⟨t, x, hnext, hx, hlen, hcount, hread, habove, holen, hframe⟩ :=
    renderCommand_result (length_hex ord) (by cases ord <;> exact hreq)
  exact ⟨t, x, hex ord x, by cases ord <;> exact hnext, hx, hcount, hread, habove, fun j hj => getD_hex ord x (hlen ▸ hj),
    holen, hframe⟩

/-- Settles O19 (40_word_utilities.md section 6). -/
theorem base64Result : Obligations.Base64Result := fun s hreq => by
  obtain ⟨t, x, hnext, hx, hlen, hcount, hread, habove, holen, hframe⟩ := renderCommand_result length_b64be hreq
  refine ⟨t, x, b64be x, hnext, hx, hcount, hread, habove, fun g p hg hp => ?_, holen, hframe⟩
  have hgroup : g < ((unpack .be x).length + 2) / 3 := by rwa [length_unpack, hlen]
  rw [b64be, getD_b64 _ hgroup hp, toNat_getD_unpack, toNat_getD_unpack, toNat_getD_unpack, length_unpack, hlen]

end Sys2Proof.Machine
end

section
/-! PROOFS. Packed texts and padded streams (41_md5.md section 4; 42_sha1.md sections 3 and 6): the bytes of a last word above the
message are zero, so it has no stray bit. -/

namespace Sys2Proof.Machine

/-- A last word whose bytes above the message are zero has no stray bit. -/
theorem strayBits_of_zero_bytes {ord : ByteOrder} {len : Nat} {last : Word} (hlen : len % 8 = 0)
    (h : len % 32 ≠ 0 → ∀ k, len % 32 / 8 ≤ k → k < 4 → byteAt ord last k = 0#8) : strayBits ord len last = false := by
  have hzero : len % 32 ≠ 0 → ∀ i k, i < 32 → k < 4 → laneShift ord k + i % 8 = i → len % 32 / 8 ≤ k →
      last.getLsbD i = false := fun hne i k hi hk hlane hle => by
    rw [← hlane, ← getLsbD_byteAt ord last k (Nat.mod_lt i (by decide)), h hne k hle hk, BitVec.getLsbD_zero]
  cases ord with
  | le =>
    refine strayBits_le_eq_false_iff.2 fun hne b hb => ?_
    obtain ⟨k, hk, hlane⟩ := exists_lane_of_bit .le (i := len % 32 + b) (by omega)
    refine hzero hne _ k (by omega) hk hlane ?_
    simp only [laneShift] at hlane
    omega
  | be =>
    refine strayBits_be_eq_false_iff.2 fun hne b hb => ?_
    obtain ⟨k, hk, hlane⟩ := exists_lane_of_bit .be (i := b) (by omega)
    refine hzero hne _ k (by omega) hk hlane ?_
    simp only [laneShift] at hlane
    omega

theorem getLastD_eq_getD (x : List Word) : x.getLastD 0 = x.getD (x.length - 1) 0 := by
  rw [List.getLastD_eq_getLast?, List.getLast?_eq_getElem?, List.getD_eq_getElem?_getD]

/-- A packed text is consistent with its bit length: its bytes above the text are zero. -/
theorem consistent_pack (ord : ByteOrder) (t : List Word) : consistent ord (pack ord t) (8 * t.length) = true := by
  refine consistent_iff.2 ⟨Nat.mul_mod_right 8 _, by rw [length_pack, wordsFor]; omega,
    strayBits_of_zero_bytes (Nat.mul_mod_right 8 _) fun hne k hle hk => ?_⟩
  have hlast : (pack ord t).length - 1 = (k + t.length / 4 * 4) / 4 := by rw [length_pack, wordsFor]; omega
  have hlane : ∀ w, byteAt ord w k = byteAt ord w (k + t.length / 4 * 4) := fun w => by
    rw [byteAt, laneShift_inj.2 (Nat.add_mul_mod_self_right k _ 4).symm, byteAt]
  rw [getLastD_eq_getD, hlast, hlane, byteAt_pack, List.getD_eq_default _ _ (by omega)]
  rfl

theorem consistent_nil (ord : ByteOrder) : consistent ord [] 0 = true := rfl

/-- Settles O22 (41_md5.md section 4). -/
theorem packedTextsAreConsistent : Obligations.PackedTextsAreConsistent := by
  refine ⟨consistent_pack, consistent_nil, fun len hlen => ⟨?_, padLength_mod_sixteen len⟩⟩
  have := padLength_room len
  omega

/-- Settles O24 (42_sha1.md sections 3 and 6). -/
theorem sha1PadLayout : Obligations.Sha1PadLayout := by
  refine ⟨fun s x hx hcons hcap => ?_, fun x len hcons => ?_⟩
  · exact (exec_sha1core s).trans (coreCommand_over_capacity sha1Core 160 hx hcons hcap)
  · have hlen := length_padStream (ord := .be) (length_le_padLength_of_consistent hcons)
    exact ⟨hlen, by rw [hlen, padLength_mod_sixteen], fun i hi => getD_padStream .be hi⟩

end Sys2Proof.Machine
end

section
/-! PROOFS. The blocks of a padded stream in order (41_md5.md sections 2, 5 and 6; 42_sha1.md sections 1, 2 and 5). -/

namespace Sys2Proof.Machine

/-- Block `b` of a padded stream has 16 words, the stream's from word `16 * b` on. -/
theorem blockOf_padStream {ord : ByteOrder} {x : List Word} {len b : Nat} (hx : x.length ≤ padLength len) (hb : b < blockCount len) :
    (blockOf (padStream ord x len) b).length = 16
      ∧ ∀ i, i < 16 → (blockOf (padStream ord x len) b).getD i 0 = (padStream ord x len).getD (16 * b + i) 0 := by
  refine ⟨?_, fun i hi => ?_⟩
  · rw [blockOf, List.length_take, List.length_drop, length_padStream hx, padLength_eq]
    omega
  · rw [blockOf, List.getD_eq_getElem?_getD, List.getElem?_take_of_lt hi, List.getElem?_drop, List.getD_eq_getElem?_getD]

theorem md5Blocks_succ (p : List Word) (n : Nat) (r : Regs) :
    md5Blocks p (n + 1) r = md5Block (blockOf p n) (md5Blocks p n r) := by
  simp [md5Blocks, List.range_succ]

theorem sha1Blocks_succ (p : List Word) (n : Nat) (r : Regs) :
    sha1Blocks p (n + 1) r = sha1Block (blockOf p n) (sha1Blocks p n r) := by
  simp [sha1Blocks, List.range_succ]

/-- Settles O27 (41_md5.md sections 2, 5 and 6), with the registers after each block as the sequence. -/
theorem md5CoreTakesBlocksInOrder : Obligations.Md5CoreTakesBlocksInOrder := fun x len hcons => by
  refine ⟨fun b => md5Blocks (padStream .le x len) b (md5Init Regs.zero), rfl, rfl, rfl, rfl, fun b hb => ?_, rfl⟩
  obtain ⟨hlen, hget⟩ := blockOf_padStream (ord := .le) (length_le_padLength_of_consistent hcons) hb
  exact ⟨_, hlen, hget, md5Blocks_succ _ _ _⟩

/-- Settles O31 (42_sha1.md sections 1, 2 and 5), with the registers after each block as the sequence. -/
theorem sha1CoreTakesBlocksInOrder : Obligations.Sha1CoreTakesBlocksInOrder := fun x len hcons => by
  refine ⟨fun b => sha1Blocks (padStream .be x len) b sha1Init, rfl, fun b hb => ?_, rfl⟩
  obtain ⟨hlen, hget⟩ := blockOf_padStream (ord := .be) (length_le_padLength_of_consistent hcons) hb
  exact ⟨_, hlen, hget, sha1Blocks_succ _ _ _⟩

end Sys2Proof.Machine
end

section
/-! PROOFS. One MD5 block (41_md5.md sections 3 and 5): the printed table as its closed forms and constants, the registers after each
step, and the classical way of writing the step. -/

namespace Sys2Proof.Machine

open Sys2Proof.Claims

/-- The function of a step, by round (R136). -/
def md5RoundFn (t : Nat) : Md5Fn := if t < 16 then .f else if t < 32 then .g else if t < 48 then .h else .i

/-- Row `t` of the step table, by the closed forms and the printed constant (R132). -/
def md5RowAt (t : Nat) : Md5Row := { fn := md5RoundFn t, k := md5Index t, rot := md5Rotation t, t := md5Constant t }

theorem md5Table_eq_map_md5RowAt : md5Table = (List.range 64).map md5RowAt := by decide

theorem md5Func_md5RoundFn (t : Nat) (b c d : Word) : md5Func (md5RoundFn t) b c d = md5StepFunc t b c d := by
  simp only [md5RoundFn, md5StepFunc]
  split_ifs <;> rfl

/-- The registers after steps 0 to `n - 1` on a block. -/
def md5StepsTo (blk : List Word) (r : Regs) (n : Nat) : Regs :=
  (List.range n).foldl (fun r t => md5Step blk r (md5RowAt t)) r

@[simp] theorem md5StepsTo_zero (blk : List Word) (r : Regs) : md5StepsTo blk r 0 = r := rfl

theorem md5StepsTo_succ (blk : List Word) (r : Regs) (n : Nat) :
    md5StepsTo blk r (n + 1) = md5Step blk (md5StepsTo blk r n) (md5RowAt n) := by
  simp [md5StepsTo, List.range_succ]

theorem md5Block_eq_md5StepsTo (blk : List Word) (r : Regs) : md5Block blk r = md5Feed r (md5StepsTo blk r 64) := by
  rw [md5Block, md5Table_eq_map_md5RowAt, List.foldl_map, md5StepsTo]

/-- Register E is not MD5's (10_state.md R24). -/
theorem md5StepsTo_e (blk : List Word) (r : Regs) (n : Nat) : (md5StepsTo blk r n).e = r.e := by
  induction n with
  | zero => rfl
  | succ n ih => rw [md5StepsTo_succ, ← ih]; rfl

/-- Settles O25 (41_md5.md sections 3 and 5), with the registers after each step as the sequence. -/
theorem md5BlockFollowsTheRules : Obligations.Md5BlockFollowsTheRules := fun blk r => by
  refine ⟨md5StepsTo blk r, md5StepsTo_zero blk r, fun t _ => ?_, ?_⟩
  · rw [md5StepsTo_succ, ← md5Func_md5RoundFn]
    exact ⟨rfl, rfl, rfl, rfl, rfl⟩
  · rw [md5Block_eq_md5StepsTo, ← md5StepsTo_e blk r 64]
    rfl

/-- A group of four steps: each register is the new one of one classical step, and the roles are back where they were. -/
theorem classicalStep_four (blk : List Word) (r : Regs) (row0 row1 row2 row3 : Md5Row) {t : Nat} (ht : t % 4 = 0) :
    classicalStep blk (t + 3) (classicalStep blk (t + 2) (classicalStep blk (t + 1) (classicalStep blk t r row0) row1) row2) row3
      = md5Step blk (md5Step blk (md5Step blk (md5Step blk r row0) row1) row2) row3 := by
  have h1 : (t + 1) % 4 = 1 := by omega
  have h2 : (t + 2) % 4 = 2 := by omega
  have h3 : (t + 3) % 4 = 3 := by omega
  simp [classicalStep, md5Step, ht, h1, h2, h3]

theorem foldl_md5Step_eq_classicalSteps (blk : List Word) (r : Regs) (rows : List Md5Row) {t : Nat} (ht : t % 4 = 0)
    (hrows : rows.length % 4 = 0) : rows.foldl (md5Step blk) r = classicalSteps blk t r rows :=
  match rows, hrows with
  | [], _ => rfl
  | row0 :: row1 :: row2 :: row3 :: rows, hrows => by
    have hrest : rows.length % 4 = 0 := (Nat.add_mod_right rows.length 4).symm.trans hrows
    have hgroup := classicalStep_four blk r row0 row1 row2 row3 ht
    have htail := foldl_md5Step_eq_classicalSteps blk
      (md5Step blk (md5Step blk (md5Step blk (md5Step blk r row0) row1) row2) row3) rows (t := t + 4) (by omega) hrest
    rw [List.foldl_cons, List.foldl_cons, List.foldl_cons, List.foldl_cons, htail, ← hgroup]
    rfl

/-- Settles O26 (41_md5.md section 5). -/
theorem md5StepsMatchClassicalForm : Obligations.Md5StepsMatchClassicalForm := fun blk r rows hrows =>
  foldl_md5Step_eq_classicalSteps blk r rows (Nat.zero_mod 4) hrows

end Sys2Proof.Machine
end

section
/-! PROOFS. A digest in WB can be hashed again (41_md5.md section 7; 42_sha1.md section 6). -/

namespace Sys2Proof.Machine

open Sys2Proof.Claims

/-- WB denotes the packed words just written. -/
theorem wordArray_finish_putPacked {ws : List Word} (h : ws.length < 2 ^ 32) (bits : Nat) (s : State) :
    wordArray (finish (putPacked ws bits s)) = some ws := by
  rw [wordArray, finish_wb, putPacked_wb, finish_wlen, putPacked_wlen, BitVec.toNat_ofNat, Nat.mod_eq_of_lt h, readAll_bufOver]

/-- WB denotes the digest just written. -/
theorem wordArray_finish_putDigest {ws : List Word} (h : ws.length < 2 ^ 32) (bits : Nat) (s : State) :
    wordArray (finish (putDigest ws bits s)) = some ws := by
  rw [wordArray, finish_wb, putDigest_wb, finish_wlen, putDigest_wlen, BitVec.toNat_ofNat, Nat.mod_eq_of_lt h, readAll_bufOfList]

/-- Whole words have no stray bit. -/
theorem consistent_of_whole_words (ord : ByteOrder) {x : List Word} {bits : Nat} (h : 32 * x.length = bits) :
    consistent ord x bits = true :=
  consistent_iff.2 ⟨by omega, by omega, strayBits_of_zero_bytes (by omega) fun hne => absurd (by omega) hne⟩

/-- A core command at the state a core command left hashes the digest, which needs one block of room. -/
theorem coreCommand_again {ord : ByteOrder} {core : List Word → Nat → List Word} {n bits : Nat}
    (hsize : ∀ x len, (core x len).length = n) (hbits : 32 * n = bits) (hblock : padLength bits = 16) {s t : State}
    (h : coreCommand ord core bits s = .next t) : ∃ x u, wordArray s = some x ∧ coreCommand ord core bits t = .next u
      ∧ readAll u.wb n = some (core (core x s.bitlen.toNat) bits) := by
  obtain ⟨-, -, hroom, x, hx, rfl⟩ := coreCommand_next h
  have hshort : bits < 2 ^ 32 := by have := padLength_room bits; omega
  have hlen := hsize x s.bitlen.toNat
  have hdigest := wordArray_finish_putDigest (ws := core x s.bitlen.toNat) (by omega) bits s
  have hbitlen : (finish (putDigest (core x s.bitlen.toNat) bits s)).bitlen.toNat = bits := Nat.mod_eq_of_lt hshort
  have hreq : Requires (coreInstr ord) (finish (putDigest (core x s.bitlen.toNat) bits s)) := by
    refine requires_coreInstr_iff.2 ⟨⟨_, hdigest, ?_⟩, ?_⟩
    · rw [hbitlen]
      exact consistent_of_whole_words ord (hlen.symm ▸ hbits)
    · rw [hbitlen, hblock]
      exact withinCap_of_padLength (capFits_iff_withinCap.1 hroom) le_rfl
  obtain ⟨y, hy, hnext⟩ := coreCommand_of_requires core bits hreq
  obtain rfl := Option.some.inj (hdigest.symm.trans hy)
  refine ⟨x, _, hx, hnext, ?_⟩
  rw [hbitlen, ← hsize (core x s.bitlen.toNat) bits]
  exact readAll_bufOfList _

/-- Settles O33 (41_md5.md section 7; 42_sha1.md section 6). -/
theorem digestCanBeHashedAgain : Obligations.DigestCanBeHashedAgain := fun _ _ =>
  ⟨coreCommand_again length_md5Core rfl (by decide), coreCommand_again length_sha1Core rfl (by decide)⟩

end Sys2Proof.Machine
end

section
/-! PROOFS. HMAC-SHA1 (43_hmac_sha1.md sections 2 to 5): its phases on words, and that on characters below 256 they are the phases of
the construction on byte strings. -/

namespace Sys2Proof.Machine

open Sys2Proof.Claims

/-- Whole words before a consistent array leave its last word, and so its stray bits, where they were. -/
theorem consistent_append {ord : ByteOrder} (x : List Word) {y : List Word} {len : Nat} (h : consistent ord y len = true) :
    consistent ord (x ++ y) (32 * x.length + len) = true := by
  obtain ⟨hbyte, hlen, hstray⟩ := consistent_iff.1 h
  have hmod : (32 * x.length + len) % 32 = len % 32 := Nat.mul_add_mod 32 _ _
  refine consistent_iff.2 ⟨by omega, by rw [List.length_append]; omega, ?_⟩
  cases y with
  | nil =>
    obtain rfl : len = 0 := by simp at hlen; omega
    exact strayBits_of_zero_bytes (by omega) fun hne => absurd hmod hne
  | cons w y =>
    rw [List.getLastD_eq_getLast?, List.getLast?_append_of_ne_nil x (List.cons_ne_nil w y), ← List.getLastD_eq_getLast?]
    simpa only [strayBits, hmod] using hstray

theorem getD_hmacKey (key : List Word) (i : Nat) : (hmacKey key).getD i 0 = (hmacKeyWords key).getD i 0 :=
  getD_append_replicate 0 _ _ _

/-- A key of more than 64 characters packs to more than 16 words. -/
theorem long_key_iff (key : List Word) : 16 < (pack .be key).length ↔ 64 < key.length := by
  rw [length_pack, wordsFor]
  omega

theorem hmacKeyWords_of_short {key : List Word} (h : key.length ≤ 64) : hmacKeyWords key = pack .be key :=
  if_neg (by rw [long_key_iff]; omega)

theorem hmacKeyWords_of_long {key : List Word} (h : 64 < key.length) :
    hmacKeyWords key = sha1Core (pack .be key) (8 * key.length) :=
  if_pos ((long_key_iff key).2 h)

/-- Settles O34 (43_hmac_sha1.md sections 2 to 4), with the controller's BKEY as the key block. -/
theorem hmacFollowsTheRules : Obligations.HmacFollowsTheRules := fun key data => by
  refine ⟨hmacKey key, length_hmacKey key, fun hshort i _ => ?_, fun hlong i _ => ?_, long_key_iff key,
    fun _ => consistent_pack .be key, rfl, ?_, by decide⟩
  · rw [getD_hmacKey, hmacKeyWords_of_short hshort]
  · rw [getD_hmacKey, hmacKeyWords_of_long hlong]
  · have hinner := consistent_append (hmacIpad key) (consistent_pack .be data)
    rwa [length_hmacIpad] at hinner

theorem unpack_append (ord : ByteOrder) (x y : List Word) : unpack ord (x ++ y) = unpack ord x ++ unpack ord y :=
  List.flatMap_append

theorem unpack_replicate_zero (ord : ByteOrder) (n : Nat) : unpack ord (List.replicate n 0) = List.replicate (4 * n) 0 := by
  induction n with
  | zero => rfl
  | succ n ih =>
    rw [List.replicate_succ, unpack_cons, ih, Nat.mul_succ, Nat.add_comm, ← List.replicate_append_replicate]
    simp [wordBytes]

/-- XOR with a repeated byte is XOR with the byte in every place of the stream. -/
theorem unpack_map_xor (ord : ByteOrder) {mask : Word} {b : Byte} (hmask : ∀ k, k < 4 → byteAt ord mask k = b) (x : List Word) :
    unpack ord (x.map (fun w => w ^^^ mask)) = (unpack ord x).map (fun c => c ^^^ b) := by
  have hbyte : ∀ w k, k < 4 → byteAt ord (w ^^^ mask) k = byteAt ord w k ^^^ b := fun w k hk => by
    rw [← hmask k hk, byteAt, BitVec.ushiftRight_xor_distrib, BitVec.setWidth_xor, byteAt, byteAt]
  induction x with
  | nil => rfl
  | cons w x ih => simp [unpack_cons, ih, wordBytes, hbyte]

/-- A byte string packed, its bytes as characters. -/
def packBytes (bs : List Byte) : List Word := pack .be (bs.map (fun b => b.setWidth 32))

theorem unpack_packBytes {bs : List Byte} (h : bs.length % 4 = 0) : unpack .be (packBytes bs) = bs := unpack_pack_bytes .be h

theorem packBytes_unpack (x : List Word) : packBytes (unpack .be x) = x := pack_unpack .be x

/-- Whole words are packed apart from what follows them. -/
theorem packBytes_append {as : List Byte} (h : as.length % 4 = 0) (bs : List Byte) :
    packBytes (as ++ bs) = packBytes as ++ packBytes bs := by
  have hzeros : (as ++ bs).length % 4 = bs.length % 4 := by rw [List.length_append]; omega
  refine unpack_injective (ord := .be) ?_
  rw [unpack_append, unpack_packBytes h, packBytes, packBytes, unpack_pack, unpack_pack, map_charByte_setWidth,
    map_charByte_setWidth, List.length_map, List.length_map, hzeros, List.append_assoc]

theorem packBytes_map_xor {mask : Word} {b : Byte} (hmask : ∀ k, k < 4 → byteAt .be mask k = b) {bs : List Byte}
    (h : bs.length % 4 = 0) : packBytes (bs.map (fun c => c ^^^ b)) = (packBytes bs).map (fun w => w ^^^ mask) := by
  refine unpack_injective (ord := .be) ?_
  rw [unpack_map_xor .be hmask, unpack_packBytes h, unpack_packBytes (by rwa [List.length_map])]

theorem sha1OfBytes_eq (m : List Byte) : sha1OfBytes m = unpack .be (sha1Core (packBytes m) (8 * m.length)) := rfl

@[simp] theorem length_sha1OfBytes (m : List Byte) : (sha1OfBytes m).length = 20 := by
  rw [sha1OfBytes_eq, length_unpack, length_sha1Core]

/-- The key of the byte construction, hashed when it has more than 64 bytes (R178). -/
def keyBytes (key : List Byte) : List Byte := if key.length ≤ 64 then key else sha1OfBytes key

/-- The key block of the byte construction: the key filled up with zero bytes to 64 (R178). -/
def keyBlock (key : List Byte) : List Byte := keyBytes key ++ List.replicate (64 - (keyBytes key).length) 0

theorem length_keyBytes_le (key : List Byte) : (keyBytes key).length ≤ 64 := by
  unfold keyBytes
  split
  · assumption
  · simp

theorem length_keyBlock (key : List Byte) : (keyBlock key).length = 64 := by
  have := length_keyBytes_le key
  rw [keyBlock, List.length_append, List.length_replicate]
  omega

/-- The key words are the key's bytes, filled up with zeros to whole words. -/
theorem unpack_hmacKeyWords (key : List Byte) : unpack .be (hmacKeyWords (key.map (fun b => b.setWidth 32))) =
    keyBytes key ++ List.replicate ((4 - (keyBytes key).length % 4) % 4) 0 := by
  by_cases hshort : key.length ≤ 64
  · rw [hmacKeyWords_of_short (by rwa [List.length_map]), unpack_pack, map_charByte_setWidth, List.length_map, keyBytes,
      if_pos hshort]
  · rw [hmacKeyWords_of_long (by rw [List.length_map]; omega), List.length_map, keyBytes, if_neg hshort, length_sha1OfBytes]
    exact (List.append_nil _).symm

/-- BKEY is the key block packed: both are the key's bytes with zeros above. -/
theorem hmacKey_eq_packBytes (key : List Byte) : hmacKey (key.map (fun b => b.setWidth 32)) = packBytes (keyBlock key) := by
  have hkey := unpack_hmacKeyWords key
  have hle := length_keyBytes_le key
  have hcount := congrArg List.length hkey
  rw [length_unpack, List.length_append, List.length_replicate] at hcount
  refine unpack_injective (ord := .be) ?_
  rw [unpack_packBytes (by rw [length_keyBlock]), hmacKey, unpack_append, unpack_replicate_zero, hkey, List.append_assoc,
    List.replicate_append_replicate, keyBlock]
  congr 2
  omega

theorem hmacOfBytes_eq (key data : List Byte) : hmacOfBytes key data =
    sha1OfBytes ((keyBlock key).map (fun b => b ^^^ 0x5C)
      ++ sha1OfBytes ((keyBlock key).map (fun b => b ^^^ 0x36) ++ data)) := rfl

/-- Hashing a pad of the key block and a tail is hashing the pad's words and the packed tail. -/
theorem sha1OfBytes_pad (key : List Byte) {mask : Word} {b : Byte} (hmask : ∀ k, k < 4 → byteAt .be mask k = b)
    (tail : List Byte) : sha1OfBytes ((keyBlock key).map (fun c => c ^^^ b) ++ tail) =
      unpack .be (sha1Core (hmacPad mask (key.map (fun c => c.setWidth 32)) ++ packBytes tail) (512 + 8 * tail.length)) := by
  have hlen := length_keyBlock key
  have hpad := packBytes_map_xor hmask (bs := keyBlock key) (by rw [hlen])
  rw [sha1OfBytes_eq, packBytes_append (by rw [List.length_map, hlen]), hpad, List.length_append, List.length_map, hlen, hmacPad,
    hmacKey_eq_packBytes, Nat.mul_add]

theorem byteAt_ipad_mask (k : Nat) (hk : k < 4) : byteAt .be 0x36363636 k = 0x36 := by
  interval_cases k <;> rfl

theorem byteAt_opad_mask (k : Nat) (hk : k < 4) : byteAt .be 0x5C5C5C5C k = 0x5C := by
  interval_cases k <;> rfl

/-- Settles O36 (43_hmac_sha1.md section 5): the inner and the outer hash of the two constructions agree in turn. -/
theorem hmacIsTheByteConstruction : Obligations.HmacIsTheByteConstruction := fun key data => by
  rw [hmacOfBytes_eq, sha1OfBytes_pad key byteAt_ipad_mask, sha1OfBytes_pad key byteAt_opad_mask, packBytes_unpack, length_unpack,
    length_sha1Core, hmacSha1, hmacOpad, hmacInner, hmacIpad, List.length_map]
  rfl

end Sys2Proof.Machine
end

section
/-! PROOFS. The entry points (44_entry_points.md sections 2 to 4; 30_encoding.md section 2): the first commands leave a
digest in WB and the last one renders it. -/

namespace Sys2Proof.Machine

open Sys2Proof.Claims

theorem execAll_cons {i : Instr} {s t : State} (h : exec i s = .next t) (is : List Instr) : execAll (i :: is) s = execAll is t := by
  simp only [execAll, h]

theorem entryFrame_trans {s t u : State} (h : EntryFrame s t) (h' : EntryFrame t u) : EntryFrame s u := by
  obtain ⟨⟨hx, hy⟩, hr, ⟨hm, hk, hmlen, hklen⟩, ⟨hcfg, hpending, hreads, hfault⟩, -⟩ := h
  obtain ⟨⟨hx', hy'⟩, hr', ⟨hm', hk', hmlen', hklen'⟩, ⟨hcfg', hpending', hreads', hfault'⟩, hrest⟩ := h'
  exact ⟨⟨hx'.trans hx, hy'.trans hy⟩, hr'.trans hr, ⟨hm'.trans hm, hk'.trans hk, hmlen'.trans hmlen, hklen'.trans hklen⟩,
    ⟨hcfg'.trans hcfg, hpending'.trans hpending, hreads'.trans hreads, hfault'.trans hfault⟩, hrest⟩

theorem entryFrame_putPacked (ws : List Word) (n : Nat) (s : State) : EntryFrame s (finish (putPacked ws n s)) := by
  obtain ⟨hscalars, hresult, htexts, -, hhost, hrest⟩ := finish_putPacked_frame s ws n
  exact ⟨hscalars, hresult, htexts, hhost, hrest⟩

theorem entryFrame_putDigest (ws : List Word) (n : Nat) (s : State) : EntryFrame s (finish (putDigest ws n s)) := by
  obtain ⟨hscalars, hresult, htexts, -, hhost, hrest⟩ := finish_putDigest_frame s ws n
  exact ⟨hscalars, hresult, htexts, hhost, hrest⟩

/-- `digest`, of `k` words, stands in WB of `u`, where it fits; O and what no entry point changes are as in `s`. -/
structure HoldsDigest (digest : List Word) (k : Nat) (s u : State) : Prop where
  count : digest.length = k
  left : DigestLeft digest (32 * k) u
  room : WithinCap k s.cfg.wcap
  output : SameOutput s u
  frame : EntryFrame s u

theorem holdsDigest_putDigest {digest : List Word} {k : Nat} (hcount : digest.length = k) (hshort : 32 * k < 2 ^ 32) {s : State}
    (hroom : WithinCap k s.cfg.wcap) : HoldsDigest digest k s (finish (putDigest digest (32 * k) s)) where
  count := hcount
  left := ⟨by rw [hcount], readAll_bufOfList digest, noneFrom_bufOfList digest, Nat.mod_eq_of_lt (by omega),
    Nat.mod_eq_of_lt hshort⟩
  room := hroom
  output := ⟨rfl, rfl⟩
  frame := entryFrame_putDigest digest _ s

/-- The commands `is` run from `s` to a state that holds `digest`, of `k` words. -/
def LeavesDigest (is : List Instr) (digest : List Word) (k : Nat) (s : State) : Prop :=
  ∃ u, (∀ js, execAll (is ++ js) s = execAll js u) ∧ HoldsDigest digest k s u

/-- Command `i` renders the word array by `f`, to `size n` bytes for `n` words. -/
structure Renders (i : Instr) (f : List Word → List Byte) (size : Nat → Nat) : Prop where
  exec_eq : exec i = renderCommand f size
  length_eq : ∀ x, (f x).length = size x.length

theorem renders_unpackle : Renders .unpackle (unpack .le) unpackSize := ⟨rfl, length_unpack .le⟩

theorem renders_unpackbe : Renders .unpackbe (unpack .be) unpackSize := ⟨rfl, length_unpack .be⟩

theorem renders_hexle : Renders .hexle (hex .le) hexSize := ⟨rfl, length_hex .le⟩

theorem renders_hexbe : Renders .hexbe (hex .be) hexSize := ⟨rfl, length_hex .be⟩

theorem renders_b64be : Renders .b64be b64be b64Size := ⟨rfl, length_b64be⟩

section
variable {i : Instr} {f : List Word → List Byte} {size : Nat → Nat} (hi : Renders i f size)
  {digest : List Word} {k : Nat} {s : State}
include hi

/-- What the last command of an entry point leaves, rendering the digest in WB. -/
theorem Renders.exec_of_holdsDigest {u : State} (hu : HoldsDigest digest k s u) (hshort : size k < 2 ^ 32)
    (hroom : WithinCap (size k) s.cfg.ocap) : ∃ t, exec i u = .next t
    ∧ TextLeft (f digest) (size k) s t ∧ DigestLeft digest (32 * k) t ∧ EntryFrame s t := by
  obtain ⟨hbits, hread, hnone, hwlen, hbitlen⟩ := hu.left
  obtain ⟨-, -, -, ⟨hcfg, -, -, -⟩, -⟩ := hu.frame
  obtain ⟨ho, -⟩ := hu.output
  have hwlen' : u.wlen.toNat = k := hwlen.trans hu.count
  have hreq : WithinCap u.wlen.toNat u.cfg.wcap ∧ HeldUpTo u.wb u.wlen.toNat ∧ WithinCap (size u.wlen.toNat) u.cfg.ocap :=
    ⟨by rw [hwlen', hcfg]; exact hu.room, by rw [hwlen]; exact heldUpTo_iff.2 ⟨_, hread⟩, by rwa [hwlen', hcfg]⟩
  obtain ⟨t, x, hnext, hx, -, -, htext⟩ := renderCommand_result hi.length_eq hreq
  obtain rfl : digest = x := by
    rw [wordArray, hwlen, hread] at hx
    exact Option.some.inj hx
  obtain ⟨hread', habove, holen, hscalars, hresult, htexts, ⟨hwb, hwlenKept, hbitlenKept, -⟩, hhost, hrest⟩ := htext
  have hlen : (f digest).length = size k := by rw [hi.length_eq, hu.count]
  rw [hlen] at hread' habove holen
  refine ⟨t, by rw [hi.exec_eq, hnext], ⟨hlen, hread', holen hshort, ho ▸ habove⟩, ?_,
    entryFrame_trans hu.frame ⟨hscalars, hresult, htexts, hhost, hrest⟩⟩
  exact ⟨hbits, by rw [hwb, hread], hwb ▸ hnone, by rw [hwlenKept, hwlen], by rw [hbitlenKept, hbitlen]⟩

/-- An entry point whose first commands leave a digest, and whose last one renders it. -/
theorem Renders.runEntry_of_leavesDigest {e : EntryPoint} {is : List Instr} (hexpand : expand e = is ++ [i])
    (hleaves : LeavesDigest is digest k s) (hshort : size k < 2 ^ 32) (hroom : WithinCap (size k) s.cfg.ocap) :
    ∃ t, runEntry e s = .next t
      ∧ TextLeft (f digest) (size k) s t ∧ DigestLeft digest (32 * k) t ∧ EntryFrame s t := by
  obtain ⟨u, hrun, hu⟩ := hleaves
  obtain ⟨t, hnext, hleft⟩ := hi.exec_of_holdsDigest hu hshort hroom
  refine ⟨t, ?_, hleft⟩
  rw [runEntry, hexpand, hrun, execAll_cons hnext]
  rfl

end

/-- The pack command and the core command of an order leave the digest of the text. -/
theorem leavesDigest_pack_core {ord : ByteOrder} {core : List Word → Nat → List Word} {k : Nat}
    (hexec : ∀ u, exec (coreInstr ord) u = coreCommand ord core (32 * k) u) (hsize : ∀ x len, (core x len).length = k)
    (hk : k ≤ 16) {s : State} {text : List Word} (htext : textM s = some text) (hreq : Requires (packInstr ord) s)
    (hroom : WithinCap (padLength (8 * s.mlen.toNat)) s.cfg.wcap) :
    LeavesDigest [packInstr ord, coreInstr ord] (core (pack ord text) (8 * s.mlen.toNat)) k s := by
  obtain ⟨cs, hcs, hpack⟩ := packCommand_of_requires hreq
  obtain rfl := Option.some.inj (htext.symm.trans hcs)
  obtain ⟨-, -, hshort⟩ := packFits_iff.1 (requires_packInstr_iff.1 hreq).1
  obtain ⟨hlen, -⟩ := readAll_eq_some.1 htext
  have hwords : wordArray (finish (putPacked (pack ord text) (8 * s.mlen.toNat) s)) = some (pack ord text) :=
    wordArray_finish_putPacked (by rw [length_pack, wordsFor]; omega) _ s
  have hbitlen : (finish (putPacked (pack ord text) (8 * s.mlen.toNat) s)).bitlen.toNat = 8 * s.mlen.toNat :=
    Nat.mod_eq_of_lt hshort
  have hcoreReq : Requires (coreInstr ord) (finish (putPacked (pack ord text) (8 * s.mlen.toNat) s)) := by
    refine requires_coreInstr_iff.2 ⟨⟨_, hwords, ?_⟩, ?_⟩
    · rw [hbitlen, ← hlen]
      exact consistent_pack ord text
    · rw [hbitlen]
      exact hroom
  obtain ⟨x, hx, hcore⟩ := coreCommand_of_requires core (32 * k) hcoreReq
  obtain rfl := Option.some.inj (hwords.symm.trans hx)
  rw [hbitlen, ← hexec] at hcore
  have hheld := holdsDigest_putDigest (hsize (pack ord text) (8 * s.mlen.toNat)) (by omega)
    (s := finish (putPacked (pack ord text) (8 * s.mlen.toNat) s)) (withinCap_of_padLength hroom hk)
  refine ⟨_, fun js => ?_, hheld.count, hheld.left, hheld.room, hheld.output,
    entryFrame_trans (entryFrame_putPacked _ _ s) hheld.frame⟩
  rw [List.cons_append, execAll_cons ((exec_packInstr ord s).trans hpack), List.cons_append, execAll_cons hcore]
  rfl

/-- HMACSHA1 leaves the HMAC of the key and the data. -/
theorem leavesDigest_hmac {s : State} {key data : List Word} (hkey : textK s = some key) (hdata : textM s = some data)
    (hreq : Requires .hmacsha1 s) : LeavesDigest [.hmacsha1] (hmacSha1 key data) 5 s := by
  obtain ⟨key', data', hkey', hdata', hnext⟩ := execHmacsha1_of_requires hreq
  obtain rfl := Option.some.inj (hkey.symm.trans hkey')
  obtain rfl := Option.some.inj (hdata.symm.trans hdata')
  obtain ⟨-, hfits⟩ := Bool.and_eq_true_iff.1 (requires_hmacsha1_iff.1 hreq).1
  obtain ⟨-, -, hroom⟩ := hmacDataFits_iff.1 hfits
  exact ⟨_, execAll_cons hnext,
    holdsDigest_putDigest (length_hmacSha1 key data) (by decide) (withinCap_of_padLength hroom (by decide))⟩

/-- Settles O37 (44_entry_points.md section 2). -/
theorem md5EntryPoints : Obligations.Md5EntryPoints := fun s text htext hreq hroom => by
  have hleaves := leavesDigest_pack_core (ord := .le) (k := 4) exec_md5core length_md5Core (by decide) htext hreq hroom
  exact ⟨renders_hexle.runEntry_of_leavesDigest rfl hleaves (by decide),
    renders_unpackle.runEntry_of_leavesDigest rfl hleaves (by decide)⟩

/-- The 20 bytes of five words leave the last group one byte short, so its last symbol is `=`. -/
theorem getElem?_b64be_last {x : List Word} (hx : x.length = 5) : (b64be x)[27]? = some 0x3D := by
  have hlen : (b64be x).length = 28 := by rw [length_b64be, hx]; rfl
  have hsymbol := getD_b64 (unpack .be x) (g := 6) (p := 3) (by rw [length_unpack, hx]; decide) (by decide)
  rw [length_unpack, hx] at hsymbol
  rw [List.getElem?_eq_getElem (by rw [hlen]; decide), ← List.getD_eq_getElem _ 0]
  exact congrArg some (BitVec.eq_of_toNat_eq hsymbol)

/-- Settles O38 (44_entry_points.md section 3). -/
theorem sha1EntryPoints : Obligations.Sha1EntryPoints := fun s text htext hreq hroom => by
  have hleaves := leavesDigest_pack_core (ord := .be) (k := 5) exec_sha1core length_sha1Core (by decide) htext hreq hroom
  refine ⟨renders_hexbe.runEntry_of_leavesDigest rfl hleaves (by decide), fun hout => ?_,
    renders_unpackbe.runEntry_of_leavesDigest rfl hleaves (by decide)⟩
  obtain ⟨t, hnext, ⟨hcount, hread, habove⟩, hdigest⟩ :=
    renders_b64be.runEntry_of_leavesDigest (e := .sha1B64) rfl hleaves (by decide) hout
  have hlast := (readAll_eq_some.1 hread).2 27 (by decide)
  exact ⟨t, hnext, ⟨hcount, hread, habove⟩, hlast.trans (getElem?_b64be_last (length_sha1Core _ _)), hdigest⟩

/-- Settles O39 (44_entry_points.md section 4). -/
theorem hmacEntryPoints : Obligations.HmacEntryPoints := fun s key data hkey hdata hreq => by
  have hleaves := leavesDigest_hmac hkey hdata hreq
  exact ⟨renders_hexbe.runEntry_of_leavesDigest rfl hleaves (by decide),
    renders_b64be.runEntry_of_leavesDigest rfl hleaves (by decide),
    renders_unpackbe.runEntry_of_leavesDigest rfl hleaves (by decide)⟩

end Sys2Proof.Machine
end

section
/-! PROOFS. The sequencer (10_state.md section 4; 41_md5.md section 1; 42_sha1.md section 1): what it holds before each step of each
block, whatever was left in the internal registers. -/

namespace Sys2Proof.Machine

open Sys2Proof.Claims

/-- The registers of a unit after steps 0 to `t - 1` on a block. -/
def unitStepsTo (u : HashUnit) (blk : List Word) (r : Regs) (t : Nat) : Regs :=
  match u with
  | .md5 => md5StepsTo blk r t
  | .sha1 => sha1StepsTo (sha1Schedule blk) r t

/-- The registers of a unit after blocks 0 to `b - 1` of a padded stream. -/
def unitBlocks (u : HashUnit) (p : List Word) (b : Nat) (r : Regs) : Regs :=
  match u with
  | .md5 => md5Blocks p b r
  | .sha1 => sha1Blocks p b r

@[simp] theorem unitStepsTo_zero (u : HashUnit) (blk : List Word) (r : Regs) : unitStepsTo u blk r 0 = r := by
  cases u <;> rfl

@[simp] theorem unitBlocks_zero (u : HashUnit) (p : List Word) (r : Regs) : unitBlocks u p 0 r = r := by
  cases u <;> rfl

theorem unitSteps_pos (u : HashUnit) : 0 < unitSteps u := by cases u <;> decide

theorem unitSteps_le (u : HashUnit) : unitSteps u ≤ 80 := by cases u <;> decide

theorem getD_md5Table {t : Nat} (ht : t < 64) : md5Table.getD t md5NoRow = md5RowAt t := by
  rw [md5Table_eq_map_md5RowAt]
  simp [ht]

theorem getD_unitSchedule_sha1 (blk : List Word) (w : Vector Word 80) {j : Nat} (hj : j < 80) :
    (unitSchedule .sha1 blk w).toList.getD j 0 = (sha1Schedule blk).getD j 0 := by
  simp [unitSchedule, hj]

/-- One step of a unit with the schedule of the block in W. -/
theorem unitStep_unitStepsTo {u : HashUnit} {t : Nat} (ht : t < unitSteps u) (blk : List Word) (w : Vector Word 80) (r : Regs) :
    unitStep u blk (unitSchedule u blk w) t (unitStepsTo u blk r t) = unitStepsTo u blk r (t + 1) := by
  cases u with
  | md5 => simp only [unitStep, unitStepsTo, getD_md5Table ht, md5StepsTo_succ]
  | sha1 => simp only [unitStep, unitStepsTo, getD_unitSchedule_sha1 blk w ht, sha1StepsTo_succ]

/-- The feed-forward after the last step of block `b` gives the registers after it. -/
theorem unitFeed_unitStepsTo (u : HashUnit) (p : List Word) (b : Nat) (r latch : Regs) :
    unitFeed u (unitLatch u (unitBlocks u p b r) latch) (unitStepsTo u (blockOf p b) (unitBlocks u p b r) (unitSteps u))
      = unitBlocks u p (b + 1) r := by
  cases u with
  | md5 => simp only [unitBlocks, md5Blocks_succ, md5Block_eq_md5StepsTo]; rfl
  | sha1 => simp only [unitBlocks, sha1Blocks_succ]; rfl

/-- The sequencer is before step `t` of block `b` of the stream `p`, the registers having started from `r`. From step 1 on the latches
hold the registers before the block and W its schedule. -/
structure Compressing (u : HashUnit) (p : List Word) (r : Regs) (b t : Nat) (q : Seq) : Prop where
  phase : q.phase = .compress
  wb : q.wb = p
  blk : q.int.blk = b
  step : q.int.step.toNat = t
  digest : q.int.digest = unitStepsTo u (blockOf p b) (unitBlocks u p b r) t
  opened : t ≠ 0 → (∃ latch, q.int.latch = unitLatch u (unitBlocks u p b r) latch)
    ∧ ∃ w, q.int.w = unitSchedule u (blockOf p b) w

section
variable {u : HashUnit} {p : List Word} {r : Regs} {b t : Nat} {q : Seq}

/-- After the opening of step 0 the latches and W are the block's at every step, and the rest is as before. -/
theorem Compressing.openBlock (h : Compressing u p r b t q) :
    (∃ latch, (seqOpenBlock u (blockOf p b) q.int).latch = unitLatch u (unitBlocks u p b r) latch)
      ∧ (∃ w, (seqOpenBlock u (blockOf p b) q.int).w = unitSchedule u (blockOf p b) w)
      ∧ (seqOpenBlock u (blockOf p b) q.int).digest = q.int.digest
      ∧ (seqOpenBlock u (blockOf p b) q.int).blk = q.int.blk
      ∧ (seqOpenBlock u (blockOf p b) q.int).step = q.int.step := by
  unfold seqOpenBlock
  split
  case isTrue hstep =>
    have ht : t = 0 := h.step.symm.trans (congrArg BitVec.toNat hstep)
    have hdigest := h.digest
    rw [ht, unitStepsTo_zero] at hdigest
    exact ⟨⟨_, by rw [hdigest]⟩, ⟨_, rfl⟩, rfl, rfl, rfl⟩
  case isFalse hstep =>
    have ht : t ≠ 0 := fun ht => hstep (BitVec.eq_of_toNat_eq (h.step.trans ht))
    obtain ⟨hlatch, hw⟩ := h.opened ht
    exact ⟨hlatch, hw, rfl, rfl, rfl⟩

/-- A step that is not a block's last one. -/
theorem Compressing.seqCompress_step (h : Compressing u p r b t q) (ht : t + 1 < unitSteps u) :
    (seqCompress u (blockOf p b) q.int).blk = b ∧ (seqCompress u (blockOf p b) q.int).step.toNat = t + 1
      ∧ (seqCompress u (blockOf p b) q.int).digest = unitStepsTo u (blockOf p b) (unitBlocks u p b r) (t + 1)
      ∧ (∃ latch, (seqCompress u (blockOf p b) q.int).latch = unitLatch u (unitBlocks u p b r) latch)
      ∧ ∃ w, (seqCompress u (blockOf p b) q.int).w = unitSchedule u (blockOf p b) w := by
  obtain ⟨hlatch, ⟨w, hw⟩, hdigest, hblk, hstep⟩ := h.openBlock
  have hle := unitSteps_le u
  have hregs := unitStep_unitStepsTo (u := u) (t := t) (by omega) (blockOf p b) w (unitBlocks u p b r)
  rw [seqCompress, seqCloseStep, if_neg (by rw [hstep, h.step]; omega)]
  refine ⟨hblk.trans h.blk, ?_, ?_, hlatch, w, hw⟩
  · simp only [hstep, BitVec.toNat_add, h.step]
    exact Nat.mod_eq_of_lt (show t + 1 < 128 by omega)
  · rw [hw, h.step, hdigest, h.digest]
    exact hregs

/-- A block's last step. -/
theorem Compressing.seqCompress_last (h : Compressing u p r b t q) (ht : t + 1 = unitSteps u) :
    (seqCompress u (blockOf p b) q.int).blk = b + 1 ∧ (seqCompress u (blockOf p b) q.int).step.toNat = 0
      ∧ (seqCompress u (blockOf p b) q.int).digest = unitBlocks u p (b + 1) r := by
  obtain ⟨⟨latch, hlatch⟩, ⟨w, hw⟩, hdigest, hblk, hstep⟩ := h.openBlock
  have hregs := unitStep_unitStepsTo (u := u) (t := t) (by omega) (blockOf p b) w (unitBlocks u p b r)
  rw [seqCompress, seqCloseStep, if_pos (by rw [hstep, h.step, ht])]
  refine ⟨by rw [hblk, h.blk], rfl, ?_⟩
  rw [hw, hlatch, hdigest, h.digest, h.step, hregs, ht]
  exact unitFeed_unitStepsTo u p b r latch

variable {len : Nat}

/-- One tick of COMPRESS. -/
theorem Compressing.seqTick_eq (h : Compressing u p r b t q) : seqTick u len q =
    { q with
      phase := if (seqCompress u (blockOf p b) q.int).blk = blockCount len then .extract else .compress
      int := seqCompress u (blockOf p b) q.int } := by
  rw [seqTick, h.phase, h.wb, h.blk]

/-- The tick of a step that is not a block's last one. -/
theorem Compressing.tick_step (h : Compressing u p r b t q) (hb : b < blockCount len) (ht : t + 1 < unitSteps u) :
    Compressing u p r b (t + 1) (seqTick u len q) := by
  obtain ⟨hblk, hstep, hdigest, hlatch, hw⟩ := h.seqCompress_step ht
  rw [h.seqTick_eq]
  exact ⟨if_neg (by omega), h.wb, hblk, hstep, hdigest, fun _ => ⟨hlatch, hw⟩⟩

/-- The tick of the last step of a block that is not the last one. -/
theorem Compressing.tick_block (h : Compressing u p r b t q) (hb : b + 1 < blockCount len) (ht : t + 1 = unitSteps u) :
    Compressing u p r (b + 1) 0 (seqTick u len q) := by
  obtain ⟨hblk, hstep, hdigest⟩ := h.seqCompress_last ht
  rw [h.seqTick_eq]
  exact ⟨if_neg (by omega), h.wb, hblk, hstep, by rw [unitStepsTo_zero]; exact hdigest, fun hne => absurd rfl hne⟩

/-- The tick of the last step of all. -/
theorem Compressing.tick_last (h : Compressing u p r b t q) (hb : b + 1 = blockCount len) (ht : t + 1 = unitSteps u) :
    (seqTick u len q).phase = .extract ∧ (seqTick u len q).int.digest = unitBlocks u p (blockCount len) r := by
  obtain ⟨hblk, -, hdigest⟩ := h.seqCompress_last ht
  rw [h.seqTick_eq, ← hb]
  exact ⟨if_pos (by rw [hblk]), hdigest⟩

end

theorem seqRun_succ (u : HashUnit) (len n : Nat) (q : Seq) : seqRun u len (n + 1) q = seqTick u len (seqRun u len n q) := by
  induction n generalizing q with
  | zero => rfl
  | succ n ih => exact ih (seqTick u len q)

section
variable (u : HashUnit) (int : Internals) (x : List Word) (len : Nat)

/-- The sequencer before step `t` of block `b`, from any leftover state. -/
theorem compressing_seqRun {b t : Nat} (hb : b < blockCount len) (ht : t < unitSteps u) :
    Compressing u (padStream (unitOrder u) x len) (unitInit u int.digest) b t
      (seqRun u len (2 + unitSteps u * b + t) (seqStart int x)) := by
  induction b generalizing t with
  | zero =>
    induction t with
    | zero => exact ⟨rfl, rfl, rfl, rfl, by rw [unitStepsTo_zero, unitBlocks_zero]; rfl, fun hne => absurd rfl hne⟩
    | succ t ih =>
      rw [← Nat.add_assoc, seqRun_succ]
      exact (ih (by omega)).tick_step hb ht
  | succ b ihb =>
    induction t with
    | zero =>
      have hpos := unitSteps_pos u
      have hlast := (ihb (by omega) (t := unitSteps u - 1) (by omega)).tick_block hb (by omega)
      rw [← seqRun_succ] at hlast
      have hticks : 2 + unitSteps u * b + (unitSteps u - 1) + 1 = 2 + unitSteps u * (b + 1) + 0 := by
        rw [Nat.mul_succ]; omega
      rwa [hticks] at hlast
    | succ t iht =>
      rw [← Nat.add_assoc, seqRun_succ]
      exact (iht (by omega)).tick_step hb ht

/-- After every step of every block the sequencer extracts. -/
theorem seqRun_extract : (seqRun u len (2 + unitSteps u * blockCount len) (seqStart int x)).phase = .extract
    ∧ (seqRun u len (2 + unitSteps u * blockCount len) (seqStart int x)).int.digest
      = unitBlocks u (padStream (unitOrder u) x len) (blockCount len) (unitInit u int.digest) := by
  have hpos := unitSteps_pos u
  obtain ⟨b, hb⟩ : ∃ b, b + 1 = blockCount len := ⟨_, rfl⟩
  have hlast := (compressing_seqRun u int x len (b := b) (t := unitSteps u - 1) (by omega) (by omega)).tick_last hb (by omega)
  have hticks : 2 + unitSteps u * b + (unitSteps u - 1) + 1 = 2 + unitSteps u * blockCount len := by
    rw [← hb, Nat.mul_succ]; omega
  rwa [← seqRun_succ, hticks] at hlast

end

/-- The registers with another E. -/
def withE (v : Word) (r : Regs) : Regs := { r with e := v }

/-- No MD5 register but E depends on E (10_state.md R24). -/
theorem md5Block_withE (blk : List Word) (v : Word) (r : Regs) : md5Block blk (withE v r) = withE v (md5Block blk r) := by
  have hsteps : md5Table.foldl (md5Step blk) (withE v r) = withE v (md5Table.foldl (md5Step blk) r) :=
    List.foldl_hom (withE v) fun _ _ => rfl
  rw [md5Block, hsteps]
  rfl

theorem md5Blocks_withE (p : List Word) (n : Nat) (v : Word) (r : Regs) :
    md5Blocks p n (withE v r) = withE v (md5Blocks p n r) :=
  List.foldl_hom (withE v) fun r blk => md5Block_withE (blockOf p blk) v r

/-- The digest is the core's, whatever was left in the registers. -/
theorem unitExtract_unitBlocks (u : HashUnit) (x : List Word) (len : Nat) (r : Regs) :
    unitExtract u (unitBlocks u (padStream (unitOrder u) x len) (blockCount len) (unitInit u r)) = unitCore u x len := by
  cases u with
  | md5 =>
    have hblocks := md5Blocks_withE (padStream .le x len) (blockCount len) r.e (md5Init Regs.zero)
    exact (congrArg md5Extract hblocks).trans rfl
  | sha1 => rfl

theorem seqWhole_eq (u : HashUnit) (int : Internals) (x : List Word) (len : Nat) : seqWhole u int x len =
    seqTick u len (seqRun u len (2 + unitSteps u * blockCount len) (seqStart int x)) := seqRun_succ _ _ _ _

/-- A whole run ends idle, with the core's words in WB. -/
theorem seqWhole_result (u : HashUnit) (int : Internals) (x : List Word) (len : Nat) :
    (seqWhole u int x len).phase = .idle ∧ (seqWhole u int x len).wb = unitCore u x len := by
  obtain ⟨hphase, hdigest⟩ := seqRun_extract u int x len
  rw [seqWhole_eq, seqTick, hphase, ← unitExtract_unitBlocks u x len int.digest, ← hdigest]
  exact ⟨rfl, rfl⟩

/-- Settles O55 (10_state.md section 4). The ticks are INIT, PAD, the steps of COMPRESS by block and step, and EXTRACT. -/
theorem sequencerComputesTheCores : Obligations.SequencerComputesTheCores := by
  intro u int x len
  obtain ⟨hphase, hwb⟩ := seqWhole_result u int x len
  refine ⟨hphase, hwb, fun n hn => ?_⟩
  rcases Nat.lt_or_ge n 2 with hstart | hsteps
  · interval_cases n <;> exact ⟨nofun, nofun⟩
  · obtain ⟨j, rfl⟩ := Nat.exists_eq_add_of_le hsteps
    have hj : j ≤ unitSteps u * blockCount len := by simp only [seqTicks] at hn; omega
    rcases hj.lt_or_eq with hj | rfl
    · have hb : j / unitSteps u < blockCount len := Nat.div_lt_of_lt_mul hj
      have ht : j % unitSteps u < unitSteps u := Nat.mod_lt _ (unitSteps_pos u)
      have hseq := compressing_seqRun u int x len hb ht
      rw [Nat.add_assoc, Nat.div_add_mod] at hseq
      exact ⟨by rw [hseq.phase]; nofun, fun _ => ⟨by rwa [hseq.step], by rwa [hseq.blk]⟩⟩
    · obtain ⟨hextract, -⟩ := seqRun_extract u int x len
      rw [hextract]
      exact ⟨nofun, nofun⟩

end Sys2Proof.Machine
end

section
/-! PROOFS. The HMAC controller over the sequencer (43_hmac_sha1.md sections 2 and 4): each of its arrays is the meaning's, and the
sequencer leaves OPAD alone while it runs the inner hash. -/

namespace Sys2Proof.Machine

theorem seqOpenBlock_opad (u : HashUnit) (blk : List Word) (i : Internals) : (seqOpenBlock u blk i).opad = i.opad := by
  unfold seqOpenBlock
  split <;> rfl

theorem seqCloseStep_opad (u : HashUnit) (i : Internals) (r : Regs) : (seqCloseStep u i r).opad = i.opad := by
  unfold seqCloseStep
  split <;> rfl

theorem seqTick_opad (u : HashUnit) (len : Nat) (q : Seq) : (seqTick u len q).int.opad = q.int.opad := by
  unfold seqTick
  split
  case h_4 => exact (seqCloseStep_opad _ _ _).trans (seqOpenBlock_opad _ _ _)
  all_goals rfl

theorem seqRun_opad (u : HashUnit) (len n : Nat) (q : Seq) : (seqRun u len n q).int.opad = q.int.opad := by
  induction n generalizing q with
  | zero => rfl
  | succ n ih => exact (ih _).trans (seqTick_opad u len q)

theorem seqWhole_opad (u : HashUnit) (int : Internals) (x : List Word) (len : Nat) : (seqWhole u int x len).int.opad = int.opad :=
  seqRun_opad u len _ _

/-- An internal array that takes a shorter list of words has zeros above them. -/
theorem toList_ofFn_getD {n : Nat} {ws : List Word} (h : ws.length ≤ n) :
    (Vector.ofFn (n := n) (fun i => ws.getD i.val 0)).toList = ws ++ List.replicate (n - ws.length) 0 := by
  refine List.ext_getElem (by simp [h]) fun i hi hi' => ?_
  rw [← List.getD_eq_getElem _ 0 hi', getD_append_replicate]
  simp

theorem ctlKeyWords_wb (key : List Word) (int : Internals) : (ctlKeyWords key int).wb = hmacKeyWords key := by
  unfold ctlKeyWords hmacKeyWords
  split
  · exact (seqWhole_result .sha1 int _ _).2
  · rfl

/-- BKEY is the normalised key. -/
theorem ctlLoadKey_bkey (key : List Word) (int : Internals) : (ctlLoadKey (ctlKeyWords key int)).bkey.toList = hmacKey key := by
  have hle := length_hmacKeyWords_le key
  rw [← ctlKeyWords_wb key int] at hle
  rw [ctlLoadKey, toList_ofFn_getD hle, ctlKeyWords_wb, hmacKey]

/-- IPAD and OPAD are the pads of the key in BKEY. -/
theorem ctlLoadPads_toList {i : Internals} {key : List Word} (h : i.bkey.toList = hmacKey key) :
    (ctlLoadPads i).ipad.toList = hmacIpad key ∧ (ctlLoadPads i).opad.toList = hmacOpad key := by
  constructor
  · rw [ctlLoadPads, Vector.toList_map, h, hmacIpad, hmacPad]
  · rw [ctlLoadPads, Vector.toList_map, h, hmacOpad, hmacPad]

/-- INNER takes the five words of a digest as they are. -/
theorem ctlLoadInner_inner {q : Seq} (h : q.wb.length = 5) : (ctlLoadInner q).inner.toList = q.wb := by
  rw [ctlLoadInner, toList_ofFn_getD h.le, h, Nat.sub_self, List.replicate_zero, List.append_nil]

/-- INNER is the inner digest, and OPAD is kept for the outer hash. -/
theorem ctlInner_toList {i : Internals} {key : List Word} (h : i.ipad.toList = hmacIpad key) (data : List Word) :
    (ctlInner data i).inner.toList = hmacInner key data ∧ (ctlInner data i).opad = i.opad := by
  obtain ⟨-, hwb⟩ := seqWhole_result .sha1 i (i.ipad.toList ++ pack .be data) (512 + 8 * data.length)
  refine ⟨?_, seqWhole_opad .sha1 i _ _⟩
  rw [ctlInner, ctlLoadInner_inner (by rw [hwb]; rfl), hwb, h]
  rfl

/-- Settles O56 (43_hmac_sha1.md sections 2 and 4). -/
theorem controllerComputesHmac : Obligations.ControllerComputesHmac := by
  intro key data int
  have hkey := ctlLoadKey_bkey key int
  obtain ⟨hipad, hopad⟩ := ctlLoadPads_toList hkey
  obtain ⟨hinner, hkept⟩ := ctlInner_toList hipad data
  obtain ⟨hphase, hwb⟩ := seqWhole_result .sha1 (ctlInner data (ctlLoadPads (ctlLoadKey (ctlKeyWords key int))))
    (hmacOpad key ++ hmacInner key data) 672
  rw [ctlRun, ctlOuter, hkept, hopad, hinner]
  exact ⟨hphase, hwb, hkey⟩

end Sys2Proof.Machine
end
